-- ==== Sys2Proof/Word.lean ====
section
/-! DEFINITION. The word types of the block (R10, R11, R25, R62) and the plain data that the tables hold (R24 to R32). -/

namespace Sys2Proof

/-- One byte of a payload, a bit offset or a bit width (u8). -/
abbrev Byte := BitVec 8

/-- A 32-bit word of a payload, of the parameter store or of the image (u32), or an i32 read through `toInt`. -/
abbrev Word := BitVec 32

/-- A message identifier as the block stores and compares it: a u32 (R25, R61, R90). -/
abbrev Ident := BitVec 32

/-- A value of `F`, as its IEEE 754 binary32 bit pattern (R180). -/
abbrev F32 := BitVec 32

/-- A visitor handle (R107): an opaque number that FOR_EACH hands back with each call. -/
abbrev Visitor := BitVec 32

/-- The 8 payload bytes of a frame as two words: `lo` is bytes 0 to 3, `hi` is bytes 4 to 7 (R10, R62, R90). -/
structure Payload where
  lo : Word
  hi : Word
  deriving DecidableEq, Repr, Inhabited

/-- The 64-bit value of a payload, `V = hi ++ lo` (R63). -/
def Payload.value (b : Payload) : BitVec 64 := b.hi ++ b.lo

/-- The payload whose 64-bit value is `v` (R63). -/
def Payload.ofValue (v : BitVec 64) : Payload := ⟨v.extractLsb' 0 32, v.extractLsb' 32 32⟩

/-- The direction of a message (R17): two independent namespaces (R27). -/
inductive Dir where
  | send
  | recv
  deriving DecidableEq, Repr, Inhabited

/-- A consumer handle (R21, R269): the mapping consumer `M` of the block (R188), or an external party (R135). -/
inductive Consumer where
  | mapping
  | ext (n : Nat)
  deriving DecidableEq, Repr, Inhabited

/-- A link or head value (R26, R31): the three-way sum that R31 allows in the place of numbers. -/
inductive Link where
  | slot (j : Nat)
  | endMark
  | freeMark
  deriving DecidableEq, Repr, Inhabited

/-- A Message Entry (R24 to R26). -/
structure Entry where
  id : Ident
  head : Link
  deriving DecidableEq, Repr, Inhabited

/-- A slot of the Binding pool (R30). `param` is a u PARAM_REF_BITS: its width is a parameter (R8), so it is a number
that every write cuts to the width (`Cfg.cutRef`) and that sound tables hold below `2 ^ PARAM_REF_BITS`. -/
structure Slot where
  param : Nat
  offset : Word
  gain : F32
  bitOff : Byte
  bitW : Byte
  next : Link
  deriving DecidableEq, Repr, Inhabited

/-- The two Message Entry tables and the shared Binding pool (R24, R29). -/
structure Tables where
  send : List Entry
  recv : List Entry
  pool : List Slot
  deriving DecidableEq, Repr, Inhabited

end Sys2Proof
end

