-- ==== Sys2Proof/Config.lean ====
section
/-! DEFINITION. The named parameters of the block (R7, R8) as plain data, and the free values: opaque constants
that nothing in Lean can evaluate (R15, R19). -/

namespace Sys2Proof

/-- A parameter's declared kind (R267, `PS.kind`). -/
inductive ParamKind where
  | fixed
  | float
  deriving DecidableEq, Repr, Inhabited

/-- What the Parameter Store declares of one parameter of its dense enumeration (R267): its kind, its persistent
identifier, and the limits that the fixture store of spec/95_test_vectors.md uses. -/
structure ParamDecl where
  kind : ParamKind
  pid : Nat
  min : F32
  max : F32
  deriving DecidableEq, Repr, Inhabited

/-- Which Parameter Store the model is given (R267: 'the store is a parameter of the model'). -/
inductive StoreModel where
  /-- The fixture store TPS of spec/95_test_vectors.md section 0. -/
  | fixture
  /-- Any other store: its calls are the opaque functions below, at index `n`. -/
  | other (n : Nat)
  deriving DecidableEq, Repr, Inhabited

/-- Which image layout and checksum the model is given (R8 `IMG_LAYOUT`, `CKSUM`). -/
inductive ImageModel where
  /-- A plain layout and a wrapping sum, the model's own example. DESIGN CHOICE, log 14. -/
  | plain
  /-- Any other layout and checksum: the opaque functions below, at index `n`. -/
  | other (n : Nat)
  deriving DecidableEq, Repr, Inhabited

/-- The implementation parameters (R7, R8). They are constant (R43): no step writes them. -/
structure Cfg where
  maxConsumers : Nat
  maxIoi : Nat
  maxMessages : Nat
  maxItems : Nat
  nodeId : Nat
  paramRefBits : Nat
  gainFracBits : Nat
  gainSigned : Bool
  eraseUnitBytes : Nat
  params : List ParamDecl
  store : StoreModel
  image : ImageModel
  deriving DecidableEq, Repr, Inhabited

/-- `PARAM_COUNT` (R7): the size of the store's dense enumeration. -/
def Cfg.paramCount (c : Cfg) : Nat := c.params.length

/-- A number as the field `param` of a slot holds it: a u PARAM_REF_BITS (R8, R30), the low bits of the number. What
becomes of a number that does not fit is DEDUCED, log 6. -/
def Cfg.cutRef (c : Cfg) (n : Nat) : Nat := n % 2 ^ c.paramRefBits

/-- What the layout of an image depends on, besides IMG_LAYOUT itself (R111). -/
structure ImageShape where
  maxMessages : Nat
  maxItems : Nat
  paramRefBits : Nat
  deriving DecidableEq, Repr, Inhabited

/-- The shape of the image under a configuration. -/
def Cfg.imageShape (c : Cfg) : ImageShape := ⟨c.maxMessages, c.maxItems, c.paramRefBits⟩

/-- `LINK_BITS` (R8, D4): the smallest width that holds `MAX_ITEMS + 1`. -/
def Cfg.linkBits (c : Cfg) : Nat := Nat.log2 (c.maxItems + 1) + 1

/-- The SDO request identifier `0x600 + NODE_ID`, a plain integer sum (R91). -/
def Cfg.requestId (c : Cfg) : Nat := 0x600 + c.nodeId

/-- The SDO reply identifier `0x580 + NODE_ID` (R100). -/
def Cfg.replyId (c : Cfg) : Nat := 0x580 + c.nodeId

/-- The configured values (R281) that the model starts from: the configuration CFG and the declarations of the store
TPS of spec/95_test_vectors.md section 0. DESIGN CHOICE, log 1: the spec leaves every value open. -/
def Cfg.configured : Cfg where
  maxConsumers := 2
  maxIoi := 4
  maxMessages := 3
  maxItems := 4
  nodeId := 1
  paramRefBits := 16
  gainFracBits := 5
  gainSigned := true
  eraseUnitBytes := 1024
  params := (List.range 64).map fun n =>
    { kind := if n < 32 then .fixed else .float, pid := n + 37, min := 0xC47A0000, max := 0x447A0000 }
  store := .fixture
  image := .plain

namespace Config

/-- A drawn 32-bit value (R19), one for each draw number. -/
opaque freeWord : Nat → Word
/-- A drawn natural number (R19), one for each draw number. -/
opaque freeNat : Nat → Nat
/-- A drawn bit (R19), one for each draw number. -/
opaque freeBool : Nat → Bool
/-- Drawn cells of the Parameter Store (R135), one list for each draw number. -/
opaque freeWords : Nat → List Word
/-- Drawn writes to the flash (R135), one list for each draw number. -/
opaque freeCells : Nat → List (Nat × Byte)
/-- Sign and payload of the NaN that an invalid or NaN operation gives, from its two operands: IEEE 754 leaves them
to the implementation. -/
opaque nanBits : F32 → F32 → BitVec 23

/-- The raw word of the fixture store for a value whose `trunc(V * 32)` is no i32 (a NaN, an infinity, a magnitude too
large), which spec/95_test_vectors.md does not give: a function of the value, so that equal reads get equal answers
(R210). DESIGN CHOICE, log 13. -/
opaque rawUnstated : F32 → Word
/-- The raw word of the fixture store for a number that has no cell: a function of the cells and the number. DESIGN
CHOICE, log 13. -/
opaque rawOfNoCell : List Word → Nat → Word
/-- The cells of the fixture store after a write to a parameter that has no cell: a function of the cells, the number and
the value. DESIGN CHOICE, log 13. -/
opaque cellsOfNoCell : List Word → Nat → Word → List Word
/-- Whether the fixture store accepts a raw word for a number that has no declaration. DESIGN CHOICE, log 13. -/
opaque acceptsUndeclared : Nat → Word → Bool

/-- `PS.getFloat` of another store: model, cells, parameter (R267). -/
opaque otherGetFloat : Nat → List Word → Nat → F32
/-- `PS.getRaw` of another store (R267). -/
opaque otherGetRaw : Nat → List Word → Nat → Word
/-- `PS.setFixed` of another store: the cells it leaves (R267). -/
opaque otherSetFixed : Nat → List Word → Nat → F32 → List Word
/-- `PS.setFloat` of another store: the cells it leaves (R267). -/
opaque otherSetFloat : Nat → List Word → Nat → F32 → List Word
/-- `PS.setRaw` of another store: whether it accepts the word (R267). -/
opaque otherAcceptsRaw : Nat → List Word → Nat → Word → Bool
/-- `PS.setRaw` of another store: the cells it leaves when it accepts the word (R267). -/
opaque otherSetRaw : Nat → List Word → Nat → Word → List Word
/-- `PS.kind` of another store, of a number that is no parameter (U8). -/
opaque otherKind : Nat → Nat → ParamKind
/-- `PS.idFromNum` of a number that is no parameter (U8). -/
opaque idOfInvalid : Nat → Nat
/-- How far above `PARAM_COUNT` another store's failure value of `PS.numFromId` lies (R267, U6). -/
opaque otherMissing : Nat → Nat → Nat

/-- Words of the region of a direction's entries in another layout (R111). -/
opaque otherTableWords : Nat → ImageShape → Dir → Nat
/-- Words of the region of the pool in another layout (R111). -/
opaque otherPoolWords : Nat → ImageShape → Nat
/-- Word `k` of the region of a direction's entries in another layout, from all the entries: so entries can share a word.
With each entry stands what its words hold beyond its fields: a draw for a free entry, 0 for a used one (R46, R111). -/
opaque otherSerTable : Nat → ImageShape → Dir → List (Entry × Nat) → Nat → Word
/-- Word `k` of the region of the pool in another layout, from all the slots, each with what its words hold beyond its
fields: a draw for a free slot, 0 for a used one (R46, R111). -/
opaque otherSerPool : Nat → ImageShape → List (Slot × Nat) → Nat → Word
/-- Entry `i` that the words of a direction's region stand for in another layout (R111). -/
opaque otherDeTable : Nat → ImageShape → Dir → List Word → Nat → Entry
/-- Slot `j` that the words of the pool's region stand for in another layout (R111). -/
opaque otherDePool : Nat → ImageShape → List Word → Nat → Slot
/-- `CKSUM.init` of another checksum (R268). -/
opaque otherCksumInit : Nat → Word
/-- `CKSUM.step` of another checksum (R268). -/
opaque otherCksumStep : Nat → Word → Word → Word

end Config

end Sys2Proof
end

