-- ==== Sys2Proof/Syntax.lean ====
section
/-! DEFINITION. The operations of the block: one constructor for each row of spec/opcode_table.json (R103, R106). -/

namespace Sys2Proof

/-- The operations, in the order of the opcode table. Operands of the command port are typed arguments (R105, R107);
operands of an SDO class are the fields of its payload (R93, R98, R99). -/
inductive Instr where
  /-- REGISTER `c` (R131). -/
  | register (c : Consumer)
  /-- ADD_IOI `id` (R132). -/
  | addIoi (id : Ident)
  /-- CLEAR_IOI (R133). -/
  | clearIoi
  /-- DISPATCH `id`, `B` (R134). -/
  | dispatch (id : Ident) (buf : Payload)
  /-- ADD `dir`, `param`, `id`, `bitOff`, `bitW`, `gain`, `offset` (R155). -/
  | add (dir : Dir) (param : Nat) (id : Ident) (bitOff bitW : Byte) (gain : F32) (offset : Word)
  /-- REMOVE `param` (R157). -/
  | remove (param : Nat)
  /-- FIND_FIRST `param` (R158). -/
  | findFirst (param : Nat)
  /-- FOR_EACH `v` (R159). -/
  | forEach (v : Visitor)
  /-- CLEAR (R160). -/
  | clear
  /-- SEND_SWEEP (R189). -/
  | sendSweep
  /-- UNPACK `B`, `j`, internal (R182); the width of `j` is the model's (log 8). -/
  | unpack (buf : Payload) (slot : Word)
  /-- PACK `T`, `j`, internal (R183); the width of `j` is the model's (log 8). -/
  | pack (frame : Payload) (slot : Word)
  /-- MAP_RX `id`, `B`, internal (R186). -/
  | mapRx (id : Ident) (buf : Payload)
  /-- MAP_CLEARED, internal (R187). -/
  | mapCleared
  /-- SAVE_BEGIN (R231). -/
  | saveBegin
  /-- SAVE_END (R233). -/
  | saveEnd
  /-- LOAD (R234). -/
  | load
  /-- SDO_PRM_WR: index 0x2000, command 0x40 (R203). -/
  | sdoPrmWr (sub : Byte) (data : Word)
  /-- SDO_PRM_RD: index 0x2000, command 0x22 (R202). -/
  | sdoPrmRd (sub : Byte) (data : Word)
  /-- SDO_PID_WR: index 0x2001, command 0x40 (R205). -/
  | sdoPidWr (sub : Byte) (data : Word)
  /-- SDO_PID_RD: index 0x2001, command 0x22 (R204). -/
  | sdoPidRd (sub : Byte) (data : Word)
  /-- SDO_MAP_TX: index 0x3000..0x3FFF, command 0x40; `second` is index bit 11, which names the same objects again
  (R98, R206). -/
  | sdoMapTx (second : BitVec 1) (ident : BitVec 11) (sub bitOff bitW : Byte) (gainRaw : BitVec 16)
  /-- SDO_MAP_RX: index 0x4000..0x47FF, command 0x40 (R207). -/
  | sdoMapRx (ident : BitVec 11) (sub bitOff bitW : Byte) (gainRaw : BitVec 16)
  /-- SDO_ECHO on index 0x2000 or 0x2001; `pid` is index bit 0 (R208, first pattern). -/
  | sdoEchoPrm (pid : BitVec 1) (cmd sub : Byte) (data : Word)
  /-- SDO_ECHO on index 0x3000..0x3FFF (R208, second pattern). -/
  | sdoEchoMapTx (low : BitVec 12) (cmd sub : Byte) (data : Word)
  /-- SDO_ECHO on index 0x4000..0x47FF (R208, third pattern). -/
  | sdoEchoMapRx (low : BitVec 11) (cmd sub : Byte) (data : Word)
  /-- SDO_INVIDX: every other request (R209). -/
  | sdoInvIdx (cmd : Byte) (index : BitVec 16) (sub : Byte) (data : Word)
  deriving DecidableEq, Repr

end Sys2Proof
end

