-- ==== Sys2Proof/WellFormed.lean ====
section
/-! DEFINITION. Which operations have an encoding, under a configuration (R97, R103, R104, R107). -/

namespace Sys2Proof

/-- A parameter reference operand is a u PARAM_REF_BITS (R107). -/
def paramRefFits (c : Cfg) (p : Nat) : Bool := p < 2 ^ c.paramRefBits

/-- A consumer handle that the command port's handle lane can name: 0 is `M`, `n + 1` is external consumer `n`. -/
def Consumer.fits : Consumer → Bool
  | .mapping => true
  | .ext n => n + 1 < 2 ^ 32

/-- `SUBOK`: the sub-index is below PARAM_COUNT (R103). -/
def subOk (c : Cfg) (sub : Byte) : Bool := sub.toNat < c.paramCount

/-- An index of an object row of R97. -/
def objectIndex (index : BitVec 16) : Bool :=
  index == 0x2000 || index == 0x2001 || (0x3000 ≤ index.toNat && index.toNat ≤ 0x47FF)

/-- The operation has an encoding: each operand fits its lane, and an SDO class's own condition holds (R103). -/
def Instr.wellFormed (c : Cfg) : Instr → Bool
  | .register h => h.fits
  | .addIoi _ => true
  | .clearIoi => true
  | .dispatch _ _ => true
  | .add _ p _ _ _ _ _ => paramRefFits c p
  | .remove p => paramRefFits c p
  | .findFirst p => paramRefFits c p
  | .forEach _ => true
  | .clear => true
  | .sendSweep => true
  | .unpack _ _ => true
  | .pack _ _ => true
  | .mapRx _ _ => true
  | .mapCleared => true
  | .saveBegin => true
  | .saveEnd => true
  | .load => true
  | .sdoPrmWr sub _ => subOk c sub
  | .sdoPrmRd sub _ => subOk c sub
  | .sdoPidWr sub _ => subOk c sub
  | .sdoPidRd sub _ => subOk c sub
  | .sdoMapTx _ _ sub _ _ _ => subOk c sub
  | .sdoMapRx _ sub _ _ _ => subOk c sub
  | .sdoEchoPrm _ cmd sub _ => subOk c sub && cmd != 0x40 && cmd != 0x22
  | .sdoEchoMapTx _ cmd sub _ => subOk c sub && cmd != 0x40
  | .sdoEchoMapRx _ cmd sub _ => subOk c sub && cmd != 0x40
  | .sdoInvIdx _ index sub _ => !(objectIndex index && subOk c sub)

end Sys2Proof
end

