-- ==== Sys2Proof/Decode.lean ====
section
/-! DEFINITION. The two formats an operation arrives in, the decoder of each, and the encoder (R90 to R112). -/

namespace Sys2Proof

/-! ## Format CMD (R105 to R108): a selector and typed operand lanes -/

/-- The command port: the 8-bit selector `op` and one lane for each typed operand. 'Operands are typed arguments, not
bit fields' (spec/opcode_table.json); the lanes' names and the lane an operand travels on are the model's own.
DESIGN CHOICE, log 8. -/
structure CmdPort where
  op : Byte
  /-- `dir`: SEND is 0, RECV is 1 (R107). -/
  dir : BitVec 1
  /-- `param`, a u PARAM_REF_BITS: the decoder rejects a number that does not fit (R107). -/
  param : Nat
  /-- A consumer handle, a visitor handle, or the pool index of UNPACK and PACK. R107 gives none of them a width; the 32
  bits are the model's. DESIGN CHOICE, log 8. -/
  num : Word
  id : Word
  bitOff : Byte
  bitW : Byte
  /-- `gain`, or the low word of a buffer or frame. -/
  lo : Word
  /-- `offset`, or the high word of a buffer or frame. -/
  hi : Word
  deriving DecidableEq, Repr

/-- The port with selector `op` and every operand lane zero. -/
def CmdPort.ofOp (op : Byte) : CmdPort := ⟨op, 0, 0, 0, 0, 0, 0, 0, 0⟩

/-- An operation as it reaches the block: on the command port, or as the payload of an SDO request at the SDO
handler's input (R200). -/
inductive Fetch where
  | cmd (p : CmdPort)
  | sdo (b : Payload)
  deriving DecidableEq, Repr

/-- Why the decoder rejects what is on the command port. -/
inductive DecodeError where
  /-- The selector is in no row of R106. -/
  | unknownSelector (op : Byte)
  /-- The `param` operand does not fit u PARAM_REF_BITS (R107). -/
  | paramTooWide (p : Nat)
  deriving DecidableEq, Repr

/-- The direction on the port (R107). -/
def dirOfBit (b : BitVec 1) : Dir := if b = 0 then .send else .recv

/-- The direction's number (R107). -/
def Dir.bit : Dir → BitVec 1
  | .send => 0
  | .recv => 1

/-- The consumer that a handle names. -/
def consumerOfWord (w : Word) : Consumer := if w = 0 then .mapping else .ext (w.toNat - 1)

/-- The handle of a consumer. -/
def Consumer.word : Consumer → Word
  | .mapping => 0
  | .ext n => BitVec.ofNat 32 (n + 1)

/-- Reads a `param` operand, or rejects it by name. -/
def decodeParam (c : Cfg) (p : Nat) (k : Nat → Instr) : Except DecodeError Instr :=
  if paramRefFits c p then .ok (k p) else .error (.paramTooWide p)

/-- The decoder of format CMD: the selectors of R106. -/
def decodeCmd (c : Cfg) (p : CmdPort) : Except DecodeError Instr :=
  if p.op = 0x01 then .ok (.register (consumerOfWord p.num))
  else if p.op = 0x02 then .ok (.addIoi p.id)
  else if p.op = 0x03 then .ok .clearIoi
  else if p.op = 0x04 then .ok (.dispatch p.id ⟨p.lo, p.hi⟩)
  else if p.op = 0x10 then decodeParam c p.param fun n => .add (dirOfBit p.dir) n p.id p.bitOff p.bitW p.lo p.hi
  else if p.op = 0x11 then decodeParam c p.param .remove
  else if p.op = 0x12 then decodeParam c p.param .findFirst
  else if p.op = 0x13 then .ok (.forEach p.num)
  else if p.op = 0x14 then .ok .clear
  else if p.op = 0x20 then .ok .sendSweep
  else if p.op = 0x21 then .ok (.unpack ⟨p.lo, p.hi⟩ p.num)
  else if p.op = 0x22 then .ok (.pack ⟨p.lo, p.hi⟩ p.num)
  else if p.op = 0x23 then .ok (.mapRx p.id ⟨p.lo, p.hi⟩)
  else if p.op = 0x24 then .ok .mapCleared
  else if p.op = 0x30 then .ok .saveBegin
  else if p.op = 0x31 then .ok .saveEnd
  else if p.op = 0x32 then .ok .load
  else .error (.unknownSelector p.op)

/-! ## Format SDO (R91 to R104) -/

/-- `cmd = V[7:0]` (R93). -/
def Payload.cmd (b : Payload) : Byte := b.lo.extractLsb' 0 8
/-- `index = V[23:8]` (R93). -/
def Payload.index (b : Payload) : BitVec 16 := b.lo.extractLsb' 8 16
/-- `sub = V[31:24]` (R93). -/
def Payload.sub (b : Payload) : Byte := b.lo.extractLsb' 24 8
/-- `data = V[63:32]` (R93). -/
def Payload.data (b : Payload) : Word := b.hi

/-- The payload of an SDO frame with these fields: `lo = sub ++ index ++ cmd`, `hi = data` (R93). -/
def sdoPayload (cmd : Byte) (index : BitVec 16) (sub : Byte) (data : Word) : Payload := ⟨sub ++ index ++ cmd, data⟩

/-- The eight request classes of R103. -/
inductive SdoClass where
  | prmWr
  | prmRd
  | pidWr
  | pidRd
  | mapTx
  | mapRx
  | echo
  | invIdx
  deriving DecidableEq, Repr

/-- The class of a request: the first row of R103 whose condition holds. -/
def sdoClass (c : Cfg) (b : Payload) : SdoClass :=
  let ok := subOk c b.sub
  let prm := b.index == 0x2000
  let pid := b.index == 0x2001
  let mapTx := 0x3000 ≤ b.index.toNat && b.index.toNat ≤ 0x3FFF
  let mapRx := 0x4000 ≤ b.index.toNat && b.index.toNat ≤ 0x47FF
  if prm && ok && b.cmd == 0x40 then .prmWr
  else if prm && ok && b.cmd == 0x22 then .prmRd
  else if pid && ok && b.cmd == 0x40 then .pidWr
  else if pid && ok && b.cmd == 0x22 then .pidRd
  else if mapTx && ok && b.cmd == 0x40 then .mapTx
  else if mapRx && ok && b.cmd == 0x40 then .mapRx
  else if (prm || pid || mapTx || mapRx) && ok then .echo
  else .invIdx

/-- Mapping data (R99): `bitOff = data[7:0]`. -/
def Payload.mapBitOff (b : Payload) : Byte := b.hi.extractLsb' 0 8
/-- Mapping data (R99): `bitW = data[15:8]`. -/
def Payload.mapBitW (b : Payload) : Byte := b.hi.extractLsb' 8 8
/-- Mapping data (R99): `gainRaw = data[31:16]`. -/
def Payload.mapGainRaw (b : Payload) : BitVec 16 := b.hi.extractLsb' 16 16
/-- The message identifier of a mapping request, `index[10:0]` (R98). -/
def Payload.mapIdent (b : Payload) : BitVec 11 := b.lo.extractLsb' 8 11

/-- The operation that an SDO request's payload stands for: total, since the last class takes everything (R103). -/
def decodeSdo (c : Cfg) (b : Payload) : Instr :=
  match sdoClass c b with
  | .prmWr => .sdoPrmWr b.sub b.data
  | .prmRd => .sdoPrmRd b.sub b.data
  | .pidWr => .sdoPidWr b.sub b.data
  | .pidRd => .sdoPidRd b.sub b.data
  | .mapTx => .sdoMapTx (b.lo.extractLsb' 19 1) b.mapIdent b.sub b.mapBitOff b.mapBitW b.mapGainRaw
  | .mapRx => .sdoMapRx b.mapIdent b.sub b.mapBitOff b.mapBitW b.mapGainRaw
  | .echo =>
    if b.index.toNat < 0x3000 then .sdoEchoPrm (b.lo.extractLsb' 8 1) b.cmd b.sub b.data
    else if b.index.toNat < 0x4000 then .sdoEchoMapTx (b.lo.extractLsb' 8 12) b.cmd b.sub b.data
    else .sdoEchoMapRx b.mapIdent b.cmd b.sub b.data
  | .invIdx => .sdoInvIdx b.cmd b.index b.sub b.data

/-- The decoder: total, rejecting by name. -/
def decode (c : Cfg) : Fetch → Except DecodeError Instr
  | .cmd p => decodeCmd c p
  | .sdo b => .ok (decodeSdo c b)

/-! ## The encoder -/

/-- The data field of a mapping request, `gainRaw ++ bitW ++ bitOff` (R99, R206). -/
def mapData (bitOff bitW : Byte) (gainRaw : BitVec 16) : Word := gainRaw ++ bitW ++ bitOff

/-- The encoding of an operation, from the tables of R103 and R106. -/
def encode : Instr → Fetch
  | .register h => .cmd { CmdPort.ofOp 0x01 with num := h.word }
  | .addIoi id => .cmd { CmdPort.ofOp 0x02 with id := id }
  | .clearIoi => .cmd (CmdPort.ofOp 0x03)
  | .dispatch id b => .cmd { CmdPort.ofOp 0x04 with id := id, lo := b.lo, hi := b.hi }
  | .add d p id o w g k =>
    .cmd { op := 0x10, dir := d.bit, param := p, num := 0, id := id, bitOff := o, bitW := w, lo := g, hi := k }
  | .remove p => .cmd { CmdPort.ofOp 0x11 with param := p }
  | .findFirst p => .cmd { CmdPort.ofOp 0x12 with param := p }
  | .forEach v => .cmd { CmdPort.ofOp 0x13 with num := v }
  | .clear => .cmd (CmdPort.ofOp 0x14)
  | .sendSweep => .cmd (CmdPort.ofOp 0x20)
  | .unpack b j => .cmd { CmdPort.ofOp 0x21 with num := j, lo := b.lo, hi := b.hi }
  | .pack t j => .cmd { CmdPort.ofOp 0x22 with num := j, lo := t.lo, hi := t.hi }
  | .mapRx id b => .cmd { CmdPort.ofOp 0x23 with id := id, lo := b.lo, hi := b.hi }
  | .mapCleared => .cmd (CmdPort.ofOp 0x24)
  | .saveBegin => .cmd (CmdPort.ofOp 0x30)
  | .saveEnd => .cmd (CmdPort.ofOp 0x31)
  | .load => .cmd (CmdPort.ofOp 0x32)
  | .sdoPrmWr sub data => .sdo (sdoPayload 0x40 0x2000 sub data)
  | .sdoPrmRd sub data => .sdo (sdoPayload 0x22 0x2000 sub data)
  | .sdoPidWr sub data => .sdo (sdoPayload 0x40 0x2001 sub data)
  | .sdoPidRd sub data => .sdo (sdoPayload 0x22 0x2001 sub data)
  | .sdoMapTx second ident sub o w g => .sdo (sdoPayload 0x40 (0x3#4 ++ second ++ ident) sub (mapData o w g))
  | .sdoMapRx ident sub o w g => .sdo (sdoPayload 0x40 (0x8#5 ++ ident) sub (mapData o w g))
  | .sdoEchoPrm pid cmd sub data => .sdo (sdoPayload cmd (0x1000#15 ++ pid) sub data)
  | .sdoEchoMapTx low cmd sub data => .sdo (sdoPayload cmd (0x3#4 ++ low) sub data)
  | .sdoEchoMapRx low cmd sub data => .sdo (sdoPayload cmd (0x8#5 ++ low) sub data)
  | .sdoInvIdx cmd index sub data => .sdo (sdoPayload cmd index sub data)

/-- The payload of an SDO operation's request frame (R93); an operation of the command port has none. -/
def requestPayload (i : Instr) : Payload :=
  match encode i with
  | .sdo b => b
  | .cmd _ => ⟨0, 0⟩

/-! ## Words numbered as spec/opcode_table.json numbers them -/

/-- What the hardware is handed for a table word of `nbits` bits. A row of format CMD is its 8-bit selector, with
every operand lane zero; a row of format SDO is `V = hi ++ lo` (R93). -/
def fetchOfTableWord (nbits w : Nat) : Fetch :=
  if nbits = 8 then .cmd (CmdPort.ofOp (BitVec.ofNat 8 w)) else .sdo (Payload.ofValue (BitVec.ofNat 64 (w % 2 ^ nbits)))

/-- The operation the decoder reads from a table word, under the configured values (log 1). -/
def decodeTableWord (nbits w : Nat) : Option Instr :=
  match decode Cfg.configured (fetchOfTableWord nbits w) with
  | .ok i => some i
  | .error _ => none

end Sys2Proof
end

