-- ==== Sys2Proof/Machine/State.lean ====
section
/-! DEFINITION. The state of the block (R20), of what its ports reach, and the model's own fields; the reasons a step
stops; the state after reset (R281). -/

namespace Sys2Proof.Machine

/-- A collaborator call with its arguments (R15, R266 to R269): the block's observable output. -/
inductive PortCall where
  /-- `BT.send(id, lo, hi)` -/
  | btSend (id : Ident) (lo hi : Word)
  /-- `BT.configureFilter(list)` -/
  | btConfigureFilter (ids : List Ident)
  /-- `PS.getFloat(p)` -/
  | psGetFloat (p : Nat)
  /-- `PS.kind(p)` -/
  | psKind (p : Nat)
  /-- `PS.setFixed(p, f)` -/
  | psSetFixed (p : Nat) (f : F32)
  /-- `PS.setFloat(p, f)` -/
  | psSetFloat (p : Nat) (f : F32)
  /-- `PS.getRaw(p)` -/
  | psGetRaw (p : Nat)
  /-- `PS.setRaw(p, w)` -/
  | psSetRaw (p : Nat) (w : Word)
  /-- `PS.idFromNum(n)` -/
  | psIdFromNum (n : Nat)
  /-- `PS.numFromId(pid)` -/
  | psNumFromId (pid : Nat)
  /-- `FL.isErased()` -/
  | flIsErased
  /-- `FL.erase()` -/
  | flErase
  /-- `FL.program(k, w)` -/
  | flProgram (k : Nat) (w : Word)
  /-- `FL.read(k)` -/
  | flRead (k : Nat)
  /-- `C.rx(id, B)` of external consumer `n` -/
  | extRx (n : Nat) (id : Ident) (b : Payload)
  /-- `C.cleared()` of external consumer `n` -/
  | extCleared (n : Nat)
  /-- one call of a visitor: the argument list of R159 -/
  | visit (v : Visitor) (d : Dir) (id : Ident) (param : Nat) (bitOff bitW : Byte) (gain : F32) (offset : Word)
  deriving DecidableEq, Repr

/-- The result codes (R250). -/
inductive ErrCode where
  | invalidId
  | invalidOffset
  | invalidLength
  | maxMessages
  | maxItems
  | valueRange
  | invalidIndex
  deriving DecidableEq, Repr

/-- The result of an operation (R14, R106, R108): a sum type, as R108 asks. -/
inductive Result where
  /-- no result -/
  | none
  /-- REGISTER, ADD_IOI, LOAD -/
  | bool (b : Bool)
  /-- ADD: the count of identifiers in the direction -/
  | count (n : Nat)
  /-- ADD: an error code -/
  | error (e : ErrCode)
  /-- REMOVE: how many bindings went -/
  | removed (n : Nat)
  /-- FIND_FIRST: the binding found -/
  | found (id : Ident) (bitOff bitW : Byte) (gain : F32) (d : Dir)
  /-- FIND_FIRST: a separate value (D45) -/
  | notFound
  /-- PACK: the frame -/
  | frame (t : Payload)
  /-- DISPATCH and the SDO classes: the caller's buffer as the operation leaves it (R77, R291) -/
  | buffer (b : Payload)
  /-- MAP_RX: whether the frame was claimed, and the buffer -/
  | claimed (b : Bool) (buf : Payload)
  deriving DecidableEq, Repr

/-- What happens outside the command port, between operations. -/
inductive EnvEvent where
  /-- SAVE_WRITE, the Persistence Layer's writing phase (R232). -/
  | saveWrite
  /-- Another client of the Parameter Store changes it: its new cells (R49). -/
  | storeChange (cells : List Word)
  /-- Bytes of the flash change from outside (U14, R237 L2). -/
  | flashChange (cells : List Host.Cell)
  /-- The device starts again (R280, R282): only the flash survives; the store has the cells given. -/
  | powerCycle (cells : List Word)
  /-- The device starts again with another build of the firmware (R237 L4, R282: the image survives upgrades): the new
  parameters, and the new store's cells. -/
  | rebuild (cfg : Cfg) (cells : List Word)
  deriving DecidableEq, Repr

/-- One entry of the total order of R74: an operation that a context starts, or an event from outside. -/
inductive Request where
  | op (f : Fetch)
  | env (e : EnvEvent)
  deriving DecidableEq, Repr

/-- Why a run stops where the spec says an index or address does not exist. -/
inductive Fault where
  /-- Raised by UNPACK and PACK for a pool index that is not in 0..MAX_ITEMS-1 (R60). Safe: no such slot exists. -/
  | noSuchSlot
  /-- Raised by SAVE_WRITE and LOAD when the image does not fit the erase unit, a configuration the build-time check
  rejects (R9 a). Safe: such a device does not exist. -/
  | imageOutsideUnit
  deriving DecidableEq, Repr

/-- Why the model gives a situation no meaning: each is the spec's own `refuse` (R19) or a thing that is no
operation. All are safe: the model claims nothing there. -/
inductive Refusal where
  /-- Raised by `exec` for an instruction without a meaning. None is left. -/
  | notModelled (mnemonic : String)
  /-- Raised by `step` when the command port holds no operation (R106, R107). -/
  | badCommand (e : DecodeError)
  /-- Raised by the table operations while `busy = 1` (U3, R235, R287). -/
  | tableBusy
  /-- Raised by SAVE_BEGIN while `busy = 1` (U4, R286). -/
  | saveActive
  /-- Raised by SAVE_END and SAVE_WRITE while `busy = 0` (U4, R233 a). -/
  | noSave
  /-- Raised by LOAD when an entry or slot is used (R234 a). -/
  | loadNotAtReset
  /-- Raised by every operation in a state that breaks INV1 to INV4 (U5, U9, R234 e), or whose tables do not have their
  capacities and widths, which no state of the block does (R24, R29, R30). -/
  | brokenTables
  deriving DecidableEq, Repr

/-- The state: the block's own variables (R20), the configuration (R43), the state of the collaborators that the
ports reach (R23, R49), and the model's own fields `pending`, `draws`, `result` and `out`. -/
structure State where
  /-- The parameters and NODE_ID: constant within a build (R43). -/
  cfg : Cfg
  /-- `cons[0..nCons-1]`, in registration order; `nCons` is its length (R21). -/
  cons : List Consumer
  /-- `ioi[0..nIoi-1]`, in insertion order; `nIoi` is its length (R22). -/
  ioi : List Ident
  /-- `tab[SEND]`, `tab[RECV]` and `pool` (R24, R29). -/
  tables : Tables
  /-- The gate (R42). -/
  busy : Bool
  /-- The shadow of the list last given to the transport's filter (R23); empty while none has been given, log 22. -/
  filter : List Ident
  /-- The Parameter Store's cells, one for each parameter (R267). -/
  store : List Word
  /-- The flash image region, in canonical form; an unlisted byte is erased (R111, R268). -/
  flash : List Host.Cell
  /-- The requests not yet started, oldest first (R74). -/
  pending : List Request
  /-- How many free values have been taken. -/
  draws : Nat
  /-- The result of the last operation. -/
  result : Result
  /-- Every port call so far, oldest first (R15). -/
  out : List PortCall
  deriving DecidableEq, Repr

/-- The tables with every entry free and every slot free (R281); the other fields are zero, log 2. -/
def emptyTables (c : Cfg) : Tables where
  send := List.replicate c.maxMessages { id := 0, head := .endMark }
  recv := List.replicate c.maxMessages { id := 0, head := .endMark }
  pool := List.replicate c.maxItems
    { param := 0, offset := 0, gain := 0, bitOff := 0, bitW := 0, next := .freeMark }

/-- The block right after reset (R281), under a configuration, over a store and a flash. -/
def State.initial (c : Cfg) (store : List Word) (flash : List Host.Cell) : State where
  cfg := c
  cons := []
  ioi := []
  tables := emptyTables c
  busy := false
  filter := []
  store := store
  flash := flash
  pending := []
  draws := 0
  result := .none
  out := []

/-- The machine right after reset (R281), at the configured values of log 1, with a store of zeros (log 13) and a
blank flash (log 15). -/
def State.reset : State := State.initial Cfg.configured (List.replicate 64 0) []

end Sys2Proof.Machine
end

