-- ==== Sys2Proof/Machine/Operands.lean ====
section
/-! DEFINITION. Operand forms: payload bytes (R13, R62, R63), field placement (R64 to R66), links as numbers (R31),
and where an SDO mapping request carries its fields (R98, R99). -/

namespace Sys2Proof.Machine

/-- `MemRead(B, a, n)`: bytes `a` to `a + n - 1`, byte `a` least significant (R13). -/
def memRead (b : Payload) (a n : Nat) : Nat := b.value.toNat / 2 ^ (8 * a) % 2 ^ (8 * n)

/-- The 64-bit mask of bytes `a` to `a + n - 1`. -/
def byteMask (a n : Nat) : BitVec 64 := BitVec.ofNat 64 ((2 ^ (8 * n) - 1) * 2 ^ (8 * a))

/-- `MemWrite(B, a, n, v)`: byte `a` receives `v[7:0]` (R13). -/
def memWrite (b : Payload) (a n : Nat) (v : Nat) : Payload :=
  Payload.ofValue ((b.value &&& ~~~byteMask a n) ||| (BitVec.ofNat 64 (v * 2 ^ (8 * a)) &&& byteMask a n))

/-- `inLow(b)` (R64). -/
def inLow (b : Slot) : Bool := b.bitOff.toNat + b.bitW.toNat ≤ 32

/-- `inHigh(b)` (R64). -/
def inHigh (b : Slot) : Bool := 32 ≤ b.bitOff.toNat && b.bitOff.toNat + b.bitW.toNat ≤ 64

/-- A straddling binding (R66). -/
def straddling (b : Slot) : Bool := !inLow b && !inHigh b

/-- `sh`: the field's position in its word (R64). -/
def fieldShift (b : Slot) : Nat := if inLow b then b.bitOff.toNat else b.bitOff.toNat - 32

/-- The payload word that holds the field (R64): `inLow` is tested first. -/
def fieldWord (p : Payload) (b : Slot) : Word := if inLow b then p.lo else p.hi

/-- `mask(w) = 2^w - 1` as a u32 (R65). -/
def fieldMask (w : Nat) : Word := BitVec.ofNat 32 (2 ^ w - 1)

/-- Extraction, `(word >> sh) & mask(w)` (R65). -/
def extractField (word : Word) (sh w : Nat) : Word := (word >>> sh) &&& fieldMask w

/-- Insertion, `word | ((value & mask(w)) << sh)` (R65). -/
def insertField (word : Word) (sh w : Nat) (value : Word) : Word := word ||| ((value &&& fieldMask w) <<< sh)

/-- ORs a field into the word of the frame that holds it (R183). -/
def insertInto (t : Payload) (b : Slot) (value : Word) : Payload :=
  if inLow b then { t with lo := insertField t.lo (fieldShift b) b.bitW.toNat value }
  else { t with hi := insertField t.hi (fieldShift b) b.bitW.toNat value }

/-- A link as a number: `END = MAX_ITEMS`, `FREE = MAX_ITEMS + 1` (R31). -/
def linkNum (c : Cfg) : Link → Nat
  | .slot j => j
  | .endMark => c.maxItems
  | .freeMark => c.maxItems + 1

/-- The link that a number stands for (R31); a number above `FREE` stays a slot number that no slot has (U9). -/
def linkOfNum (c : Cfg) (n : Nat) : Link :=
  if n = c.maxItems then .endMark else if n = c.maxItems + 1 then .freeMark else .slot n

/-- The number of a result code on a single signed result wire (R108, R250). -/
def errNumber : ErrCode → Int
  | .invalidId => -1
  | .invalidOffset => -2
  | .invalidLength => -3
  | .maxMessages => -4
  | .maxItems => -5
  | .valueRange => -6
  | .invalidIndex => -7

/-- The abort code that an SDO reply carries for a condition (R251). -/
def abortCode : ErrCode → Nat
  | .invalidIndex => 0x06020000
  | _ => 0x06090030

end Sys2Proof.Machine
end

