-- ==== Sys2Proof/Machine/Arena.lean ====
section
/-! DEFINITION. The tables and the arena allocator (R24 to R36, R150 to R154): chains, the four procedures, the
invariants INV1 to INV4, and the writes that ADD and REMOVE make. -/

namespace Sys2Proof.Machine

/-- The table of a direction, `tab[d]`. -/
def entriesOf (t : Tables) : Dir → List Entry
  | .send => t.send
  | .recv => t.recv

/-- Replaces the table of a direction. -/
def setEntries (t : Tables) (d : Dir) (es : List Entry) : Tables :=
  match d with
  | .send => { t with send := es }
  | .recv => { t with recv := es }

/-- Entry `tab[d][i]`. -/
def entryAt (t : Tables) (d : Dir) (i : Nat) : Entry := (entriesOf t d).getD i default

/-- Slot `pool[j]`. -/
def slotAt (t : Tables) (j : Nat) : Slot := t.pool.getD j default

/-- A used entry: its head is not END (R28). -/
def entryUsed (e : Entry) : Bool := e.head != .endMark

/-- A used slot: its link is not FREE (R32). -/
def slotUsed (b : Slot) : Bool := b.next != .freeMark

/-- Follows links for at most `fuel` slots. It answers the slots visited, or nothing if the walk leaves the pool, meets
a free mark, or does not end (R35). -/
def walk (pool : List Slot) : Nat → Link → Option (List Nat)
  | _, .endMark => some []
  | _, .freeMark => none
  | 0, .slot _ => none
  | fuel + 1, .slot j =>
    match pool[j]? with
    | none => none
    | some b => (walk pool fuel b.next).map (j :: ·)

/-- The slots of a chain in chain order, from its head (R16). In a sound table every walk ends. -/
def chain (t : Tables) (head : Link) : List Nat := (walk t.pool t.pool.length head).getD []

/-- FIND_ENTRY (R150): the lowest used entry with the identifier. -/
def findEntry (t : Tables) (d : Dir) (id : Ident) : Option Nat :=
  (entriesOf t d).findIdx? fun e => entryUsed e && e.id == id

/-- FREE_ENTRY (R151): the lowest free entry. -/
def freeEntry (t : Tables) (d : Dir) : Option Nat := (entriesOf t d).findIdx? fun e => !entryUsed e

/-- FREE_SLOT (R152): the lowest free slot. -/
def freeSlot (t : Tables) : Option Nat := t.pool.findIdx? fun b => !slotUsed b

/-- TAIL (R153): the last slot of an entry's chain. -/
def tailOf (t : Tables) (d : Dir) (i : Nat) : Option Nat := (chain t (entryAt t d i).head).getLast?

/-- `used(d)`: how many entries of a direction are not free (R16). -/
def usedCount (t : Tables) (d : Dir) : Nat := (entriesOf t d).countP entryUsed

/-- Writes entry `tab[d][i]`. -/
def putEntry (t : Tables) (d : Dir) (i : Nat) (e : Entry) : Tables := setEntries t d ((entriesOf t d).set i e)

/-- `tab[d][i].head <- l`. -/
def putHead (t : Tables) (d : Dir) (i : Nat) (l : Link) : Tables := putEntry t d i { entryAt t d i with head := l }

/-- Writes slot `pool[j]`. -/
def putSlot (t : Tables) (j : Nat) (b : Slot) : Tables := { t with pool := t.pool.set j b }

/-- `pool[j].next <- l`. -/
def putNext (t : Tables) (j : Nat) (l : Link) : Tables := putSlot t j { slotAt t j with next := l }

/-! ## Invariants (R33 to R36) -/

/-- The parameter reference of every slot has its width, PARAM_REF_BITS (R30). -/
def refsFit (c : Cfg) (t : Tables) : Bool := t.pool.all fun b => decide (b.param < 2 ^ c.paramRefBits)

/-- The arrays have their capacities (R24, R29), and the parameter references their width (R30). -/
def tablesShape (c : Cfg) (t : Tables) : Bool :=
  t.send.length == c.maxMessages && t.recv.length == c.maxMessages && t.pool.length == c.maxItems && refsFit c t

/-- INV1 (R33): no identifier twice among the used entries of a direction. -/
def inv1 (t : Tables) : Bool :=
  decide (((t.send.filter entryUsed).map Entry.id).Nodup) && decide (((t.recv.filter entryUsed).map Entry.id).Nodup)

/-- The slots of every chain of both directions, one list. -/
def chainedSlots (t : Tables) : List Nat := (t.send ++ t.recv).flatMap fun e => chain t e.head

/-- INV2 (R34): each used slot stands in exactly one chain at one position, and no other slot in any. -/
def inv2 (t : Tables) : Bool :=
  decide (chainedSlots t).Nodup &&
    (List.range t.pool.length).all (fun j => slotUsed (slotAt t j) == (chainedSlots t).contains j)

/-- INV3 (R35): every chain ends at END, and no head is FREE (R26). -/
def inv3 (t : Tables) : Bool := (t.send ++ t.recv).all fun e => (walk t.pool t.pool.length e.head).isSome

/-- INV4 (R36): in every used slot `bitOff <= 63` and `bitW <= 32`. -/
def inv4 (t : Tables) : Bool :=
  t.pool.all fun b => !slotUsed b || (decide (b.bitOff.toNat ≤ 63) && decide (b.bitW.toNat ≤ 32))

/-- The tables have their capacities and widths and satisfy INV1 to INV4. The bound of R25 on the identifier of a used
entry is not among them: only a loaded image can break it, and the model goes on from there. DESIGN CHOICE, log 24. -/
def tablesSound (c : Cfg) (t : Tables) : Bool := tablesShape c t && inv1 t && inv2 t && inv3 t && inv4 t

/-- Every entry and every slot is free: the condition of LOAD (R234 a). -/
def tablesEmpty (t : Tables) : Bool := (t.send ++ t.recv).all (fun e => !entryUsed e) && t.pool.all (fun b => !slotUsed b)

/-! ## What ADD, REMOVE and CLEAR write -/

/-- ADD's allocations and writes (R155): the entry before the slot, nothing written until both are found. The new slot
is linked at the tail found before the write. -/
def linkBinding (t : Tables) (d : Dir) (id : Ident) (b : Slot) : Except ErrCode Tables :=
  match findEntry t d id with
  | some e =>
    match freeSlot t with
    | none => .error .maxItems
    | some j =>
      match tailOf t d e with
      | some q => .ok (putNext (putSlot t j b) q (.slot j))
      | none => .ok (putSlot t j b)
  | none =>
    match freeEntry t d with
    | none => .error .maxMessages
    | some e =>
      match freeSlot t with
      | none => .error .maxItems
      | some j => .ok (putEntry (putSlot t j b) d e { id := id, head := .slot j })

/-- REMOVE's walk of one chain (R157): the slots still to visit, the predecessor kept last, the count and the tables. -/
def removeChain (p : Nat) (d : Dir) (i : Nat) : List Nat → Option Nat → Nat → Tables → Nat × Tables
  | [], _, n, t => (n, t)
  | j :: js, prev, n, t =>
    if (slotAt t j).param = p then
      let nx := (slotAt t j).next
      let t1 :=
        match prev with
        | none => putHead t d i nx
        | some q => putNext t q nx
      removeChain p d i js prev (n + 1) (putNext t1 j .freeMark)
    else removeChain p d i js (some j) n t

/-- REMOVE's walk of the entries `is` of one direction (R157). -/
def removeEntries (p : Nat) (d : Dir) : List Nat → Nat → Tables → Nat × Tables
  | [], n, t => (n, t)
  | i :: is, n, t =>
    let r := removeChain p d i (chain t (entryAt t d i).head) none n t
    removeEntries p d is r.1 r.2

/-- REMOVE's whole scan, send before receive (R157). -/
def removeBindings (p : Nat) (t : Tables) : Nat × Tables :=
  let r := removeEntries p .send (List.range t.send.length) 0 t
  removeEntries p .recv (List.range r.2.recv.length) r.1 r.2

/-- CLEAR's writes (R160): every head END, every link FREE; no other field. -/
def clearTables (t : Tables) : Tables where
  send := t.send.map fun e => { e with head := .endMark }
  recv := t.recv.map fun e => { e with head := .endMark }
  pool := t.pool.map fun b => { b with next := .freeMark }

/-- The bindings of one direction with their identifiers, in table order then chain order (R16). -/
def bindingsOf (t : Tables) (d : Dir) : List (Dir × Ident × Slot) :=
  (entriesOf t d).flatMap fun e =>
    if entryUsed e then (chain t e.head).map fun j => (d, e.id, slotAt t j) else []

/-- Every binding, send before receive (R158, R159). -/
def allBindings (t : Tables) : List (Dir × Ident × Slot) := bindingsOf t .send ++ bindingsOf t .recv

/-- The identifiers of the used receive entries, in table order (R187, R234). -/
def recvIds (t : Tables) : List Ident := (t.recv.filter entryUsed).map Entry.id

end Sys2Proof.Machine
end

