-- ==== Sys2Proof/Machine/Fields.lean ====
section
/-! DEFINITION. One named update for each field of the state that an operation writes. -/

namespace Sys2Proof.Machine

/-- Writes `cons`. -/
def State.setCons (s : State) (v : List Consumer) : State := { s with cons := v }
/-- Writes `ioi`. -/
def State.setIoi (s : State) (v : List Ident) : State := { s with ioi := v }
/-- Writes the tables. -/
def State.setTables (s : State) (v : Tables) : State := { s with tables := v }
/-- Writes `busy`. -/
def State.setBusy (s : State) (v : Bool) : State := { s with busy := v }
/-- Writes the filter's shadow. -/
def State.setFilter (s : State) (v : List Ident) : State := { s with filter := v }
/-- Writes the store's cells. -/
def State.setStore (s : State) (v : List Word) : State := { s with store := v }
/-- Writes the flash. -/
def State.setFlash (s : State) (v : List Host.Cell) : State := { s with flash := v }
/-- Writes the requests not yet started. -/
def State.setPending (s : State) (v : List Request) : State := { s with pending := v }
/-- Writes the count of free values. -/
def State.setDraws (s : State) (v : Nat) : State := { s with draws := v }
/-- Writes the result. -/
def State.setResult (s : State) (v : Result) : State := { s with result := v }
/-- Writes the port calls. -/
def State.setOut (s : State) (v : List PortCall) : State := { s with out := v }

end Sys2Proof.Machine
end

