-- ==== Sys2Proof/Machine/Flags.lean ====
section
/-! DEFINITION. The one flag of the block, `busy` (R42), and what it and the invariants admit (R235, U3 to U5). -/

namespace Sys2Proof.Machine

/-- The gate closes: SAVE_BEGIN's first act (R231). -/
def closeGate (s : State) : State := s.setBusy true

/-- The gate opens: SAVE_END's last act (R233). -/
def openGate (s : State) : State := s.setBusy false

/-- An operation has no transition from a state that breaks INV1 to INV4 (U5, R234 e). -/
def whenSound (s : State) (k : Host.Outcome State Fault Refusal) : Host.Outcome State Fault Refusal :=
  if tablesSound s.cfg s.tables then k else .refused .brokenTables

/-- A table operation has no meaning while a save is in progress (U3, R235). -/
def whenIdle (s : State) (k : Host.Outcome State Fault Refusal) : Host.Outcome State Fault Refusal :=
  if s.busy then .refused .tableBusy else k

end Sys2Proof.Machine
end

