-- ==== Sys2Proof/Machine/Flash.lean ====
section
/-! DEFINITION. The flash image region (R111, R268) as a memory of bytes: a list of cells in one canonical form,
addresses strictly rising and no entry equal to what an unlisted address reads as. -/

namespace Sys2Proof.Machine

/-- What a byte that nothing has written reads as: erased, all bits set (R230). Log 15. -/
def erasedByte : Byte := 0xFF

/-- The byte at an address. -/
def Memory.read : List Host.Cell → Nat → Byte
  | [], _ => erasedByte
  | c :: m, a => if c.1 = a then c.2 else Memory.read m a

/-- Writes one byte and keeps the canonical form: the erased value removes the entry. -/
def Memory.write : List Host.Cell → Nat → Byte → List Host.Cell
  | [], a, v => if v = erasedByte then [] else [(a, v)]
  | c :: m, a, v =>
    if c.1 < a then c :: Memory.write m a v
    else if c.1 = a then (if v = erasedByte then m else (a, v) :: m)
    else (if v = erasedByte then c :: m else (a, v) :: c :: m)

/-- The canonical form. -/
def Memory.wf : List Host.Cell → Bool
  | [] => true
  | c :: m => c.2 != erasedByte && m.all (fun d => c.1 < d.1) && Memory.wf m

/-- Writes several bytes, one after another. -/
def Memory.writeAll (m : List Host.Cell) (cells : List Host.Cell) : List Host.Cell :=
  cells.foldl (fun m c => Memory.write m c.1 c.2) m

/-- The byte `n` of a word, byte 0 the least significant. -/
def wordByte (w : Word) (n : Nat) : Byte := w.extractLsb' (8 * n) 8

/-- `FL.read(k)`: word `k` of the region, bytes `4k` to `4k + 3`, least significant first (log 15). -/
def Memory.readWord (m : List Host.Cell) (k : Nat) : Word :=
  Memory.read m (4 * k + 3) ++ Memory.read m (4 * k + 2) ++ Memory.read m (4 * k + 1) ++ Memory.read m (4 * k)

/-- `FL.program(k, w)`: writes word `k`. -/
def Memory.writeWord (m : List Host.Cell) (k : Nat) (w : Word) : List Host.Cell :=
  Memory.writeAll m [(4 * k, wordByte w 0), (4 * k + 1, wordByte w 1), (4 * k + 2, wordByte w 2),
    (4 * k + 3, wordByte w 3)]

/-- Writes consecutive words from word `k` on. -/
def Memory.writeWords : List Host.Cell → Nat → List Word → List Host.Cell
  | m, _, [] => m
  | m, k, w :: ws => Memory.writeWords (Memory.writeWord m k w) (k + 1) ws

/-- `FL.erase()`: every byte below `n` becomes erased. -/
def Memory.erase (m : List Host.Cell) (n : Nat) : List Host.Cell := m.filter fun c => n ≤ c.1

/-- `FL.isErased()`: every byte below `n` has all bits set. -/
def Memory.isErased (m : List Host.Cell) (n : Nat) : Bool := m.all fun c => n ≤ c.1 || c.2 == erasedByte

end Sys2Proof.Machine
end

