-- ==== Sys2Proof/Machine/Float.lean ====
section
/-! DEFINITION. IEEE 754 binary32 with round to nearest even, no flags, no traps (R180), truncation to i32 (R181), and
the SDO gain conversion (R101). Each operation computes exactly in `Nat` and `Int` and rounds once at the end. -/

namespace Sys2Proof.Machine

/-- The sign bit. -/
def f32Neg (a : F32) : Bool := a.getLsbD 31
/-- The exponent field. -/
def f32Exp (a : F32) : Nat := (a.extractLsb' 23 8).toNat
/-- The fraction field. -/
def f32Frac (a : F32) : Nat := (a.extractLsb' 0 23).toNat
/-- A NaN. -/
def f32IsNaN (a : F32) : Bool := f32Exp a = 255 && f32Frac a ≠ 0
/-- An infinity. -/
def f32IsInf (a : F32) : Bool := f32Exp a = 255 && f32Frac a = 0
/-- A zero of either sign. -/
def f32IsZero (a : F32) : Bool := f32Exp a = 0 && f32Frac a = 0
/-- The significand of a finite value: its magnitude is `f32Sig a * 2 ^ f32Scale a`. -/
def f32Sig (a : F32) : Nat := if f32Exp a = 0 then f32Frac a else f32Frac a + 2 ^ 23
/-- The scale of a finite value. -/
def f32Scale (a : F32) : Int := if f32Exp a = 0 then -149 else (f32Exp a : Int) - 150

/-- The bit pattern with a sign and 31 magnitude bits. -/
def f32OfMag (neg : Bool) (mag : Nat) : F32 := BitVec.ofNat 32 (if neg then mag + 2 ^ 31 else mag)

/-- `m / 2 ^ s` rounded to the nearest natural number, a tie to the even one. -/
def roundNearestEven (m s : Nat) : Nat :=
  let n := m / 2 ^ s
  let r := 2 * (m % 2 ^ s)
  if 2 ^ s < r || (r = 2 ^ s && n % 2 = 1) then n + 1 else n

/-- The 31 magnitude bits of the binary32 value nearest to `m * 2 ^ e` (R180): subnormals below `2 ^ -126`, infinity
above the largest finite value. -/
def f32RoundMag (m : Nat) (e : Int) : Nat :=
  if m = 0 then 0
  else
    let q := max ((Nat.log2 m : Int) + e - 23) (-149)
    let n := if q ≤ e then m * 2 ^ (e - q).toNat else roundNearestEven m (q - e).toNat
    min (n + (q + 149).toNat * 2 ^ 23) 0x7F800000

/-- The binary32 value nearest to `k * 2 ^ e`; zero is positive. -/
def f32OfScaled (k e : Int) : F32 := f32OfMag (k < 0) (f32RoundMag k.natAbs e)

/-- `F.ofInt(k)` (R180). -/
def f32OfInt (k : Int) : F32 := f32OfScaled k 0
/-- `F.ofNat(n)` (R180). -/
def f32OfNat (n : Nat) : F32 := f32OfInt n

/-- The quiet NaN of an operation: its sign and payload are free (log 5). -/
def f32NaN (a b : F32) : F32 :=
  let w := Config.nanBits a b
  0x7FC00000#32 ||| (w.extractLsb' 0 22).zeroExtend 32 ||| ((w.extractLsb' 22 1).zeroExtend 32 <<< 31)

/-- The signed significand of a finite value at scale `e`, for `e` not above its own. -/
def f32IntAt (a : F32) (e : Int) : Int :=
  let m : Int := f32Sig a * 2 ^ (f32Scale a - e).toNat
  if f32Neg a then -m else m

/-- `F.add(a, b)` (R180). -/
def f32Add (a b : F32) : F32 :=
  if f32IsNaN a || f32IsNaN b then f32NaN a b
  else if f32IsInf a then (if f32IsInf b && f32Neg a != f32Neg b then f32NaN a b else a)
  else if f32IsInf b then b
  else
    let e := min (f32Scale a) (f32Scale b)
    let k := f32IntAt a e + f32IntAt b e
    if k = 0 then f32OfMag (f32Neg a && f32Neg b) 0 else f32OfScaled k e

/-- `F.mul(a, b)` (R180). -/
def f32Mul (a b : F32) : F32 :=
  let neg := f32Neg a != f32Neg b
  if f32IsNaN a || f32IsNaN b then f32NaN a b
  else if f32IsInf a then (if f32IsZero b then f32NaN a b else f32OfMag neg 0x7F800000)
  else if f32IsInf b then (if f32IsZero a then f32NaN a b else f32OfMag neg 0x7F800000)
  else f32OfMag neg (f32RoundMag (f32Sig a * f32Sig b) (f32Scale a + f32Scale b))

/-- The integer part of `a * 2 ^ k`, toward zero, for a finite `a`. -/
def f32TruncScaled (a : F32) (k : Int) : Int :=
  let e := f32Scale a + k
  let m : Int := if 0 ≤ e then f32Sig a * 2 ^ e.toNat else (f32Sig a / 2 ^ (-e).toNat : Nat)
  if f32Neg a then -m else m

/-- The integer part of `a * 2 ^ k` as an i32, where that is defined: `a` finite and the integer part in the i32 range
(R181 with `k = 0`). -/
def f32TruncI32Scaled (a : F32) (k : Int) : Option Word :=
  if f32Exp a = 255 then none
  else
    let n := f32TruncScaled a k
    if -2 ^ 31 ≤ n ∧ n ≤ 2 ^ 31 - 1 then some (BitVec.ofInt 32 n) else none

/-- `F.truncI32(a)`, where R181 defines it. -/
def f32TruncI32 (a : F32) : Option Word := f32TruncI32Scaled a 0

/-- `a ≤ b` of two values that are no NaN. -/
def f32Le (a b : F32) : Bool :=
  let key (x : F32) : Int := if f32Neg x then -((x.extractLsb' 0 31).toNat : Int) else (x.extractLsb' 0 31).toNat
  !f32IsNaN a && !f32IsNaN b && key a ≤ key b

/-- `gainOf(gainRaw)` (R101): a 16-bit fixed-point number with `SDO_GAIN_FRAC_BITS` fraction bits. -/
def gainOf (c : Cfg) (raw : BitVec 16) : F32 :=
  f32OfScaled (if c.gainSigned then raw.toInt else raw.toNat) (-(c.gainFracBits : Int))

end Sys2Proof.Machine
end

