-- ==== Sys2Proof/Machine/Store.lean ====
section
/-! DEFINITION. The Parameter Store's answers (R267): the declarations of `cfg.params`, the fixture TPS of
spec/95_test_vectors.md section 0, and any other store through the opaque functions of Config. Log 13. -/

namespace Sys2Proof.Machine

/-- The cell of a parameter, if the number is one (U8). -/
def storeCell (c : Cfg) (cells : List Word) (p : Nat) : Option Word := if p < c.paramCount then cells[p]? else none

/-- The cells after a write of one; a number that is no parameter changes nothing (U8). A list of cells that is too short
for a parameter is no store of spec/95_test_vectors.md, so the spec states no cells there: those after the write are
free, though the reply is that of an accepted one (R203). DESIGN CHOICE, log 13. -/
def storePut (c : Cfg) (cells : List Word) (p : Nat) (v : Word) : List Word :=
  if p < c.paramCount then if p < cells.length then cells.set p v else Config.cellsOfNoCell cells p v else cells

/-- `PS.idFromNum(n)`: the declared persistent identifier; free for a number that is no parameter (U8). -/
def storeIdFromNum (c : Cfg) (n : Nat) : Nat :=
  match c.params[n]? with
  | some d => d.pid
  | none => Config.idOfInvalid n

/-- The failure value of `PS.numFromId`: a number not below PARAM_COUNT (R267, U6). -/
def storeMissing (c : Cfg) (pid : Nat) : Nat :=
  match c.store with
  | .fixture => max 0xFFFF c.paramCount
  | .other n => c.paramCount + Config.otherMissing n pid

/-- `PS.numFromId(pid)`: the parameter declared with the identifier, or the failure value. -/
def storeNumFromId (c : Cfg) (pid : Nat) : Nat := (c.params.findIdx? fun d => d.pid == pid).getD (storeMissing c pid)

/-- `PS.getFloat(p)`; none where it is a draw (U8). -/
def storeGetFloat (c : Cfg) (cells : List Word) (p : Nat) : Option F32 :=
  match c.store with
  | .fixture => storeCell c cells p
  | .other n => some (Config.otherGetFloat n cells p)

/-- `PS.getRaw(p)`, a function of the cells and the number: two reads of an unchanged store answer the same (R210). The
fixture's is `trunc(V[p] * 32)` as a u32. Where that is no i32 (V[p] a NaN, an infinity or too large) or V[p] does not
exist, spec/95_test_vectors.md gives no word, and the model takes a free one. DESIGN CHOICE, log 13. -/
def storeGetRaw (c : Cfg) (cells : List Word) (p : Nat) : Word :=
  match c.store with
  | .fixture =>
    match storeCell c cells p with
    | some v => (f32TruncI32Scaled v 5).getD (Config.rawUnstated v)
    | none => Config.rawOfNoCell cells p
  | .other n => Config.otherGetRaw n cells p

/-- `PS.kind(p)`; none where it is a draw (U8). -/
def storeKind (c : Cfg) (p : Nat) : Option ParamKind :=
  match c.params[p]? with
  | some d => some d.kind
  | none =>
    match c.store with
    | .fixture => none
    | .other n => some (Config.otherKind n p)

/-- The cells after `PS.setFixed(p, f)`. -/
def storeSetFixed (c : Cfg) (cells : List Word) (p : Nat) (f : F32) : List Word :=
  match c.store with
  | .fixture => storePut c cells p f
  | .other n => Config.otherSetFixed n cells p f

/-- The cells after `PS.setFloat(p, f)`. -/
def storeSetFloat (c : Cfg) (cells : List Word) (p : Nat) (f : F32) : List Word :=
  match c.store with
  | .fixture => storePut c cells p f
  | .other n => Config.otherSetFloat n cells p f

/-- Whether `PS.setRaw(p, w)` accepts the word. The fixture takes `w / 32` within the declared limits; for a number
without a declaration, which the block never hands over (R203, R205), the answer is free (log 13). -/
def storeAcceptsRaw (c : Cfg) (cells : List Word) (p : Nat) (w : Word) : Bool :=
  match c.store with
  | .fixture =>
    match c.params[p]? with
    | some d => f32Le d.min (f32OfScaled w.toInt (-5)) && f32Le (f32OfScaled w.toInt (-5)) d.max
    | none => Config.acceptsUndeclared p w
  | .other n => Config.otherAcceptsRaw n cells p w

/-- The cells after an accepted `PS.setRaw(p, w)`. -/
def storeSetRaw (c : Cfg) (cells : List Word) (p : Nat) (w : Word) : List Word :=
  match c.store with
  | .fixture => storePut c cells p (f32OfScaled w.toInt (-5))
  | .other n => Config.otherSetRaw n cells p w

end Sys2Proof.Machine
end

