-- ==== Sys2Proof/Machine/Ops.lean ====
section
/-! DEFINITION. The shared operations: draws, port calls (R266 to R269), the acceptance list (R132), external consumers
(R135), and the block's form of taking an exception, the error return (R258). -/

namespace Sys2Proof.Machine

/-- Records a port call (R15). -/
def emit (c : PortCall) (s : State) : State := s.setOut (s.out ++ [c])

/-! ## Draws (R19) -/

/-- Takes a free 32-bit value. -/
def drawWord (s : State) : Word × State := (Config.freeWord s.draws, s.setDraws (s.draws + 1))
/-- Takes a free number. -/
def drawNat (s : State) : Nat × State := (Config.freeNat s.draws, s.setDraws (s.draws + 1))
/-- Takes a free bit. -/
def drawBool (s : State) : Bool × State := (Config.freeBool s.draws, s.setDraws (s.draws + 1))

/-- A 32-bit value if it is given, a free one otherwise. -/
def wordOrDraw (v : Option Word) (s : State) : Word × State :=
  match v with
  | some w => (w, s)
  | none => drawWord s

/-! ## Outcomes (R14) -/

/-- An operation ends with a result value. -/
def finish (r : Result) (s : State) : Host.Outcome State Fault Refusal := .next (s.setResult r)

/-- Error return, the block's form of trap entry (R258): the code is the result, and every state variable is what it
was. There is no handler and no return from one (R259). -/
def errorReturn (e : ErrCode) (s : State) : Host.Outcome State Fault Refusal := finish (.error e) s

/-! ## Bus Transport (R266) -/

/-- `BT.send(id, lo, hi)`. -/
def btSend (id : Ident) (t : Payload) (s : State) : State := emit (.btSend id t.lo t.hi) s

/-- `BT.configureFilter(list)`; the shadow keeps the list (R23). -/
def btConfigureFilter (ids : List Ident) (s : State) : State := emit (.btConfigureFilter ids) (s.setFilter ids)

/-- ADD_IOI's transition (R132), which ADD, MAP_CLEARED, LOAD and external consumers call too. -/
def addIdent (id : Ident) (s : State) : Bool × State :=
  if s.ioi.contains id then (false, s)
  else if s.cfg.maxIoi ≤ s.ioi.length then (false, s)
  else (true, btConfigureFilter (s.ioi ++ [id]) (s.setIoi (s.ioi ++ [id])))

/-- ADD_IOI of several identifiers in order, results ignored (R187, R234). -/
def addIdents : List Ident → State → State
  | [], s => s
  | id :: ids, s => addIdents ids (addIdent id s).2

/-! ## Parameter Store (R267)

A read and a query leave every cell as it was, in every store: R69 (d) says only that the source does not say that reading
a parameter has a side effect. DESIGN CHOICE, log 13. -/

/-- `PS.getFloat(p)`; it changes no cell (DESIGN CHOICE, log 13). -/
def psGetFloat (p : Nat) (s : State) : F32 × State :=
  wordOrDraw (storeGetFloat s.cfg s.store p) (emit (.psGetFloat p) s)

/-- `PS.getRaw(p)`; it changes no cell (DESIGN CHOICE, log 13). -/
def psGetRaw (p : Nat) (s : State) : Word × State := (storeGetRaw s.cfg s.store p, emit (.psGetRaw p) s)

/-- `PS.kind(p)`. -/
def psKind (p : Nat) (s : State) : ParamKind × State :=
  let s1 := emit (.psKind p) s
  match storeKind s.cfg p with
  | some k => (k, s1)
  | none =>
    let r := drawBool s1
    (if r.1 then .fixed else .float, r.2)

/-- `PS.setFromFloat(p, f)` (R267): through the path of the parameter's declared kind; the store's answer is dropped
(R182, D40). -/
def psSetFromFloat (p : Nat) (f : F32) (s : State) : State :=
  let r := psKind p s
  match r.1 with
  | .fixed => emit (.psSetFixed p f) (r.2.setStore (storeSetFixed s.cfg s.store p f))
  | .float => emit (.psSetFloat p f) (r.2.setStore (storeSetFloat s.cfg s.store p f))

/-- `PS.setRaw(p, w)`: true is `OK`; on `OUT_OF_RANGE` the parameter is unchanged (R203), and here every cell, log 13. -/
def psSetRaw (p : Nat) (w : Word) (s : State) : Bool × State :=
  let s1 := emit (.psSetRaw p w) s
  if storeAcceptsRaw s.cfg s.store p w then (true, s1.setStore (storeSetRaw s.cfg s.store p w)) else (false, s1)

/-- `PS.idFromNum(n)`. -/
def psIdFromNum (n : Nat) (s : State) : Nat × State := (storeIdFromNum s.cfg n, emit (.psIdFromNum n) s)

/-- `PS.numFromId(pid)`. -/
def psNumFromId (pid : Nat) (s : State) : Nat × State := (storeNumFromId s.cfg pid, emit (.psNumFromId pid) s)

/-! ## External consumers (R135, D21) -/

/-- What an external consumer does outside the block (R135): the store has drawn cells, and drawn bytes of the flash are
written (log 16). -/
def extOutside (s : State) : State :=
  ((s.setStore (Config.freeWords s.draws)).setFlash (Memory.writeAll s.flash (Config.freeCells s.draws))).setDraws
    (s.draws + 1)

/-- `C.rx(id, B)` of an external consumer: a drawn answer, a drawn buffer, and anything outside the block. -/
def extRx (n : Nat) (id : Ident) (b : Payload) (s : State) : Bool × Payload × State :=
  let r := drawBool (emit (.extRx n id b) s)
  let lo := drawWord r.2
  let hi := drawWord lo.2
  (r.1, ⟨lo.1, hi.1⟩, extOutside hi.2)

/-- ADD_IOI of `k` drawn identifiers. -/
def addDrawnIdents : Nat → State → State
  | 0, s => s
  | k + 1, s =>
    let r := drawWord s
    addDrawnIdents k (addIdent r.1 r.2).2

/-- `C.cleared()` of an external consumer: a drawn number of ADD_IOI with drawn identifiers, and anything outside the
block (log 16). -/
def extCleared (n : Nat) (s : State) : State :=
  let r := drawNat (emit (.extCleared n) s)
  addDrawnIdents r.1 (extOutside r.2)

end Sys2Proof.Machine
end

