-- ==== Sys2Proof/Machine/Codec.lean ====
section
/-! DEFINITION. The Bit Codec: UNPACK and PACK (R180 to R184). -/

namespace Sys2Proof.Machine

/-- Reads slot `j`. The fields of a free slot are draws (U2): nothing is known of them. -/
def readSlot (j : Nat) (s : State) : Slot × State :=
  if slotUsed (slotAt s.tables j) then (slotAt s.tables j, s)
  else
    let p := drawNat s
    let k := drawWord p.2
    let g := drawWord k.2
    let o := drawWord g.2
    let w := drawWord o.2
    ({ param := s.cfg.cutRef p.1, offset := k.1, gain := g.1, bitOff := o.1.extractLsb' 0 8, bitW := w.1.extractLsb' 0 8,
       next := .freeMark }, w.2)

/-- UNPACK's value (R182): `(F.ofNat(field) + F.ofInt(offset)) * gain`, in that order. -/
def unpackValue (b : Slot) (buf : Payload) : F32 :=
  f32Mul (f32Add (f32OfNat (extractField (fieldWord buf b) (fieldShift b) b.bitW.toNat).toNat)
    (f32OfInt b.offset.toInt)) b.gain

/-- UNPACK of a binding (R182): a straddling one writes a draw (R66). -/
def unpackSlot (buf : Payload) (b : Slot) (s : State) : State :=
  if straddling b then
    let r := drawWord s
    psSetFromFloat b.param r.1 r.2
  else psSetFromFloat b.param (unpackValue b buf) s

/-- UNPACK `B`, `j` (R182). -/
def unpackAt (buf : Payload) (j : Nat) (s : State) : State :=
  let r := readSlot j s
  unpackSlot buf r.1 r.2

/-- UNPACK of every slot of a chain, in chain order (R186). -/
def unpackChain (buf : Payload) : List Nat → State → State
  | [], s => s
  | j :: js, s => unpackChain buf js (unpackAt buf j s)

/-- PACK's scaled value `(v + F.ofInt(offset)) * gain` (R183). -/
def packScaled (b : Slot) (v : F32) : F32 := f32Mul (f32Add v (f32OfInt b.offset.toInt)) b.gain

/-- PACK of a binding (R183): a straddling one ORs a draw into each word (R66); a value that R181 does not truncate is
a draw (U7). -/
def packSlot (t : Payload) (b : Slot) (s : State) : Payload × State :=
  if straddling b then
    let lo := drawWord s
    let hi := drawWord lo.2
    (⟨t.lo ||| lo.1, t.hi ||| hi.1⟩, hi.2)
  else
    let v := psGetFloat b.param s
    let n := wordOrDraw (f32TruncI32 (packScaled b v.1)) v.2
    (insertInto t b n.1, n.2)

/-- PACK `T`, `j` (R183). -/
def packAt (t : Payload) (j : Nat) (s : State) : Payload × State :=
  let r := readSlot j s
  packSlot t r.1 r.2

/-- PACK of every slot of a chain, in chain order (R189). -/
def packChain : List Nat → Payload → State → Payload × State
  | [], t, s => (t, s)
  | j :: js, t, s =>
    let r := packAt t j s
    packChain js r.1 r.2

/-- UNPACK as an operation of its own (R182). -/
def execUnpack (buf : Payload) (j : Word) (s : State) : Host.Outcome State Fault Refusal :=
  whenSound s (if j.toNat < s.cfg.maxItems then finish .none (unpackAt buf j.toNat s) else .fault .noSuchSlot)

/-- PACK as an operation of its own (R183). -/
def execPack (t : Payload) (j : Word) (s : State) : Host.Outcome State Fault Refusal :=
  whenSound s (if j.toNat < s.cfg.maxItems then
    (let r := packAt t j.toNat s
    finish (.frame r.1) r.2)
  else .fault .noSuchSlot)

end Sys2Proof.Machine
end

