-- ==== Sys2Proof/Machine/Mapping.lean ====
section
/-! DEFINITION. ADD, REMOVE, FIND_FIRST, FOR_EACH (R155 to R159). -/

namespace Sys2Proof.Machine

/-- The binding that ADD stores, with its link END (R155) and its reference at the field's width (R30). -/
def newBinding (c : Cfg) (p : Nat) (o w : Byte) (g : F32) (k : Word) : Slot :=
  { param := c.cutRef p, offset := k, gain := g, bitOff := o, bitW := w, next := .endMark }

/-- ADD's transition (R155), which the SDO mapping classes call too: the checks in the order of R256, then the
allocations, then for a receive binding the registration, whose result is ignored (D16). -/
def addBinding (d : Dir) (p : Nat) (id : Ident) (o w : Byte) (g : F32) (k : Word) (s : State) :
    Except ErrCode (Nat × State) :=
  if 0x1FFFFFFF < id.toNat then .error .invalidId
  else if 63 < o.toNat then .error .invalidOffset
  else if 32 < w.toNat then .error .invalidLength
  else
    match linkBinding s.tables d id (newBinding s.cfg p o w g k) with
    | .error e => .error e
    | .ok t =>
      let s1 := s.setTables t
      .ok (usedCount t d, match d with | .recv => (addIdent id s1).2 | .send => s1)

/-- ADD (R155). -/
def execAdd (d : Dir) (p : Nat) (id : Ident) (o w : Byte) (g : F32) (k : Word) (s : State) :
    Host.Outcome State Fault Refusal :=
  whenSound s (whenIdle s
    (match addBinding d p id o w g k s with
    | .ok r => finish (.count r.1) r.2
    | .error e => errorReturn e s))

/-- REMOVE (R157): `ioi` and the filter are not touched (R48). -/
def execRemove (p : Nat) (s : State) : Host.Outcome State Fault Refusal :=
  whenSound s (whenIdle s
    (let r := removeBindings p s.tables
    finish (.removed r.1) (s.setTables r.2)))

/-- FIND_FIRST (R158). -/
def execFindFirst (p : Nat) (s : State) : Host.Outcome State Fault Refusal :=
  whenSound s (whenIdle s (finish
    (match (allBindings s.tables).find? fun x => x.2.2.param == p with
    | some (d, id, b) => .found id b.bitOff b.bitW b.gain d
    | none => .notFound) s))

/-- One call of a visitor (R159, D32), which does nothing itself (log 23). -/
def visitCall (v : Visitor) (x : Dir × Ident × Slot) : PortCall :=
  .visit v x.1 x.2.1 x.2.2.param x.2.2.bitOff x.2.2.bitW x.2.2.gain x.2.2.offset

/-- FOR_EACH (R159). A visitor's call is recorded and the visitor does nothing itself: R159 (b) and R295 forbid it only
the operations that write the tables, and the rest they leave open. DESIGN CHOICE, log 23. -/
def execForEach (v : Visitor) (s : State) : Host.Outcome State Fault Refusal :=
  whenSound s (whenIdle s (finish .none (s.setOut (s.out ++ (allBindings s.tables).map (visitCall v)))))

end Sys2Proof.Machine
end

