-- ==== Sys2Proof/Machine/Sdo.lean ====
section
/-! DEFINITION. The Remote Configuration Protocol handler: SDO_PROCESS and the request classes (R200 to R213). -/

namespace Sys2Proof.Machine

/-! ## Replies (R95, R102, R251) -/

/-- A write-reply: the command byte, and nothing else (R203). -/
def sdoWriteReply (b : Payload) : Payload := memWrite b 0 1 0x23

/-- A read-reply: the data, then the command byte (R202). -/
def sdoReadReply (b : Payload) (w : Word) : Payload := memWrite (memWrite b 4 4 w.toNat) 0 1 0x43

/-- An abort reply: the command byte, then the abort code of the condition (R251). -/
def sdoAbort (e : ErrCode) (b : Payload) : Payload := memWrite (memWrite b 0 1 0x80) 4 4 (abortCode e)

/-! ## What each class does with the buffer and the state -/

/-- SDO_PRM_RD (R202). -/
def sdoPrmRd (b : Payload) (s : State) : Payload × State :=
  let r := psGetRaw (memRead b 3 1) s
  (sdoReadReply b r.1, r.2)

/-- A validated raw write and its reply (R203, R205). -/
def sdoWriteRaw (p : Nat) (b : Payload) (s : State) : Payload × State :=
  let r := psSetRaw p (BitVec.ofNat 32 (memRead b 4 4)) s
  (if r.1 then sdoWriteReply b else sdoAbort .valueRange b, r.2)

/-- SDO_PRM_WR (R203). -/
def sdoPrmWr (b : Payload) (s : State) : Payload × State := sdoWriteRaw (memRead b 3 1) b s

/-- SDO_PID_RD (R204). -/
def sdoPidRd (b : Payload) (s : State) : Payload × State :=
  let p := psNumFromId (memRead b 3 1) s
  if p.1 < s.cfg.paramCount then
    let r := psGetRaw p.1 p.2
    (sdoReadReply b r.1, r.2)
  else (sdoAbort .invalidIndex b, p.2)

/-- SDO_PID_WR (R205). -/
def sdoPidWr (b : Payload) (s : State) : Payload × State :=
  let p := psNumFromId (memRead b 3 1) s
  if p.1 < s.cfg.paramCount then sdoWriteRaw p.1 b p.2 else (sdoAbort .invalidIndex b, p.2)

/-- SDO_MAP_TX and SDO_MAP_RX (R206, R207): ADD with offset 0 (D24); every ADD error becomes one abort code. -/
def sdoMap (d : Dir) (b : Payload) (s : State) : Payload × State :=
  match addBinding d b.sub.toNat (b.mapIdent.zeroExtend 32) b.mapBitOff b.mapBitW (gainOf s.cfg b.mapGainRaw) 0 s with
  | .ok r => (sdoWriteReply b, r.2)
  | .error e => (sdoAbort e b, s)

/-- SDO_ECHO (R208): nothing is written. -/
def sdoEcho (b : Payload) (s : State) : Payload × State := (b, s)

/-- SDO_INVIDX (R209). -/
def sdoInvIdx (b : Payload) (s : State) : Payload × State := (sdoAbort .invalidIndex b, s)

/-- A class's action (R200). -/
def sdoAct : SdoClass → Payload → State → Payload × State
  | .prmWr => sdoPrmWr
  | .prmRd => sdoPrmRd
  | .pidWr => sdoPidWr
  | .pidRd => sdoPidRd
  | .mapTx => sdoMap .send
  | .mapRx => sdoMap .recv
  | .echo => sdoEcho
  | .invIdx => sdoInvIdx

/-- The class's action, then the one reply (R201): the buffer's two words on `0x580 + NODE_ID`. -/
def sdoServe (k : SdoClass) (b : Payload) (s : State) : Payload × State :=
  let r := sdoAct k b s
  (r.1, btSend (BitVec.ofNat 32 s.cfg.replyId) r.1 r.2)

/-- A mapping request while a save is in progress has no meaning (U3, R206 g, R211). -/
def sdoBlocked (k : SdoClass) (s : State) : Bool := (k == .mapTx || k == .mapRx) && s.busy

/-- SDO_PROCESS `B` (R200). -/
def sdoProcess (b : Payload) (s : State) : Except Refusal (Payload × State) :=
  if sdoBlocked (sdoClass s.cfg b) s then .error .tableBusy else .ok (sdoServe (sdoClass s.cfg b) b s)

/-- One request of a known class, as an operation of its own; its result is the caller's buffer. -/
def sdoRun (k : SdoClass) (b : Payload) (s : State) : Host.Outcome State Fault Refusal :=
  whenSound s
    (if sdoBlocked k s then .refused .tableBusy
    else
      let r := sdoServe k b s
      finish (.buffer r.1) r.2)

/-- SDO_PRM_WR (R203). -/
def execSdoPrmWr (sub : Byte) (data : Word) (s : State) : Host.Outcome State Fault Refusal :=
  sdoRun .prmWr (requestPayload (.sdoPrmWr sub data)) s

/-- SDO_PRM_RD (R202). -/
def execSdoPrmRd (sub : Byte) (data : Word) (s : State) : Host.Outcome State Fault Refusal :=
  sdoRun .prmRd (requestPayload (.sdoPrmRd sub data)) s

/-- SDO_PID_WR (R205). -/
def execSdoPidWr (sub : Byte) (data : Word) (s : State) : Host.Outcome State Fault Refusal :=
  sdoRun .pidWr (requestPayload (.sdoPidWr sub data)) s

/-- SDO_PID_RD (R204). -/
def execSdoPidRd (sub : Byte) (data : Word) (s : State) : Host.Outcome State Fault Refusal :=
  sdoRun .pidRd (requestPayload (.sdoPidRd sub data)) s

/-- SDO_MAP_TX (R206). -/
def execSdoMapTx (second : BitVec 1) (ident : BitVec 11) (sub o w : Byte) (g : BitVec 16) (s : State) :
    Host.Outcome State Fault Refusal :=
  sdoRun .mapTx (requestPayload (.sdoMapTx second ident sub o w g)) s

/-- SDO_MAP_RX (R207). -/
def execSdoMapRx (ident : BitVec 11) (sub o w : Byte) (g : BitVec 16) (s : State) :
    Host.Outcome State Fault Refusal :=
  sdoRun .mapRx (requestPayload (.sdoMapRx ident sub o w g)) s

/-- SDO_ECHO on a parameter index (R208). -/
def execSdoEchoPrm (pid : BitVec 1) (cmd sub : Byte) (data : Word) (s : State) : Host.Outcome State Fault Refusal :=
  sdoRun .echo (requestPayload (.sdoEchoPrm pid cmd sub data)) s

/-- SDO_ECHO on a send mapping index (R208). -/
def execSdoEchoMapTx (low : BitVec 12) (cmd sub : Byte) (data : Word) (s : State) :
    Host.Outcome State Fault Refusal :=
  sdoRun .echo (requestPayload (.sdoEchoMapTx low cmd sub data)) s

/-- SDO_ECHO on a receive mapping index (R208). -/
def execSdoEchoMapRx (low : BitVec 11) (cmd sub : Byte) (data : Word) (s : State) :
    Host.Outcome State Fault Refusal :=
  sdoRun .echo (requestPayload (.sdoEchoMapRx low cmd sub data)) s

/-- SDO_INVIDX (R209). -/
def execSdoInvIdx (cmd : Byte) (index : BitVec 16) (sub : Byte) (data : Word) (s : State) :
    Host.Outcome State Fault Refusal :=
  sdoRun .invIdx (requestPayload (.sdoInvIdx cmd index sub data)) s

end Sys2Proof.Machine
end

