-- ==== Sys2Proof/Machine/MapConsumer.lean ====
section
/-! DEFINITION. The mapping consumer's two handlers, MAP_RX and MAP_CLEARED, and the send sweep (R186 to R189). -/

namespace Sys2Proof.Machine

/-- MAP_RX's transition (R186): the SDO test, then the gate, then the mapped frame. -/
def mapRx (id : Ident) (b : Payload) (s : State) : Except Refusal (Bool × Payload × State) :=
  if id.toNat = s.cfg.requestId then
    match sdoProcess b s with
    | .ok r => .ok (true, r.1, r.2)
    | .error e => .error e
  else if s.busy then .ok (false, b, s)
  else
    match findEntry s.tables .recv id with
    | none => .ok (false, b, s)
    | some e => .ok (true, b, unpackChain b (chain s.tables (entryAt s.tables .recv e).head) s)

/-- MAP_CLEARED's transition (R187): the SDO request identifier, then the used receive entries in table order. -/
def mapCleared (s : State) : State := addIdents (BitVec.ofNat 32 s.cfg.requestId :: recvIds s.tables) s

/-- One frame for each used entry of a list, in order (R189). -/
def sweepEntries : List Entry → State → State
  | [], s => s
  | e :: es, s =>
    if entryUsed e then
      let r := packChain (chain s.tables e.head) ⟨0, 0⟩ s
      sweepEntries es (btSend e.id r.1 r.2)
    else sweepEntries es s

/-- MAP_RX as an operation of its own (R186). -/
def execMapRx (id : Ident) (b : Payload) (s : State) : Host.Outcome State Fault Refusal :=
  whenSound s
    (match mapRx id b s with
    | .ok r => finish (.claimed r.1 r.2.1) r.2.2
    | .error e => .refused e)

/-- MAP_CLEARED as an operation of its own (R187). -/
def execMapCleared (s : State) : Host.Outcome State Fault Refusal := whenSound s (finish .none (mapCleared s))

/-- SEND_SWEEP (R189): nothing is sent while the gate is closed. -/
def execSendSweep (s : State) : Host.Outcome State Fault Refusal :=
  whenSound s (finish .none (if s.busy then s else sweepEntries s.tables.send s))

end Sys2Proof.Machine
end

