-- ==== Sys2Proof/Machine/Dispatcher.lean ====
section
/-! DEFINITION. The Message Dispatcher: REGISTER, ADD_IOI, CLEAR_IOI, DISPATCH (R130 to R136), and CLEAR (R160), which
ends in CLEAR_IOI. -/

namespace Sys2Proof.Machine

/-- REGISTER (R131). -/
def execRegister (h : Consumer) (s : State) : Host.Outcome State Fault Refusal :=
  whenSound s
    (if s.cfg.maxConsumers ≤ s.cons.length then finish (.bool false) s
    else finish (.bool true) (s.setCons (s.cons ++ [h])))

/-- ADD_IOI (R132). -/
def execAddIoi (id : Ident) (s : State) : Host.Outcome State Fault Refusal :=
  whenSound s
    (let r := addIdent id s
    finish (.bool r.1) r.2)

/-- `cons[k].cleared()` for each consumer in registration order (R133, D18). -/
def notifyCleared : List Consumer → State → State
  | [], s => s
  | .mapping :: cs, s => notifyCleared cs (mapCleared s)
  | .ext n :: cs, s => notifyCleared cs (extCleared n s)

/-- CLEAR_IOI's transition (R133). -/
def clearIdents (s : State) : State := notifyCleared s.cons (btConfigureFilter [] (s.setIoi []))

/-- CLEAR_IOI (R133). It runs while `busy = 1` too, as R235 admits (log 11). -/
def execClearIoi (s : State) : Host.Outcome State Fault Refusal := whenSound s (finish .none (clearIdents s))

/-- DISPATCH's loop (R134): the consumers in registration order until one claims the frame. -/
def offerFrame : List Consumer → Ident → Payload → State → Except Refusal (Payload × State)
  | [], _, b, s => .ok (b, s)
  | .mapping :: cs, id, b, s =>
    match mapRx id b s with
    | .error e => .error e
    | .ok (true, b1, s1) => .ok (b1, s1)
    | .ok (false, b1, s1) => offerFrame cs id b1 s1
  | .ext n :: cs, id, b, s =>
    match extRx n id b s with
    | (true, b1, s1) => .ok (b1, s1)
    | (false, b1, s1) => offerFrame cs id b1 s1

/-- DISPATCH (R134): its result is the caller's buffer as the handlers leave it. -/
def execDispatch (id : Ident) (b : Payload) (s : State) : Host.Outcome State Fault Refusal :=
  whenSound s
    (match offerFrame s.cons id b s with
    | .ok r => finish (.buffer r.1) r.2
    | .error e => .refused e)

/-- CLEAR (R160): the tables first, then CLEAR_IOI. -/
def execClear (s : State) : Host.Outcome State Fault Refusal :=
  whenSound s (whenIdle s (finish .none (clearIdents (s.setTables (clearTables s.tables)))))

end Sys2Proof.Machine
end

