-- ==== Sys2Proof/Machine/Persistence.lean ====
section
/-! DEFINITION. The persistence port: SAVE_BEGIN, the writing phase, SAVE_END, LOAD (R230 to R237), and the image
(R111). -/

namespace Sys2Proof.Machine

/-! ## The image (R111): the order of its parts is fixed; IMG_LAYOUT and CKSUM are parameters (D36) -/

/-- How many 32-bit words hold a number of so many bits. -/
def wordsFor (bits : Nat) : Nat := (bits + 31) / 32

/-- The 32-bit digits of a number, least significant first. -/
def digits32 (k n : Nat) : List Word := (List.range k).map fun i => BitVec.ofNat 32 (n / 2 ^ (32 * i))

/-- The number that 32-bit digits stand for, least significant first. -/
def ofDigits32 : List Word → Nat
  | [] => 0
  | w :: ws => w.toNat + 2 ^ 32 * ofDigits32 ws

/-! ### One item in the plain layout (log 14) -/

/-- Words of a parameter reference in the plain layout: enough for PARAM_REF_BITS. -/
def refWords (c : Cfg) : Nat := wordsFor c.paramRefBits

/-- Words of a link in the plain layout: enough for LINK_BITS. -/
def linkWords (c : Cfg) : Nat := wordsFor c.linkBits

/-- Words of one entry in the plain layout: the identifier and the head. -/
def entryWords (c : Cfg) : Nat := 1 + linkWords c

/-- How many draws the words of a free slot take in the plain layout: all its words but the link's. -/
def slotDraws (c : Cfg) : Nat := refWords c + 3

/-- Words of one slot in the plain layout: reference, offset, gain, bit position and width, link. -/
def slotWords (c : Cfg) : Nat := slotDraws c + linkWords c

/-- The words of an entry in the plain layout; the identifier of a free one is draw `n` (R46, U2). -/
def plainEntry (c : Cfg) (n : Nat) (e : Entry) : List Word :=
  (if entryUsed e then e.id else Config.freeWord n) :: digits32 (linkWords c) (linkNum c e.head)

/-- The words of a slot in the plain layout; the fields of a free one are the draws from number `n` on (R46, U2). -/
def plainSlot (c : Cfg) (n : Nat) (b : Slot) : List Word :=
  (if slotUsed b then digits32 (refWords c) b.param ++ [b.offset, b.gain, 0#16 ++ b.bitW ++ b.bitOff]
  else (List.range (slotDraws c)).map fun i => Config.freeWord (n + i)) ++ digits32 (linkWords c) (linkNum c b.next)

/-- The entry that its words stand for in the plain layout; the identifier is the whole word, above 0x1FFFFFFF too
(DESIGN CHOICE, log 24). -/
def plainDeEntry (c : Cfg) (ws : List Word) : Entry :=
  { id := ws.getD 0 0, head := linkOfNum c (ofDigits32 (ws.drop 1)) }

/-- The slot that its words stand for in the plain layout. -/
def plainDeSlot (c : Cfg) (ws : List Word) : Slot :=
  let k := refWords c
  { param := ofDigits32 (ws.take k), offset := ws.getD k 0, gain := ws.getD (k + 1) 0,
    bitOff := (ws.getD (k + 2) 0).extractLsb' 0 8, bitW := (ws.getD (k + 2) 0).extractLsb' 8 8,
    next := linkOfNum c (ofDigits32 (ws.drop (slotDraws c))) }

/-- The words of item `i`, with `size` words for each item. -/
def itemWords (ws : List Word) (size i : Nat) : List Word := (ws.drop (size * i)).take size

/-! ### The three regions -/

/-- Words of the region of a direction's entries. -/
def tableWords (c : Cfg) (d : Dir) : Nat :=
  match c.image with
  | .plain => c.maxMessages * entryWords c
  | .other m => Config.otherTableWords m c.imageShape d

/-- Words of the region of the pool. -/
def poolWords (c : Cfg) : Nat :=
  match c.image with
  | .plain => c.maxItems * slotWords c
  | .other m => Config.otherPoolWords m c.imageShape

/-- An entry as another layout is given it: a free one has its don't-care field cleared and draw `n` in its place, a used
one has no draw (R46, U2). -/
def entryForImage (n : Nat) (e : Entry) : Entry × Nat :=
  if entryUsed e then (e, 0) else ({ e with id := 0 }, Config.freeNat n)

/-- A slot as another layout is given it: a free one has its don't-care fields cleared and draw `n` in their place, a
used one has no draw (R46, U2). -/
def slotForImage (n : Nat) (b : Slot) : Slot × Nat :=
  if slotUsed b then (b, 0)
  else ({ param := 0, offset := 0, gain := 0, bitOff := 0, bitW := 0, next := b.next }, Config.freeNat n)

/-- The region of a direction's entries; the draws of its free entries are the numbers from `n` on. -/
def serTable (c : Cfg) (d : Dir) (n : Nat) (es : List Entry) : List Word :=
  match c.image with
  | .plain => (es.mapIdx fun i e => plainEntry c (n + i) e).flatten
  | .other m =>
    let items := es.mapIdx fun i e => entryForImage (n + i) e
    (List.range (tableWords c d)).map (Config.otherSerTable m c.imageShape d items)

/-- The region of the pool; the draws of its free slots are the numbers from `n` on. -/
def serPool (c : Cfg) (n : Nat) (bs : List Slot) : List Word :=
  match c.image with
  | .plain => (bs.mapIdx fun j b => plainSlot c (n + slotDraws c * j) b).flatten
  | .other m =>
    let items := bs.mapIdx fun j b => slotForImage (n + slotDraws c * j) b
    (List.range (poolWords c)).map (Config.otherSerPool m c.imageShape items)

/-- Entry `i` that the words of a direction's region stand for. -/
def deEntry (c : Cfg) (d : Dir) (ws : List Word) (i : Nat) : Entry :=
  match c.image with
  | .plain => plainDeEntry c (itemWords ws (entryWords c) i)
  | .other m => Config.otherDeTable m c.imageShape d ws i

/-- Slot `j` that the words of the pool's region stand for; its reference has the field's width (R30). -/
def deSlot (c : Cfg) (ws : List Word) (j : Nat) : Slot :=
  let b : Slot :=
    match c.image with
    | .plain => plainDeSlot c (itemWords ws (slotWords c) j)
    | .other m => Config.otherDePool m c.imageShape ws j
  { b with param := c.cutRef b.param }

/-! ### The image -/

/-- `|W|`: the number of image words before the checksum. -/
def imageWords (c : Cfg) : Nat := tableWords c .send + (tableWords c .recv + poolWords c)

/-- `ser` (R111), whatever the layout of the regions: the send table, the receive table, the pool. It is a function of
the tables but for the words of free items, which are draws from number `n` on (R46, R232). -/
def imageSer (c : Cfg) (t : Tables) (n : Nat) : List Word :=
  serTable c .send n t.send ++ (serTable c .recv (n + c.maxMessages) t.recv ++ serPool c (n + 2 * c.maxMessages) t.pool)

/-- How many draws `ser` takes. -/
def imageDraws (c : Cfg) : Nat := 2 * c.maxMessages + slotDraws c * c.maxItems

/-- `de` (R111): tables of the configured capacities, from the three regions in their fixed order. -/
def imageDe (c : Cfg) (ws : List Word) : Tables :=
  let afterSend := ws.drop (tableWords c .send)
  { send := (List.range c.maxMessages).map (deEntry c .send (ws.take (tableWords c .send)))
    recv := (List.range c.maxMessages).map (deEntry c .recv (afterSend.take (tableWords c .recv)))
    pool := (List.range c.maxItems).map (deSlot c (afterSend.drop (tableWords c .recv))) }

/-- `CKSUM.init` (R268). -/
def cksumInit (c : Cfg) : Word :=
  match c.image with
  | .plain => 0
  | .other n => Config.otherCksumInit n

/-- `CKSUM.step` (R268). The plain one is a wrapping sum. -/
def cksumStep (c : Cfg) (a w : Word) : Word :=
  match c.image with
  | .plain => a + w
  | .other n => Config.otherCksumStep n a w

/-- `CKSUM.of(W)` (R268). -/
def cksumOf (c : Cfg) (ws : List Word) : Word := ws.foldl (cksumStep c) (cksumInit c)

/-- Bytes of the image region with its checksum word. -/
def imageBytes (c : Cfg) : Nat := 4 * (imageWords c + 1)

/-- The build-time check: the image fits one erase unit (R9 a, R299). -/
def imageFits (c : Cfg) : Bool := imageBytes c ≤ c.eraseUnitBytes

/-- The image words as the flash holds them. -/
def storedWords (c : Cfg) (m : List Host.Cell) : List Word := (List.range (imageWords c)).map (Memory.readWord m)

/-- The checksum word as the flash holds it. -/
def storedCksum (c : Cfg) (m : List Host.Cell) : Word := Memory.readWord m (imageWords c)

/-! ## The parameter-reference remap (R41, R236) -/

/-- Rewrites the parameter reference of every used slot, in index order, through a call of the store; the field keeps
PARAM_REF_BITS of the answer (R30). -/
def remapSlots (f : Nat → State → Nat × State) : List Slot → State → List Slot × State
  | [], s => ([], s)
  | b :: bs, s =>
    if slotUsed b then
      let r := f b.param s
      let rest := remapSlots f bs r.2
      ({ b with param := s.cfg.cutRef r.1 } :: rest.1, rest.2)
    else
      let rest := remapSlots f bs s
      (b :: rest.1, rest.2)

/-- The remap of the whole pool. -/
def remapPool (f : Nat → State → Nat × State) (s : State) : State :=
  let r := remapSlots f s.tables.pool s
  r.2.setTables { s.tables with pool := r.1 }

/-! ## Operations -/

/-- `if not FL.isErased() then FL.erase()` (R231). -/
def eraseIfNeeded (s : State) : State :=
  let s1 := emit .flIsErased s
  if Memory.isErased s.flash (imageBytes s.cfg) then s1
  else emit .flErase (s1.setFlash (Memory.erase s.flash s.cfg.eraseUnitBytes))

/-- SAVE_BEGIN (R231). -/
def execSaveBegin (s : State) : Host.Outcome State Fault Refusal :=
  whenSound s
    (if s.busy then .refused .saveActive
    else finish .none (remapPool psIdFromNum (eraseIfNeeded (closeGate s))))

/-- SAVE_END (R233). -/
def execSaveEnd (s : State) : Host.Outcome State Fault Refusal :=
  whenSound s (if s.busy then finish .none (openGate (remapPool psNumFromId s)) else .refused .noSave)

/-- The `FL.program` calls of the writing phase, from word `k` on. -/
def programCalls : Nat → List Word → List PortCall
  | _, [] => []
  | k, w :: ws => .flProgram k w :: programCalls (k + 1) ws

/-- SAVE_WRITE (R232): the image words and then the checksum word; no state of the block is written. -/
def saveWrite (s : State) : Host.Outcome State Fault Refusal :=
  whenSound s
    (if s.busy then
      (if imageFits s.cfg then
        let ws := imageSer s.cfg s.tables s.draws
        let all := ws ++ [cksumOf s.cfg ws]
        finish .none (((s.setDraws (s.draws + imageDraws s.cfg)).setFlash
          (Memory.writeWords s.flash 0 all)).setOut (s.out ++ programCalls 0 all))
      else .fault .imageOutsideUnit)
    else .refused .noSave)

/-- The reads of LOAD: the image words, then the checksum word (R234). -/
def readImage (s : State) : State := s.setOut (s.out ++ (List.range (imageWords s.cfg + 1)).map .flRead)

/-- LOAD's tables, remap and registration, once the checksum matched (R234). -/
def installImage (s : State) : State :=
  let s1 := remapPool psNumFromId (s.setTables (imageDe s.cfg (storedWords s.cfg s.flash)))
  addIdents (recvIds s1.tables) s1

/-- LOAD (R234): a mismatch leaves the tables as they are and answers false. The identifiers of a loaded image are not
checked against the bound of R25 (DESIGN CHOICE, log 24). -/
def execLoad (s : State) : Host.Outcome State Fault Refusal :=
  whenSound s (whenIdle s
    (if tablesEmpty s.tables then
      (if imageFits s.cfg then
        let s1 := readImage s
        .next (if cksumOf s.cfg (storedWords s.cfg s.flash) = storedCksum s.cfg s.flash
          then (installImage s1).setResult (.bool true) else s1.setResult (.bool false))
      else .fault .imageOutsideUnit)
    else .refused .loadNotAtReset))

/-! ## Events from outside -/

/-- The device starts again (R280, R282): the reset state under the parameters of the build, with the flash as it was; the
model's own record goes on. -/
def restart (c : Cfg) (cells : List Word) (s : State) : State :=
  (((State.initial c cells s.flash).setPending s.pending).setDraws s.draws).setOut s.out

/-- What an event does between operations. -/
def runEnv (e : EnvEvent) (s : State) : Host.Outcome State Fault Refusal :=
  match e with
  | .saveWrite => saveWrite s
  | .storeChange cells => .next (s.setStore cells)
  | .flashChange cells => .next (s.setFlash (Memory.writeAll s.flash cells))
  | .powerCycle cells => .next (restart s.cfg cells s)
  | .rebuild cfg cells => .next (restart cfg cells s)

/-- The request that a table word stands for (R103, R106). -/
def requestOfTableWord (nbits w : Nat) : Request := .op (fetchOfTableWord nbits w)

end Sys2Proof.Machine
end

