-- ==== Sys2Proof/Machine/Dispatch.lean ====
section
/-! DEFINITION. The meaning of every operation, one arm for each constructor of `Instr`. -/

namespace Sys2Proof.Machine

/-- One operation: one atomic transition (R2, R70). -/
def exec (i : Instr) (s : State) : Host.Outcome State Fault Refusal :=
  match i with
  | .register c => Sys2Proof.Machine.execRegister c s
  | .addIoi id => Sys2Proof.Machine.execAddIoi id s
  | .clearIoi => Sys2Proof.Machine.execClearIoi s
  | .dispatch id buf => Sys2Proof.Machine.execDispatch id buf s
  | .add dir param id bitOff bitW gain offset => Sys2Proof.Machine.execAdd dir param id bitOff bitW gain offset s
  | .remove param => Sys2Proof.Machine.execRemove param s
  | .findFirst param => Sys2Proof.Machine.execFindFirst param s
  | .forEach v => Sys2Proof.Machine.execForEach v s
  | .clear => Sys2Proof.Machine.execClear s
  | .sendSweep => Sys2Proof.Machine.execSendSweep s
  | .unpack buf slot => Sys2Proof.Machine.execUnpack buf slot s
  | .pack frame slot => Sys2Proof.Machine.execPack frame slot s
  | .mapRx id buf => Sys2Proof.Machine.execMapRx id buf s
  | .mapCleared => Sys2Proof.Machine.execMapCleared s
  | .saveBegin => Sys2Proof.Machine.execSaveBegin s
  | .saveEnd => Sys2Proof.Machine.execSaveEnd s
  | .load => Sys2Proof.Machine.execLoad s
  | .sdoPrmWr sub data => Sys2Proof.Machine.execSdoPrmWr sub data s
  | .sdoPrmRd sub data => Sys2Proof.Machine.execSdoPrmRd sub data s
  | .sdoPidWr sub data => Sys2Proof.Machine.execSdoPidWr sub data s
  | .sdoPidRd sub data => Sys2Proof.Machine.execSdoPidRd sub data s
  | .sdoMapTx second ident sub bitOff bitW gainRaw => Sys2Proof.Machine.execSdoMapTx second ident sub bitOff bitW gainRaw s
  | .sdoMapRx ident sub bitOff bitW gainRaw => Sys2Proof.Machine.execSdoMapRx ident sub bitOff bitW gainRaw s
  | .sdoEchoPrm pid cmd sub data => Sys2Proof.Machine.execSdoEchoPrm pid cmd sub data s
  | .sdoEchoMapTx low cmd sub data => Sys2Proof.Machine.execSdoEchoMapTx low cmd sub data s
  | .sdoEchoMapRx low cmd sub data => Sys2Proof.Machine.execSdoEchoMapRx low cmd sub data s
  | .sdoInvIdx cmd index sub data => Sys2Proof.Machine.execSdoInvIdx cmd index sub data s

end Sys2Proof.Machine
end

