-- ==== Sys2Proof/Machine/Step.lean ====
section
/-! DEFINITION. One step: the oldest request of `pending` runs to completion (R70, R74). -/

namespace Sys2Proof.Machine

/-- Runs one request: an operation is decoded and executed; an event happens. -/
def runRequest (r : Request) (s : State) : Host.Outcome State Fault Refusal :=
  match r with
  | .env e => runEnv e s
  | .op f =>
    match decode s.cfg f with
    | .ok i => exec i s
    | .error e => .refused (.badCommand e)

/-- One step. With no request the block executes nothing (R281): the state stays. -/
def step (s : State) : Host.Outcome State Fault Refusal :=
  match s.pending with
  | [] => .next s
  | r :: rest => runRequest r (s.setPending rest)

/-- The state with a table word's operation placed as the next request (log 9). -/
def State.withFetchWord (s : State) (nbits w : Nat) : State :=
  s.setPending (requestOfTableWord nbits w :: s.pending)

end Sys2Proof.Machine
end

