-- ==== Sys2Proof/Safety.lean ====
section
/-! DEFINITION. The terms that claims about the block use: sound states, legal configurations, laws of the collaborators
(R9, R33 to R37, R237), and what an observer sees of the tables and the ports. -/

namespace Sys2Proof.Machine

/-! ## Sound states -/

/-- The tables have their capacities and widths (R24, R29, R30) and satisfy INV1 to INV4 (R33 to R36). -/
abbrev Sound (s : State) : Prop := tablesSound s.cfg s.tables = true

/-- The acceptance list has no duplicate and fits (R22), and the shadow of the transport's filter equals it (R23). -/
abbrev AcceptanceOk (s : State) : Prop := s.ioi.Nodup ∧ s.ioi.length ≤ s.cfg.maxIoi ∧ s.filter = s.ioi

/-- At most MAX_CONSUMERS consumers (R21). -/
abbrev ConsumersOk (s : State) : Prop := s.cons.length ≤ s.cfg.maxConsumers

/-- What every step keeps: the tables' invariants, the acceptance list's, the consumers', the flash's canonical form. -/
abbrev Inv (s : State) : Prop :=
  Sound s ∧ AcceptanceOk s ∧ ConsumersOk s ∧ Memory.wf s.flash = true

/-- The next request, if it is a LOAD of an image whose checksum matches, installs sound tables (R37: the block does not
check a loaded image). -/
def LoadIsSound (s : State) : Prop :=
  ∀ f rest, s.pending = .op f :: rest → decode s.cfg f = .ok .load →
    cksumOf s.cfg (storedWords s.cfg s.flash) = storedCksum s.cfg s.flash →
      tablesSound s.cfg (imageDe s.cfg (storedWords s.cfg s.flash)) = true

/-- A step from `s` neither faults nor is refused. -/
def SafeStep (s : State) : Prop := ∃ t, step s = .next t

/-- The values that R47 gives after reset, under a configuration. -/
def Fresh (c : Cfg) (s : State) : Prop :=
  s.cfg = c ∧ s.cons = [] ∧ s.ioi = [] ∧ s.busy = false ∧
    (∀ d, (entriesOf s.tables d).length = c.maxMessages ∧ ∀ e ∈ entriesOf s.tables d, e.head = .endMark) ∧
    s.tables.pool.length = c.maxItems ∧ ∀ b ∈ s.tables.pool, b.next = .freeMark

/-- Nothing of the block and of its collaborators but the store, the draws, the port calls and the result differs. -/
def SameBlock (s t : State) : Prop :=
  t.cfg = s.cfg ∧ t.cons = s.cons ∧ t.ioi = s.ioi ∧ t.tables = s.tables ∧ t.busy = s.busy ∧ t.filter = s.filter ∧
    t.flash = s.flash ∧ t.pending = s.pending

/-- An entry of a direction can take the identifier: it has an entry already, or one is free. -/
abbrev EntryAvailable (t : Tables) (d : Dir) (id : Ident) : Prop :=
  (∃ e ∈ entriesOf t d, entryUsed e = true ∧ e.id = id) ∨ ∃ e ∈ entriesOf t d, entryUsed e = false

/-- A slot of the pool is free. -/
abbrev SlotAvailable (t : Tables) : Prop := ∃ b ∈ t.pool, slotUsed b = false

/-- The acceptance list after the registration of several identifiers in order: each is appended if it is new and there
is room (R132). -/
def registered (maxIoi : Nat) (ioi : List Ident) : List Ident → List Ident
  | [] => ioi
  | id :: ids => registered maxIoi (if id ∉ ioi ∧ ioi.length < maxIoi then ioi ++ [id] else ioi) ids

/-- The calls of the transport that the registration of several identifiers in order makes: one for each that is
appended, with the list as it then is (R132). -/
def registrationCalls (maxIoi : Nat) (ioi : List Ident) : List Ident → List PortCall
  | [] => []
  | id :: ids =>
    if id ∉ ioi ∧ ioi.length < maxIoi then
      .btConfigureFilter (ioi ++ [id]) :: registrationCalls maxIoi (ioi ++ [id]) ids
    else registrationCalls maxIoi ioi ids

/-- The state after the registration of several identifiers in order: the list, the filter if the list grew, the calls
(R132). -/
def withRegistered (ids : List Ident) (s : State) : State :=
  let ioi := registered s.cfg.maxIoi s.ioi ids
  { s with
    ioi := ioi
    filter := if ioi = s.ioi then s.filter else ioi
    out := s.out ++ registrationCalls s.cfg.maxIoi s.ioi ids }

/-- What the notification of one consumer leaves (R133): the mapping consumer registers its identifiers (R187); an external
one is called, acts outside the block, and registers a drawn number of drawn identifiers (R135, log 16). -/
def notified (s : State) : Consumer → State
  | .mapping => withRegistered (BitVec.ofNat 32 s.cfg.requestId :: recvIds s.tables) s
  | .ext n =>
    let k := Config.freeNat s.draws
    withRegistered ((List.range k).map fun i => Config.freeWord (s.draws + 2 + i))
      { s with
        store := Config.freeWords (s.draws + 1)
        flash := Memory.writeAll s.flash (Config.freeCells (s.draws + 1))
        draws := s.draws + 2 + k
        out := s.out ++ [.extCleared n] }

/-- The external consumers of a list, in order. -/
def externals (cs : List Consumer) : List Nat :=
  cs.filterMap fun
    | .ext n => some n
    | .mapping => none

/-- The external consumers that some port calls notify of a cleared list, in order (R133). -/
def clearedCalls (calls : List PortCall) : List Nat :=
  calls.filterMap fun
    | .extCleared n => some n
    | _ => none

/-- `i` is the lowest index of a list whose element has the property. -/
def LowestWith {α : Type} (l : List α) (p : α → Bool) (i : Nat) : Prop :=
  (∃ h : i < l.length, p l[i] = true) ∧ ∀ k, (h : k < l.length) → k < i → p l[k] = false

/-! ## Who writes what (R20) -/

/-- The parts of the state that operations write. The filter goes with `ioi` (R23). -/
inductive Part where
  | cons
  | ioi
  | tables
  | busy
  | store
  | flash
  deriving DecidableEq, Repr

/-- What each operation can write: the column 'Written by' of R20, what the operations that contain another contain
(R70), and the collaborators' store and flash, which external consumers can change too (R135). -/
def mayWrite : Instr → List Part
  | .register _ => [.cons]
  | .addIoi _ => [.ioi]
  | .clearIoi => [.ioi, .store, .flash]
  | .dispatch _ _ => [.ioi, .tables, .store, .flash]
  | .add .send _ _ _ _ _ _ => [.tables]
  | .add .recv _ _ _ _ _ _ => [.tables, .ioi]
  | .remove _ => [.tables]
  | .findFirst _ => []
  | .forEach _ => []
  | .clear => [.tables, .ioi, .store, .flash]
  | .sendSweep => []
  | .unpack _ _ => [.store]
  | .pack _ _ => []
  | .mapRx _ _ => [.ioi, .tables, .store]
  | .mapCleared => [.ioi]
  | .saveBegin => [.tables, .busy, .flash]
  | .saveEnd => [.tables, .busy]
  | .load => [.tables, .ioi]
  | .sdoPrmWr _ _ => [.store]
  | .sdoPrmRd _ _ => []
  | .sdoPidWr _ _ => [.store]
  | .sdoPidRd _ _ => []
  | .sdoMapTx _ _ _ _ _ _ => [.tables]
  | .sdoMapRx _ _ _ _ _ => [.tables, .ioi]
  | .sdoEchoPrm _ _ _ _ => []
  | .sdoEchoMapTx _ _ _ _ => []
  | .sdoEchoMapRx _ _ _ _ => []
  | .sdoInvIdx _ _ _ _ => []

/-- A part of the state is the same in two states. -/
def Part.same (s t : State) : Part → Prop
  | .cons => t.cons = s.cons
  | .ioi => t.ioi = s.ioi ∧ t.filter = s.filter
  | .tables => t.tables = s.tables
  | .busy => t.busy = s.busy
  | .store => t.store = s.store
  | .flash => t.flash = s.flash

/-- No external consumer is registered. -/
abbrev NoExternals (s : State) : Prop := ∀ n, Consumer.ext n ∉ s.cons

/-- An outcome with its next state changed. -/
def mapNext (f : State → State) : Host.Outcome State Fault Refusal → Host.Outcome State Fault Refusal
  | .next t => .next (f t)
  | .fault e => .fault e
  | .refused e => .refused e

/-! ## Configurations -/

/-- Every declared persistent identifier fits PARAM_REF_BITS (R8: 'wide enough for an enumeration index and for a
persistent identifier'). -/
abbrev PidsFit (c : Cfg) : Prop := ∀ d ∈ c.params, d.pid < 2 ^ c.paramRefBits

/-- A legal configuration (R7, R8, R9). -/
abbrev LegalCfg (c : Cfg) : Prop :=
  1 ≤ c.maxConsumers ∧ 1 ≤ c.maxIoi ∧ 1 ≤ c.maxMessages ∧ 1 ≤ c.maxItems ∧
    c.requestId ≤ 0x1FFFFFFF ∧ c.replyId ≤ 0x1FFFFFFF ∧ c.paramCount ≤ 2 ^ c.paramRefBits ∧ PidsFit c ∧
    imageFits c = true

/-- Every used slot refers to a parameter of the enumeration (U8 does not arise). -/
abbrev ParamsValid (c : Cfg) (t : Tables) : Prop := ∀ b ∈ t.pool, slotUsed b = true → b.param < c.paramCount

/-! ## What an observer sees -/

/-- A binding as FOR_EACH shows it: direction, identifier, parameter, bit offset, bit width, gain, offset (R159). -/
def shown (x : Dir × Ident × Slot) : Dir × Ident × Nat × Byte × Byte × F32 × Word :=
  (x.1, x.2.1, x.2.2.param, x.2.2.bitOff, x.2.2.bitW, x.2.2.gain, x.2.2.offset)

/-- The whole table as FOR_EACH shows it, in its order. -/
def shownTable (t : Tables) : List (Dir × Ident × Nat × Byte × Byte × F32 × Word) := (allBindings t).map shown

/-- The bindings of one message, in chain order. -/
def shownMessage (t : Tables) (d : Dir) (id : Ident) : List (Dir × Ident × Nat × Byte × Byte × F32 × Word) :=
  (shownTable t).filter fun x => x.1 == d && x.2.1 == id

/-- The frames among some port calls. -/
def framesOf (calls : List PortCall) : List (Ident × Word × Word) :=
  calls.filterMap fun c =>
    match c with
    | .btSend id lo hi => some (id, lo, hi)
    | _ => none

/-- The `PS` call that UNPACK makes to write a value through the path of a kind (R182, R267). -/
def setCall (k : ParamKind) (p : Nat) (f : F32) : PortCall :=
  match k with
  | .fixed => .psSetFixed p f
  | .float => .psSetFloat p f

/-- The store's cells after that call. -/
def setCells (k : ParamKind) (c : Cfg) (cells : List Word) (p : Nat) (f : F32) : List Word :=
  match k with
  | .fixed => storeSetFixed c cells p f
  | .float => storeSetFloat c cells p f

/-- The mapping request of a direction: SDO_MAP_TX or SDO_MAP_RX (R206, R207). -/
def mappingRequest (d : Dir) (second : BitVec 1) (ident : BitVec 11) (sub o w : Byte) (g : BitVec 16) : Instr :=
  match d with
  | .send => .sdoMapTx second ident sub o w g
  | .recv => .sdoMapRx ident sub o w g

/-- The tables with the parameter reference of every used slot rewritten (R41, R231, R233), at its width (R30). -/
def remapped (c : Cfg) (f : Nat → Nat) (t : Tables) : Tables :=
  { t with pool := t.pool.map fun b => if slotUsed b then { b with param := c.cutRef (f b.param) } else b }

/-- The bits of a payload that a binding's field covers. -/
def covers (b : Slot) (k : Nat) : Prop := b.bitOff.toNat ≤ k ∧ k < b.bitOff.toNat + b.bitW.toNat

/-- The field of a binding as the slice `V[bitOff+bitW-1 : bitOff]` of the payload value (R63). -/
def payloadSlice (p : Payload) (b : Slot) : Nat := p.value.toNat / 2 ^ b.bitOff.toNat % 2 ^ b.bitW.toNat

/-- UNPACK's value for a field in one word, `(field + offset) * gain` (R182). -/
def scaledField (p : Payload) (b : Slot) : F32 :=
  f32Mul (f32Add (f32OfNat (payloadSlice p b)) (f32OfInt b.offset.toInt)) b.gain

/-- The kind that the store declares of a parameter of the enumeration. -/
def declaredKind (c : Cfg) (p : Nat) : ParamKind := ((c.params[p]?).map ParamDecl.kind).getD .fixed

/-- The store's cells after UNPACK of every slot of a chain, in chain order: the last write to a parameter stays
(R182 f, R186). -/
def unpackedCells (c : Cfg) (t : Tables) (p : Payload) (js : List Nat) (cells : List Word) : List Word :=
  js.foldl (fun cells j =>
    setCells (declaredKind c (slotAt t j).param) c cells (slotAt t j).param (scaledField p (slotAt t j))) cells

/-- The integer that PACK inserts for a binding (R183), where it is known: the field lies in one word, the store's
answer is known, and the scaled value truncates. -/
def sentInteger (c : Cfg) (cells : List Word) (b : Slot) : Option Word :=
  if straddling b then none
  else (storeGetFloat c cells b.param).bind fun v => f32TruncI32 (f32Mul (f32Add v (f32OfInt b.offset.toInt)) b.gain)

/-- The frame that PACK of every slot of a chain builds from all zeros, in chain order (R184, R189). -/
def sentFrame (c : Cfg) (cells : List Word) (t : Tables) (js : List Nat) : Payload :=
  js.foldl (fun p j => insertInto p (slotAt t j) ((sentInteger c cells (slotAt t j)).getD 0)) ⟨0, 0⟩

/-- The port calls of a sweep for one used send entry: the store is read for each binding that does not straddle, in
chain order, and then the frame goes out (R183, R189). -/
def sweepCalls (t : Tables) (e : Entry) (p : Payload) : List PortCall :=
  ((chain t e.head).filter fun j => !straddling (slotAt t j)).map (fun j => .psGetFloat (slotAt t j).param) ++
    [.btSend e.id p.lo p.hi]

/-- The value of a finite binary32 number. -/
def f32Value (a : F32) : ℚ := (if f32Neg a then -1 else 1) * (f32Sig a : ℚ) * (2 : ℚ) ^ f32Scale a

/-- Dropping the fraction, toward zero (R181). -/
def truncRat (q : ℚ) : Int := if 0 ≤ q then ⌊q⌋ else ⌈q⌉

/-- The magnitude that 31 magnitude bits below infinity stand for. -/
def magValue (mag : Nat) : ℚ := f32Value (f32OfMag false mag)

/-- `r` is the binary32 number that `q` rounds to (R180): it is the infinity of `q`'s sign exactly if `q` is at least half
a unit above the largest finite magnitude; otherwise no finite number is nearer to `q`, and of two that are equally near
it is the one whose significand is even. -/
def RoundsTo (q : ℚ) (r : F32) : Prop :=
  f32IsNaN r = false ∧ (f32IsInf r = true ↔ (2 : ℚ) ^ 128 - 2 ^ 103 ≤ |q|) ∧ (q ≠ 0 → f32Neg r = decide (q < 0)) ∧
    (f32IsInf r = false → ∀ x : F32, f32IsNaN x = false → f32IsInf x = false →
      |f32Value r - q| ≤ |f32Value x - q| ∧
        (|f32Value r - q| = |f32Value x - q| → f32Value x ≠ f32Value r → r.getLsbD 0 = false))

/-- An entry without the identifier of a free one (R46). -/
def plainView (e : Entry) : Option (Ident × Link) := if entryUsed e then some (e.id, e.head) else none

/-- A slot without the fields of a free one (R46). -/
def slotView (b : Slot) : Option Slot := if slotUsed b then some b else none

/-- The tables without their don't-care fields (R46). -/
def tablesView (t : Tables) : List (Option (Ident × Link)) × List (Option (Ident × Link)) × List (Option Slot) :=
  (t.send.map plainView, t.recv.map plainView, t.pool.map slotView)

/-! ## Laws of the image, the checksum and the store (R237): hypotheses about a configuration, never facts -/

/-- L1: a blank region does not load. -/
def LawBlank (c : Cfg) : Prop := cksumOf c (List.replicate (imageWords c) 0xFFFFFFFF) ≠ 0xFFFFFFFF

/-- L2: one flipped bit, in an image word or in the checksum word, is detected. -/
def LawSingleBit (c : Cfg) : Prop :=
  ∀ (ws : List Word) (k b : Nat), ws.length = imageWords c → k ≤ imageWords c → b < 32 →
    let flipped := (ws ++ [cksumOf c ws]).modify k fun w => w ^^^ (1#32 <<< b)
    cksumOf c (flipped.take (imageWords c)) ≠ flipped.getD (imageWords c) 0

/-- L3 for tables and a draw number: `de(ser(t)) = t` on all fields that are not don't-care. -/
abbrev LawRoundTripAt (c : Cfg) (t : Tables) (n : Nat) : Prop := tablesView (imageDe c (imageSer c t n)) = tablesView t

/-- L4 in one build: the two translations of the store undo each other. -/
abbrev LawTranslation (c : Cfg) : Prop := ∀ n, n < c.paramCount → storeNumFromId c (storeIdFromNum c n) = n

/-- L4 across a rebuild from `c` to `c'`: `moved n` is the new index of the logical parameter that was number `n`, and
the new build's translation finds it by the old build's identifier. -/
abbrev LawRebuild (c c' : Cfg) (moved : Nat → Nat) : Prop :=
  ∀ n, n < c.paramCount → moved n < c'.paramCount ∧ storeNumFromId c' (storeIdFromNum c n) = moved n

end Sys2Proof.Machine
end

