-- ==== Sys2Proof/Certificates/Slice0/Obligations.lean ====
section
/-! DEFINITION. What the provers are asked to prove of the block, from the numbered rules of spec/. -/

open Sys2Proof Sys2Proof.Machine

/-! ## Reset, step, encoding -/

/-- R47: what reset leaves, under every configuration, at `State.reset` under the configured values, the model's choice
(log 1), and after a power cycle of any state: the flash alone survives (R282). That a power cycle is an event with the
store's cells given from outside is the model's choice (log 17). -/
def Obligations.ResetLeavesEverythingFree : Prop :=
  (∀ (c : Cfg) (store : List Word) (flash : List Host.Cell), Fresh c (State.initial c store flash)) ∧
    Fresh Cfg.configured State.reset ∧
    ∀ (s : State) (cells : List Word), ∃ t, runEnv (.powerCycle cells) s = .next t ∧ Fresh s.cfg t ∧
      t.flash = s.flash ∧ t.store = cells

/-- The invariant holds after reset, under every configuration and every flash in canonical form (R37). -/
def Obligations.ResetMeetsInvariant : Prop :=
  ∀ (c : Cfg) (store : List Word) (flash : List Host.Cell), Memory.wf flash = true → Inv (State.initial c store flash)

/-- A step runs the operation that the oldest request decodes to, on the state without that request; an undecodable
request is refused; with no request the state stays. The list of requests is the model's choice (log 9), and so is the
refusal of a command port that holds no operation (log 8). -/
def Obligations.StepRunsDecodedOperation : Prop :=
  ∀ s : State,
    (∀ f rest i, s.pending = .op f :: rest → decode s.cfg f = .ok i → i.wellFormed s.cfg = true →
      step s = exec i { s with pending := rest }) ∧
    (∀ f rest e, s.pending = .op f :: rest → decode s.cfg f = .error e → step s = .refused (.badCommand e)) ∧
    (∀ e rest, s.pending = .env e :: rest → step s = runEnv e { s with pending := rest }) ∧
    (s.pending = [] → step s = .next s)

/-- A few words of the opcode table decode to the operations they stand for (R103, R106), with the PARAM_COUNT of the
configured values, the model's choice (log 1). -/
def Obligations.TableWordsDecode : Prop :=
  decodeTableWord 8 0x14 = some .clear ∧
    decodeTableWord 64 0x1F4005200040 = some (.sdoPrmWr 0x05 0x00001F40) ∧
    decodeTableWord 64 0x00400C1009330040 = some (.sdoMapTx 0 0x300 0x09 0x10 0x0C 0x0040) ∧
    decodeTableWord 64 0x0020080005480040 = some (.sdoInvIdx 0x40 0x4800 0x05 0x00200800) ∧
    decodeTableWord 8 0x15 = none

/-- Decode after encode gives every well-formed operation back, every operand included (R103, R106, R107).
The lanes that carry the command port's operands are the model's choice (log 8). -/
def Obligations.DecodeEncodeAgree : Prop :=
  ∀ (c : Cfg) (i : Instr), i.wellFormed c = true → decode c (encode i) = .ok i

/-- Every SDO payload is the encoding of the one well-formed operation it decodes to: no bit of it is lost. -/
def Obligations.EncodeDecodeSdoAgree : Prop :=
  ∀ (c : Cfg) (b : Payload), (decodeSdo c b).wellFormed c = true ∧ encode (decodeSdo c b) = .sdo b

/-- The class of a request is the first row of the mask and match column of R103 that fits, with SUBOK for rows 1 to 7. -/
def Obligations.ClassIsFirstMatchingRow : Prop :=
  ∀ (c : Cfg) (b : Payload),
    let fits (mask value : BitVec 64) : Bool := (b.value &&& mask) == value && subOk c b.sub
    sdoClass c b =
      if fits 0x0000000000FFFFFF 0x0000000000200040 then .prmWr
      else if fits 0x0000000000FFFFFF 0x0000000000200022 then .prmRd
      else if fits 0x0000000000FFFFFF 0x0000000000200140 then .pidWr
      else if fits 0x0000000000FFFFFF 0x0000000000200122 then .pidRd
      else if fits 0x0000000000F000FF 0x0000000000300040 then .mapTx
      else if fits 0x0000000000F800FF 0x0000000000400040 then .mapRx
      else if fits 0x0000000000FFFE00 0x0000000000200000 then .echo
      else if fits 0x0000000000F00000 0x0000000000300000 then .echo
      else if fits 0x0000000000F80000 0x0000000000400000 then .echo
      else .invIdx

/-- Reading and writing payload bytes agree with the SDO fields (R13, R93): the four reads, and the two writes the
handler makes. -/
def Obligations.PayloadBytesAreSdoFields : Prop :=
  ∀ (b : Payload) (w : Word) (k : Byte),
    memRead b 0 1 = b.cmd.toNat ∧ memRead b 1 2 = b.index.toNat ∧ memRead b 3 1 = b.sub.toNat ∧
      memRead b 4 4 = b.data.toNat ∧ b = sdoPayload b.cmd b.index b.sub b.data ∧
      memWrite b 0 1 k.toNat = sdoPayload k b.index b.sub b.data ∧
      memWrite b 4 4 w.toNat = sdoPayload b.cmd b.index b.sub w

/-! ## Whole-machine rules -/

/-- R37: INV1 to INV4 hold after reset and every step keeps them, with the acceptance list's, the consumers' and the
flash's invariants; a LOAD only if the image it installs is sound. -/
def Obligations.StepKeepsInvariant : Prop :=
  (∀ (c : Cfg) (store : List Word), Sound (State.initial c store [])) ∧
    ∀ s t : State, Inv s → LoadIsSound s → step s = .next t → Inv t

/-- From a state that breaks INV1 to INV4, or holds a reference wider than PARAM_REF_BITS (R30), no operation has a
transition: the spec's `refuse` of U5, which the model applies to every operation (log 12). -/
def Obligations.BrokenTablesRefused : Prop :=
  ∀ (i : Instr) (s : State), ¬ Sound s → exec i s = .refused .brokenTables

/-- R42: SAVE_BEGIN sets `busy`, SAVE_END clears it, no other operation writes it, MAP_RX and SEND_SWEEP skip their
work while it is set (MAP_RX after the SDO test, which serves a request all the same) and complete, and it is 0 after
reset. -/
def Obligations.BusyGate : Prop :=
  (∀ s t, exec .saveBegin s = .next t → t.busy = true) ∧
    (∀ s t, exec .saveEnd s = .next t → t.busy = false) ∧
    (∀ i s t, i ≠ .saveBegin → i ≠ .saveEnd → exec i s = .next t → t.busy = s.busy) ∧
    (∀ s id b, Sound s → s.busy = true → id.toNat ≠ s.cfg.requestId →
      exec (.mapRx id b) s = .next { s with result := .claimed false b }) ∧
    (∀ s id b, Sound s → s.busy = true → id.toNat = s.cfg.requestId → sdoClass s.cfg b ≠ .mapTx →
      sdoClass s.cfg b ≠ .mapRx → ∃ t r, exec (.mapRx id b) s = .next t ∧ t.result = .claimed true r ∧
        exec (decodeSdo s.cfg b) s = .next { t with result := .buffer r }) ∧
    (∀ s, Sound s → s.busy = true → exec .sendSweep s = .next { s with result := .none }) ∧
    State.reset.busy = false

/-- The frame of the whole set: no operation changes the configuration (R43), takes a consumer away (R21) or touches the
requests, and each leaves every part of the state that `mayWrite` does not list for it as it was: consumers, acceptance
list with the filter, tables, gate, store, flash (R20). Only external consumers make CLEAR_IOI, CLEAR and DISPATCH write
the flash, and CLEAR_IOI and CLEAR the store (R135). That reading the Parameter Store changes no cell of it is the model's
choice (log 13), and so is that a visitor of FOR_EACH does nothing itself (log 23). -/
def Obligations.WhoWritesWhat : Prop :=
  ∀ i s t, exec i s = .next t →
    t.cfg = s.cfg ∧ t.pending = s.pending ∧ s.cons <+: t.cons ∧
      (∀ part, part ∉ mayWrite i → part.same s t) ∧
      (NoExternals s → (i ≠ .saveBegin → t.flash = s.flash) ∧ (i = .clearIoi ∨ i = .clear → t.store = s.store)) ∧
      (∃ calls, t.out = s.out ++ calls) ∧ s.draws ≤ t.draws

/-- While a save is in progress the table operations are refused, and SAVE_BEGIN; while none is, SAVE_END (R235, U3, U4),
and LOAD of a table that is not all free (R234 a). -/
def Obligations.SaveExcludesTableOperations : Prop :=
  ∀ s : State, Sound s →
    (s.busy = true →
      (∀ d p id o w g k, exec (.add d p id o w g k) s = .refused .tableBusy) ∧
      (∀ p, exec (.remove p) s = .refused .tableBusy) ∧ (∀ p, exec (.findFirst p) s = .refused .tableBusy) ∧
      (∀ v, exec (.forEach v) s = .refused .tableBusy) ∧ exec .clear s = .refused .tableBusy ∧
      exec .load s = .refused .tableBusy ∧
      (∀ x n u o w g, exec (.sdoMapTx x n u o w g) s = .refused .tableBusy) ∧
      (∀ n u o w g, exec (.sdoMapRx n u o w g) s = .refused .tableBusy) ∧
      exec .saveBegin s = .refused .saveActive) ∧
    (s.busy = false → exec .saveEnd s = .refused .noSave ∧
      (tablesEmpty s.tables = false → exec .load s = .refused .loadNotAtReset))

/-! ## Dispatcher -/

/-- REGISTER: what it answers and all it changes (R131). -/
def Obligations.RegisterAppendsConsumer : Prop :=
  ∀ (h : Consumer) (s : State), Sound s →
    exec (.register h) s = .next
      (if s.cons.length < s.cfg.maxConsumers then { s with cons := s.cons ++ [h], result := .bool true }
      else { s with result := .bool false })

/-- ADD_IOI: what it answers and all it changes (R132). -/
def Obligations.AddIoiAppendsIdentifier : Prop :=
  ∀ (id : Ident) (s : State), Sound s →
    exec (.addIoi id) s = .next
      (if id ∉ s.ioi ∧ s.ioi.length < s.cfg.maxIoi then
        { s with ioi := s.ioi ++ [id], filter := s.ioi ++ [id],
                 out := s.out ++ [.btConfigureFilter (s.ioi ++ [id])], result := .bool true }
      else { s with result := .bool false })

/-- CLEAR_IOI completes with any consumers, gate open or closed: the list is emptied and the filter reprogrammed, and
then every consumer in registration order is notified and registers its identifiers, so that the calls of external
list-cleared handlers are the external consumers in that order. The list stays sound and equal to the filter, and nothing
changes but the list, the filter, the draws and the port calls, and through external consumers what is outside the block;
with the mapping consumer alone the list then holds the SDO request identifier and the used receive entries' identifiers
in table order (R133, R135, R187). That it runs while the gate is closed is the model's choice, which R235 allows
(log 11), and what an external consumer does is drawn (log 16). -/
def Obligations.ClearIoiReregisters : Prop :=
  ∀ s : State, Sound s → ∃ t, exec .clearIoi s = .next t ∧ AcceptanceOk t ∧
    t = { s with ioi := t.ioi, filter := t.ioi, store := t.store, flash := t.flash, draws := t.draws, out := t.out,
                 result := .none } ∧
    (NoExternals s → t.store = s.store ∧ t.flash = s.flash ∧ t.draws = s.draws) ∧
    t = { s.cons.foldl notified { s with ioi := [], filter := [], out := s.out ++ [.btConfigureFilter []] } with
          result := .none } ∧
    (∃ calls, t.out = s.out ++ .btConfigureFilter [] :: calls ∧ clearedCalls calls = externals s.cons) ∧
    (s.cons = [.mapping] →
      let ids := BitVec.ofNat 32 s.cfg.requestId :: recvIds s.tables
      t.ioi = registered s.cfg.maxIoi [] ids ∧
        t.out = s.out ++ t.ioi.inits.map .btConfigureFilter ∧
        (ids.Nodup → ids.length ≤ s.cfg.maxIoi → t.ioi = ids))

/-- MAP_CLEARED registers the SDO request identifier and then the used receive entries' identifiers (R187). That it may
be issued on its own, and while the gate is closed, is the model's choice (log 7, log 11). -/
def Obligations.MapClearedRegisters : Prop :=
  ∀ s : State, Sound s → AcceptanceOk s → ∃ t, exec .mapCleared s = .next t ∧ AcceptanceOk t ∧
    t.ioi = registered s.cfg.maxIoi s.ioi (BitVec.ofNat 32 s.cfg.requestId :: recvIds s.tables) ∧
    t = { s with ioi := t.ioi, filter := t.filter, out := t.out, result := .none }

/-- DISPATCH completes unless it is a request that during a save reaches, or through an external consumer's drawn
buffer may reach, a mapping class; it changes no consumer and not the gate; a frame that is no SDO request changes no
state of the block at all, and the flash changes only where an external consumer is registered (R134, R135). -/
def Obligations.DispatchCompletes : Prop :=
  ∀ (id : Ident) (b : Payload) (s : State), Sound s →
    (s.busy = true → id.toNat = s.cfg.requestId →
      NoExternals s ∧ sdoClass s.cfg b ≠ .mapTx ∧ sdoClass s.cfg b ≠ .mapRx) →
      ∃ t b', exec (.dispatch id b) s = .next t ∧ t.result = .buffer b' ∧ t.cfg = s.cfg ∧ t.cons = s.cons ∧
        t.busy = s.busy ∧ t.pending = s.pending ∧ (NoExternals s → t.flash = s.flash) ∧
        (id.toNat ≠ s.cfg.requestId → SameBlock s { t with flash := s.flash })

/-- DISPATCH offers the frame to the consumers in registration order and stops at the first that claims it (R134, R135):
with no consumer the frame is dropped; the first consumer is called; if it claims, DISPATCH ends with what that consumer
left; if it declines, DISPATCH goes on exactly as a DISPATCH to the remaining consumers, from the state and with the
buffer as the first one left them. An external consumer's answer, buffer and acts outside the block are the model's
draws (log 16). -/
def Obligations.FirstClaimantWins : Prop :=
  ∀ (id : Ident) (b : Payload) (s : State), Sound s →
    (s.cons = [] → exec (.dispatch id b) s = .next { s with result := .buffer b }) ∧
    (∀ rest, s.cons = .mapping :: rest →
      (∀ b' t, exec (.mapRx id b) s = .next t → t.result = .claimed true b' →
        exec (.dispatch id b) s = .next { t with result := .buffer b' }) ∧
      (∀ b' t, exec (.mapRx id b) s = .next t → t.result = .claimed false b' →
        exec (.dispatch id b) s =
          mapNext (fun u => { u with cons := s.cons }) (exec (.dispatch id b') { t with cons := rest }))) ∧
    (∀ n rest, s.cons = .ext n :: rest →
      let r := extRx n id b s
      r.2.2 = { s with store := r.2.2.store, flash := r.2.2.flash, draws := r.2.2.draws,
                       out := s.out ++ [.extRx n id b] } ∧
      exec (.dispatch id b) s =
        if r.1 then .next { r.2.2 with result := .buffer r.2.1 }
        else mapNext (fun u => { u with cons := s.cons }) (exec (.dispatch id r.2.1) { r.2.2 with cons := rest }))

/-- A frame that no consumer claims is dropped: nothing changes (R134, R252). -/
def Obligations.UnclaimedFrameDropped : Prop :=
  ∀ (id : Ident) (b : Payload) (s : State), Sound s → (∀ h ∈ s.cons, h = .mapping) →
    id.toNat ≠ s.cfg.requestId →
    (s.cons = [] ∨ s.busy = true ∨ ∀ e ∈ s.tables.recv, entryUsed e = true → e.id ≠ id) →
      exec (.dispatch id b) s = .next { s with result := .buffer b }

/-! ## Mapping Table -/

/-- ADD's errors: the first failing test is reported, and nothing but the result changes (R155, R250, R256, R258). -/
def Obligations.AddReportsFirstFailure : Prop :=
  ∀ (d : Dir) (p : Nat) (id : Ident) (o w : Byte) (g : F32) (k : Word) (s : State), Sound s → s.busy = false →
    let fails (e : ErrCode) : Prop := exec (.add d p id o w g k) s = .next { s with result := .error e }
    (0x1FFFFFFF < id.toNat → fails .invalidId) ∧
    (id.toNat ≤ 0x1FFFFFFF →
      (63 < o.toNat → fails .invalidOffset) ∧
      (o.toNat ≤ 63 →
        (32 < w.toNat → fails .invalidLength) ∧
        (w.toNat ≤ 32 →
          (¬ EntryAvailable s.tables d id → fails .maxMessages) ∧
          (EntryAvailable s.tables d id → ¬ SlotAvailable s.tables → fails .maxItems))))

/-- ADD's success: the message gets the binding at its tail, every other message keeps its bindings, the answer counts
the direction's used entries, and a receive binding registers its identifier (R155). -/
def Obligations.AddAppendsBinding : Prop :=
  ∀ (d : Dir) (p : Nat) (id : Ident) (o w : Byte) (g : F32) (k : Word) (s : State), Sound s → s.busy = false →
    paramRefFits s.cfg p = true → id.toNat ≤ 0x1FFFFFFF → o.toNat ≤ 63 → w.toNat ≤ 32 →
    EntryAvailable s.tables d id → SlotAvailable s.tables →
      ∃ t, exec (.add d p id o w g k) s = .next t ∧ t.result = .count (usedCount t.tables d) ∧
        1 ≤ usedCount t.tables d ∧ usedCount t.tables d ≤ s.cfg.maxMessages ∧
        usedCount t.tables d = usedCount s.tables d +
          (if ∃ e ∈ entriesOf s.tables d, entryUsed e = true ∧ e.id = id then 0 else 1) ∧
        (∀ d' id', shownMessage t.tables d' id' =
          if d' = d ∧ id' = id then shownMessage s.tables d id ++ [(d, id, p, o, w, g, k)]
          else shownMessage s.tables d' id') ∧
        (if d = .recv ∧ id ∉ s.ioi ∧ s.ioi.length < s.cfg.maxIoi then
          t = { s with tables := t.tables, result := t.result, ioi := s.ioi ++ [id], filter := s.ioi ++ [id],
                       out := s.out ++ [.btConfigureFilter (s.ioi ++ [id])] }
        else t = { s with tables := t.tables, result := t.result })

/-- ADD takes the lowest free slot, links it at the tail of the identifier's entry, and for a new identifier takes the
lowest free entry; no other slot and no other entry is written (R150 to R155, R162). -/
def Obligations.AddTakesLowestFree : Prop :=
  ∀ (d : Dir) (p : Nat) (id : Ident) (o w : Byte) (g : F32) (k : Word) (s : State), Sound s → s.busy = false →
    paramRefFits s.cfg p = true → id.toNat ≤ 0x1FFFFFFF → o.toNat ≤ 63 → w.toNat ≤ 32 →
    EntryAvailable s.tables d id → SlotAvailable s.tables →
      ∃ t j, exec (.add d p id o w g k) s = .next t ∧ LowestWith s.tables.pool (fun b => !slotUsed b) j ∧
        slotAt t.tables j = ⟨p, k, g, o, w, .endMark⟩ ∧
        (∀ d', d' ≠ d → entriesOf t.tables d' = entriesOf s.tables d') ∧
        (∀ e, findEntry s.tables d id = some e →
          entriesOf t.tables d = entriesOf s.tables d ∧
          ∃ q, tailOf s.tables d e = some q ∧ slotAt t.tables q = { slotAt s.tables q with next := .slot j } ∧
            ∀ n, n ≠ j → n ≠ q → slotAt t.tables n = slotAt s.tables n) ∧
        (findEntry s.tables d id = none →
          (∀ n, n ≠ j → slotAt t.tables n = slotAt s.tables n) ∧
          ∃ i, LowestWith (entriesOf s.tables d) (fun e => !entryUsed e) i ∧
            entriesOf t.tables d = (entriesOf s.tables d).set i ⟨id, .slot j⟩)

/-- REMOVE: every binding of the parameter goes, in both directions, the rest keep their order, their number is the
answer, and nothing but the tables changes: the acceptance list stays (R157, R48). R46 and U2 leave open what a freed
entry's identifier and a freed slot's fields read as; that they keep their old content is the model's choice (log 2). -/
def Obligations.RemoveDropsParameter : Prop :=
  ∀ (p : Nat) (s : State), Sound s → s.busy = false →
    ∃ t, exec (.remove p) s = .next t ∧
      t = { s with tables := t.tables,
                   result := .removed ((shownTable s.tables).countP fun x => x.2.2.1 == p) } ∧
      shownTable t.tables = (shownTable s.tables).filter (fun x => x.2.2.1 != p) ∧
      (∀ d, (entriesOf t.tables d).map Entry.id = (entriesOf s.tables d).map Entry.id) ∧
      (∀ j, { slotAt t.tables j with next := .freeMark } = { slotAt s.tables j with next := .freeMark }) ∧
      (∀ j, j < s.cfg.maxItems →
        slotUsed (slotAt t.tables j) = (slotUsed (slotAt s.tables j) && (slotAt s.tables j).param != p))

/-- After REMOVE of a parameter FIND_FIRST never finds it (R157 g). -/
def Obligations.RemovedParameterNotFound : Prop :=
  ∀ (p : Nat) (s t : State), exec (.remove p) s = .next t → exec (.findFirst p) t = .next { t with result := .notFound }

/-- FIND_FIRST: the first binding of the parameter as FOR_EACH lists them, or not found; no state changes (R158). -/
def Obligations.FindFirstSearchesInOrder : Prop :=
  ∀ (p : Nat) (s : State), Sound s → s.busy = false →
    (∀ pre d id o w g k post, shownTable s.tables = pre ++ (d, id, p, o, w, g, k) :: post → (∀ x ∈ pre, x.2.2.1 ≠ p) →
      exec (.findFirst p) s = .next { s with result := .found id o w g d }) ∧
    ((∀ x ∈ shownTable s.tables, x.2.2.1 ≠ p) → exec (.findFirst p) s = .next { s with result := .notFound })

/-- FOR_EACH: one call for each binding, send before receive, table order, chain order; no state changes (R159). That the
visitor itself changes nothing, beyond the tables that R159 (b) keeps from it, is the model's choice (log 23). -/
def Obligations.ForEachVisitsInOrder : Prop :=
  ∀ (v : Visitor) (s : State), Sound s → s.busy = false →
    exec (.forEach v) s = .next
      { s with
        out := s.out ++ (shownTable s.tables).map fun x =>
          .visit v x.1 x.2.1 x.2.2.1 x.2.2.2.1 x.2.2.2.2.1 x.2.2.2.2.2.1 x.2.2.2.2.2.2
        result := .none }

/-- CLEAR completes with any consumers, frees everything, does with the acceptance list what CLEAR_IOI does from there,
and leaves consumers and gate alone, and without external consumers store and flash too; with the mapping consumer alone, only the SDO identifier is registered afterwards
(R160, R135). -/
def Obligations.ClearFreesEverything : Prop :=
  ∀ s : State, Sound s → s.busy = false →
    ∃ t, exec .clear s = .next t ∧ tablesEmpty t.tables = true ∧ Sound t ∧ AcceptanceOk t ∧ shownTable t.tables = [] ∧
      t = { s with tables := t.tables, ioi := t.ioi, filter := t.ioi, store := t.store, flash := t.flash,
                   draws := t.draws, out := t.out, result := .none } ∧
      exec .clearIoi { s with tables := t.tables } = .next t ∧
      (NoExternals s → t.store = s.store ∧ t.flash = s.flash ∧ t.draws = s.draws) ∧
      (s.cons = [.mapping] → 1 ≤ s.cfg.maxIoi →
        let ids := [BitVec.ofNat 32 s.cfg.requestId]
        t.ioi = ids ∧ t.out = s.out ++ [.btConfigureFilter [], .btConfigureFilter ids])

/-! ## Bit Codec -/

/-- R65: the mask, and extraction and insertion of a field that lies in one word: insertion changes the field's bits
only, by OR, and extraction reads them. -/
def Obligations.FieldMaskAndPosition : Prop :=
  fieldMask 0 = 0 ∧ fieldMask 8 = 0xFF ∧ fieldMask 32 = 0xFFFFFFFF ∧
    (∀ w, w ≤ 32 → (fieldMask w).toNat = 2 ^ w - 1) ∧
    ∀ (word value : Word) (sh w : Nat), sh + w ≤ 32 →
      (extractField word sh w).toNat = word.toNat / 2 ^ sh % 2 ^ w ∧
      ∀ k, k < 32 → (insertField word sh w value).getLsbD k =
        (word.getLsbD k || (decide (sh ≤ k ∧ k < sh + w) && value.getLsbD (k - sh)))

/-- The field that UNPACK extracts is the slice of the payload's 64-bit value, and PACK ORs into exactly those bits
(R63, R64). -/
def Obligations.FieldIsPayloadSlice : Prop :=
  ∀ (buf : Payload) (b : Slot) (value : Word), straddling b = false →
    (extractField (fieldWord buf b) (fieldShift b) b.bitW.toNat).toNat = payloadSlice buf b ∧
      ∀ k, k < 64 → (insertInto buf b value).value.getLsbD k =
        (buf.value.getLsbD k || (decide (b.bitOff.toNat ≤ k ∧ k < b.bitOff.toNat + b.bitW.toNat) &&
          value.getLsbD (k - b.bitOff.toNat)))

/-- UNPACK of a used binding to a declared parameter writes one value through the path of the parameter's kind, and
changes nothing else: `(field + offset) * gain` for a field in one word, a draw for a straddling one (R182, R66). That the
kind query changes no cell of the store is the model's choice (log 13). -/
def Obligations.UnpackWritesScaledField : Prop :=
  ∀ (buf : Payload) (j : Word) (s : State) (decl : ParamDecl), Sound s → j.toNat < s.cfg.maxItems →
    let b := slotAt s.tables j.toNat
    slotUsed b = true → s.cfg.params[b.param]? = some decl →
      ∃ v n, (straddling b = false → n = s.draws ∧ v = scaledField buf b) ∧
        exec (.unpack buf j) s = .next
          { s with store := setCells decl.kind s.cfg s.store b.param v, draws := n,
                   out := s.out ++ [.psKind b.param, setCall decl.kind b.param v], result := .none }

/-- UNPACK completes for every used slot of the pool, whatever it holds, and writes no state of the block (R182). That it
completes for a free slot too, with drawn fields, and that it stops on a pool index that does not exist (R60), is the
model's choice (log 7, log 2): R182's operand is a used slot. -/
def Obligations.UnpackWritesNoBlockState : Prop :=
  ∀ (buf : Payload) (j : Word) (s : State), Sound s →
    (j.toNat < s.cfg.maxItems → ∃ t, exec (.unpack buf j) s = .next t ∧ SameBlock s t ∧ t.result = .none) ∧
    (s.cfg.maxItems ≤ j.toNat → exec (.unpack buf j) s = .fault .noSuchSlot)

/-- PACK of a used binding changes nothing but the frame it answers, the draws and the port calls: for a field in one
word whose scaled value truncates, the integer's low bits are ORed in; for a straddling one a drawn word is ORed into
each word, and the store is not read (R183, R66). That reading the store changes no cell is the model's choice (log 13). -/
def Obligations.PackInsertsTruncatedValue : Prop :=
  ∀ (t0 : Payload) (j : Word) (s : State), Sound s → j.toNat < s.cfg.maxItems →
    let b := slotAt s.tables j.toNat
    slotUsed b = true →
      (∀ v n, straddling b = false → storeGetFloat s.cfg s.store b.param = some v →
        f32TruncI32 (f32Mul (f32Add v (f32OfInt b.offset.toInt)) b.gain) = some n →
          exec (.pack t0 j) s = .next
            { s with out := s.out ++ [.psGetFloat b.param], result := .frame (insertInto t0 b n) }) ∧
      (straddling b = true → ∃ x y, exec (.pack t0 j) s = .next
        { s with draws := s.draws + 2, result := .frame ⟨t0.lo ||| x, t0.hi ||| y⟩ })

/-- PACK of a used, one-word binding never touches a bit outside its field, whatever the value, and never clears one
(R183 f, U7). -/
def Obligations.PackKeepsBitsOutsideField : Prop :=
  ∀ (t0 : Payload) (j : Word) (s : State), Sound s → j.toNat < s.cfg.maxItems →
    let b := slotAt s.tables j.toNat
    slotUsed b = true → straddling b = false →
      ∃ t r, exec (.pack t0 j) s = .next t ∧ t.result = .frame r ∧
        ∀ k, k < 64 → (t0.value.getLsbD k = true → r.value.getLsbD k = true) ∧
          (¬ covers b k → r.value.getLsbD k = t0.value.getLsbD k)

/-- PACK completes for every used slot of the pool and writes no state of the block and not the store (R183). That reading
the store changes no cell is the model's choice (log 13), and so is that PACK completes for a free slot too, with drawn
fields, and that it stops on a pool index that does not exist (R60) (log 7, log 2): R183's operand is a used slot. -/
def Obligations.PackWritesNoState : Prop :=
  ∀ (t0 : Payload) (j : Word) (s : State), Sound s →
    (j.toNat < s.cfg.maxItems →
      ∃ t, exec (.pack t0 j) s = .next t ∧ SameBlock s t ∧ t.store = s.store ∧ framesOf t.out = framesOf s.out) ∧
    (s.cfg.maxItems ≤ j.toNat → exec (.pack t0 j) s = .fault .noSuchSlot)

/-- MAP_RX of a mapped frame makes, in chain order, the store calls of every binding of the chain, leaves the store's
cells as these writes in this order leave them, the last write to a parameter staying, claims the frame, and changes
nothing else (R182 f, R184, R186). That a kind query changes no cell of the store is the model's choice (log 13). -/
def Obligations.MapRxUnpacksChain : Prop :=
  ∀ (id : Ident) (buf : Payload) (s : State) (e : Entry), Sound s → s.busy = false → id.toNat ≠ s.cfg.requestId →
    e ∈ s.tables.recv → entryUsed e = true → e.id = id → ParamsValid s.cfg s.tables →
    (∀ j ∈ chain s.tables e.head, straddling (slotAt s.tables j) = false) →
      exec (.mapRx id buf) s = .next
        { s with
          store := unpackedCells s.cfg s.tables buf (chain s.tables e.head) s.store
          out := s.out ++ (chain s.tables e.head).flatMap fun j =>
            let b := slotAt s.tables j
            [.psKind b.param, setCall (declaredKind s.cfg b.param) b.param (scaledField buf b)]
          result := .claimed true buf }

/-- MAP_RX completes for every mapped frame, straddling and invalid references too: it is claimed and no state of the
block changes. A frame with no used receive entry is not claimed and nothing changes (R186). -/
def Obligations.MapRxClaimsMappedFrames : Prop :=
  ∀ (id : Ident) (buf : Payload) (s : State), Sound s → s.busy = false → id.toNat ≠ s.cfg.requestId →
    ((∃ e ∈ s.tables.recv, entryUsed e = true ∧ e.id = id) →
      ∃ t, exec (.mapRx id buf) s = .next t ∧ SameBlock s t ∧ t.result = .claimed true buf) ∧
    ((∀ e ∈ s.tables.recv, entryUsed e = true → e.id ≠ id) →
      exec (.mapRx id buf) s = .next { s with result := .claimed false buf })

/-- SEND_SWEEP sends, while the gate is open, one frame for each used send entry, in table order, after the reads of
the store for that entry's bindings in chain order, and changes no state (R183, R184, R189). A frame has only the bits
that a binding of its chain covers (any bit, where one straddles); where the integer of every binding of the chain is
known, the frame is all zeros with each of them ORed in at its place. That reading the store changes no cell is the
model's choice (log 13). -/
def Obligations.SweepSendsEachEntryOnce : Prop :=
  ∀ s : State, Sound s → s.busy = false →
    let used := s.tables.send.filter entryUsed
    let known (e : Entry) : Prop :=
      ∀ j ∈ chain s.tables e.head, (sentInteger s.cfg s.store (slotAt s.tables j)).isSome = true
    ∃ (t : State) (frames : List Payload), exec .sendSweep s = .next t ∧
      t = { s with draws := t.draws, out := s.out ++ (List.zipWith (sweepCalls s.tables) used frames).flatten,
                   result := .none } ∧
      List.Forall₂ (fun (e : Entry) (p : Payload) =>
        (∀ k, k < 64 → p.value.getLsbD k = true →
          ∃ j ∈ chain s.tables e.head, straddling (slotAt s.tables j) = true ∨ covers (slotAt s.tables j) k) ∧
        (known e → p = sentFrame s.cfg s.store s.tables (chain s.tables e.head))) used frames ∧
      ((∀ e ∈ used, known e) → t.draws = s.draws)

/-! ## Numbers -/

/-- R181: truncation drops the fraction of a finite value, where the integer is in the i32 range, and is not defined
elsewhere. -/
def Obligations.TruncationDropsFraction : Prop :=
  ∀ a : F32,
    (f32IsNaN a = false → f32IsInf a = false → -2 ^ 31 ≤ truncRat (f32Value a) → truncRat (f32Value a) ≤ 2 ^ 31 - 1 →
      f32TruncI32 a = some (BitVec.ofInt 32 (truncRat (f32Value a)))) ∧
    ((f32IsNaN a = true ∨ f32IsInf a = true ∨ truncRat (f32Value a) < -2 ^ 31 ∨ 2 ^ 31 - 1 < truncRat (f32Value a)) →
      f32TruncI32 a = none)

/-- R180, the primitives that round: the rounding of a magnitude gives a nearest one below infinity; a scaled integer
(and so `F.ofInt` and `F.ofNat`), the sum and the product of two finite values are the exact value rounded to nearest,
ties to even, with overflow to infinity; and a zero sum, and every product, has the sign that IEEE 754 gives it. -/
def Obligations.RoundingIsNearest : Prop :=
  (∀ (m : Nat) (e : Int) (x : Nat), f32RoundMag m e < 0x7F800000 → x < 0x7F800000 →
    |magValue (f32RoundMag m e) - (m : ℚ) * (2 : ℚ) ^ e| ≤ |magValue x - (m : ℚ) * (2 : ℚ) ^ e|) ∧
  (∀ k e : Int, RoundsTo ((k : ℚ) * (2 : ℚ) ^ e) (f32OfScaled k e)) ∧
  ∀ a b : F32, f32IsNaN a = false → f32IsInf a = false → f32IsNaN b = false → f32IsInf b = false →
    RoundsTo (f32Value a + f32Value b) (f32Add a b) ∧
      (f32Value a + f32Value b = 0 → f32Neg (f32Add a b) = (f32Neg a && f32Neg b)) ∧
      RoundsTo (f32Value a * f32Value b) (f32Mul a b) ∧ f32Neg (f32Mul a b) = (f32Neg a != f32Neg b)

/-- Integers up to `2^24` in magnitude convert exactly, and come back by truncation (R180, R181). -/
def Obligations.SmallIntegersExact : Prop :=
  ∀ k : Int, -2 ^ 24 ≤ k → k ≤ 2 ^ 24 → f32Value (f32OfInt k) = k ∧ f32TruncI32 (f32OfInt k) = some (BitVec.ofInt 32 k)

/-- The SDO gain conversion is exact for every 16-bit gain and up to 16 fraction bits (R101). -/
def Obligations.GainConversionExact : Prop :=
  ∀ (c : Cfg) (raw : BitVec 16), c.gainFracBits ≤ 16 →
    f32Value (gainOf c raw) = ((if c.gainSigned then raw.toInt else (raw.toNat : Int)) : ℚ) / 2 ^ c.gainFracBits

/-- With gain 1 and offset 0 an integer that fits the field survives PACK and then UNPACK at the same place (R185). -/
def Obligations.UnitRoundTripLossless : Prop :=
  ∀ (b : Slot) (x : Nat), straddling b = false → b.gain = f32OfInt 1 → b.offset = 0 → x < 2 ^ b.bitW.toNat → x < 2 ^ 24 →
    ∃ n, f32TruncI32 (packScaled b (f32OfNat x)) = some n ∧ unpackValue b (insertInto ⟨0, 0⟩ b n) = f32OfNat x

/-! ## SDO -/

/-- A parameter read answers the raw word that the store has for the parameter, the same for the same store, and touches
nothing but the port (R202, R210). That reading the store changes no cell is the model's choice (log 13). -/
def Obligations.SdoPrmRdAnswersRawWord : Prop :=
  ∀ (b : Payload) (s : State), Sound s → b.cmd = 0x22 → b.index = 0x2000 → b.sub.toNat < s.cfg.paramCount →
    decodeSdo s.cfg b = .sdoPrmRd b.sub b.data ∧
    let reply := sdoPayload 0x43 b.index b.sub (storeGetRaw s.cfg s.store b.sub.toNat)
    exec (.sdoPrmRd b.sub b.data) s = .next
      { s with
        out := s.out ++ [.psGetRaw b.sub.toNat, .btSend (BitVec.ofNat 32 s.cfg.replyId) reply.lo reply.hi]
        result := .buffer reply }

/-- R203: a parameter write that the store takes is answered by a write-reply with the request's data, one that it
rejects by an abort with the range code. R203 says that a rejection leaves the parameter unchanged; that it leaves every
cell of the store unchanged is the model's choice (log 13). -/
def Obligations.SdoPrmWrValidates : Prop :=
  ∀ (b : Payload) (s : State), Sound s → b.cmd = 0x40 → b.index = 0x2000 → b.sub.toNat < s.cfg.paramCount →
      let ok := storeAcceptsRaw s.cfg s.store b.sub.toNat b.data
      let reply := if ok then sdoPayload 0x23 b.index b.sub b.data else sdoPayload 0x80 b.index b.sub 0x06090030
      decodeSdo s.cfg b = .sdoPrmWr b.sub b.data ∧
      exec (.sdoPrmWr b.sub b.data) s = .next
        { s with
          store := if ok then storeSetRaw s.cfg s.store b.sub.toNat b.data else s.store
          out := s.out ++ [.psSetRaw b.sub.toNat b.data,
            .btSend (BitVec.ofNat 32 s.cfg.replyId) reply.lo reply.hi]
          result := .buffer reply }

/-- A read by persistent identifier answers the raw word of the parameter found, or an abort with the index code (R204).
That reading the store changes no cell is the model's choice (log 13). -/
def Obligations.SdoPidRdTranslates : Prop :=
  ∀ (b : Payload) (s : State), Sound s → b.cmd = 0x22 → b.index = 0x2001 → b.sub.toNat < s.cfg.paramCount →
    let p := storeNumFromId s.cfg b.sub.toNat
    let abort := sdoPayload 0x80 b.index b.sub 0x06020000
    let id := BitVec.ofNat 32 s.cfg.replyId
    decodeSdo s.cfg b = .sdoPidRd b.sub b.data ∧
    (p < s.cfg.paramCount →
      let reply := sdoPayload 0x43 b.index b.sub (storeGetRaw s.cfg s.store p)
      exec (.sdoPidRd b.sub b.data) s = .next
        { s with
          out := s.out ++ [.psNumFromId b.sub.toNat, .psGetRaw p, .btSend id reply.lo reply.hi]
          result := .buffer reply }) ∧
    (s.cfg.paramCount ≤ p → exec (.sdoPidRd b.sub b.data) s = .next
      { s with out := s.out ++ [.psNumFromId b.sub.toNat, .btSend id abort.lo abort.hi], result := .buffer abort })

/-- R205: a write by persistent identifier. That a rejected write leaves every cell of the store unchanged, not the
parameter alone, is the model's choice (log 13). -/
def Obligations.SdoPidWrTranslates : Prop :=
  ∀ (b : Payload) (s : State), Sound s → b.cmd = 0x40 → b.index = 0x2001 → b.sub.toNat < s.cfg.paramCount →
    let p := storeNumFromId s.cfg b.sub.toNat
    let id := BitVec.ofNat 32 s.cfg.replyId
    decodeSdo s.cfg b = .sdoPidWr b.sub b.data ∧
    (p < s.cfg.paramCount →
      let ok := storeAcceptsRaw s.cfg s.store p b.data
      let reply := if ok then sdoPayload 0x23 b.index b.sub b.data else sdoPayload 0x80 b.index b.sub 0x06090030
      exec (.sdoPidWr b.sub b.data) s = .next
        { s with
          store := if ok then storeSetRaw s.cfg s.store p b.data else s.store
          out := s.out ++ [.psNumFromId b.sub.toNat, .psSetRaw p b.data, .btSend id reply.lo reply.hi]
          result := .buffer reply }) ∧
    (s.cfg.paramCount ≤ p →
      let abort := sdoPayload 0x80 b.index b.sub 0x06020000
      exec (.sdoPidWr b.sub b.data) s = .next
        { s with out := s.out ++ [.psNumFromId b.sub.toNat, .btSend id abort.lo abort.hi], result := .buffer abort })

/-- SDO_MAP_TX and SDO_MAP_RX: the fields of the request; where the placement is legal and an entry and a slot are to
be had, the binding of those fields with offset 0 is appended to its message, a receive identifier is registered, and a
write-reply goes out; where the placement is not legal, or an entry or a slot is not to be had, the one abort goes out and
nothing else happens (R98, R99, R206, R207). Of requests whose sub-index is not below PARAM_COUNT, which
`Obligations.InvalidIndexAborts` covers, nothing is claimed here. -/
def Obligations.MappingRequestsInstallBinding : Prop :=
  (∀ (c : Cfg) (d : Dir) (b : Payload), b.cmd = 0x40 → b.sub.toNat < c.paramCount →
    (d = .send → 0x3000 ≤ b.index.toNat ∧ b.index.toNat ≤ 0x3FFF) →
    (d = .recv → 0x4000 ≤ b.index.toNat ∧ b.index.toNat ≤ 0x47FF) →
      decodeSdo c b = mappingRequest d (b.index.extractLsb' 11 1) (b.index.extractLsb' 0 11) b.sub
        (b.data.extractLsb' 0 8) (b.data.extractLsb' 8 8) (b.data.extractLsb' 16 16)) ∧
  ∀ (d : Dir) (x : BitVec 1) (n : BitVec 11) (u o w : Byte) (g : BitVec 16) (s : State), Sound s → s.busy = false →
    let id : Ident := n.zeroExtend 32
    let i := mappingRequest d x n u o w g
    let b := requestPayload i
    let done := sdoPayload 0x23 b.index b.sub b.data
    let abort := sdoPayload 0x80 b.index b.sub 0x06090030
    let sent (r : Payload) : PortCall := .btSend (BitVec.ofNat 32 s.cfg.replyId) r.lo r.hi
    (u.toNat < s.cfg.paramCount → s.cfg.paramCount ≤ 2 ^ s.cfg.paramRefBits →
      o.toNat ≤ 63 → w.toNat ≤ 32 → EntryAvailable s.tables d id → SlotAvailable s.tables →
      ∃ t, exec i s = .next t ∧
        (∀ d' id', shownMessage t.tables d' id' =
          if d' = d ∧ id' = id then shownMessage s.tables d id ++ [(d, id, u.toNat, o, w, gainOf s.cfg g, 0)]
          else shownMessage s.tables d' id') ∧
        (if d = .recv ∧ id ∉ s.ioi ∧ s.ioi.length < s.cfg.maxIoi then
          t = { s with tables := t.tables, result := .buffer done, ioi := s.ioi ++ [id], filter := s.ioi ++ [id],
                       out := s.out ++ [.btConfigureFilter (s.ioi ++ [id]), sent done] }
        else t = { s with tables := t.tables, result := .buffer done, out := s.out ++ [sent done] })) ∧
    (u.toNat < s.cfg.paramCount →
      (63 < o.toNat ∨ 32 < w.toNat ∨ ¬ EntryAvailable s.tables d id ∨ ¬ SlotAvailable s.tables) →
      exec i s = .next { s with out := s.out ++ [sent abort], result := .buffer abort })

/-- R208: the three echo patterns send the request back byte for byte and nothing else happens; they are the requests
on an object index with a valid sub-index and a command that is not acted on. -/
def Obligations.EchoSendsRequestBack : Prop :=
  ∀ (s : State) (i : Instr) (b : Payload), Sound s → encode i = .sdo b →
    ((∃ q c u w, i = .sdoEchoPrm q c u w) ∨ (∃ q c u w, i = .sdoEchoMapTx q c u w) ∨ (∃ q c u w, i = .sdoEchoMapRx q c u w) →
      exec i s = .next
        { s with out := s.out ++ [.btSend (BitVec.ofNat 32 s.cfg.replyId) b.lo b.hi], result := .buffer b }) ∧
    (b.sub.toNat < s.cfg.paramCount →
      ((b.index = 0x2000 ∨ b.index = 0x2001) ∧ b.cmd ≠ 0x40 ∧ b.cmd ≠ 0x22 ∨
        (0x3000 ≤ b.index.toNat ∧ b.index.toNat ≤ 0x47FF) ∧ b.cmd ≠ 0x40) →
      (∃ q c u w, decodeSdo s.cfg b = .sdoEchoPrm q c u w) ∨ (∃ q c u w, decodeSdo s.cfg b = .sdoEchoMapTx q c u w) ∨
        (∃ q c u w, decodeSdo s.cfg b = .sdoEchoMapRx q c u w))

/-- R209: an index outside the object rows, or a sub-index that is not below PARAM_COUNT, is answered by an abort with
the index code, whatever the command, and nothing else happens. -/
def Obligations.InvalidIndexAborts : Prop :=
  ∀ (b : Payload) (s : State), Sound s →
    (s.cfg.paramCount ≤ b.sub.toNat ∨
      (b.index ≠ 0x2000 ∧ b.index ≠ 0x2001 ∧ ¬ (0x3000 ≤ b.index.toNat ∧ b.index.toNat ≤ 0x47FF))) →
    let abort := sdoPayload 0x80 b.index b.sub 0x06020000
    decodeSdo s.cfg b = .sdoInvIdx b.cmd b.index b.sub b.data ∧
      exec (.sdoInvIdx b.cmd b.index b.sub b.data) s = .next
        { s with out := s.out ++ [.btSend (BitVec.ofNat 32 s.cfg.replyId) abort.lo abort.hi], result := .buffer abort }

/-- R201, R102, R100: every SDO request that is served sends exactly one frame, on the reply identifier, as the last
port call, and it is the buffer that the caller gets back: the request with its index and sub-index, the command byte
replaced unless it is echoed, and the data replaced only in a read-reply, by a parameter's raw word, and in an abort, by
an abort code. -/
def Obligations.ExactlyOneReply : Prop :=
  ∀ (b : Payload) (s t : State), exec (decodeSdo s.cfg b) s = .next t →
    ∃ r, t.result = .buffer r ∧ r.index = b.index ∧ r.sub = b.sub ∧
      (r = b ∨ (r.cmd = 0x23 ∧ r.data = b.data) ∨
        (r.cmd = 0x43 ∧ ∃ p, p < s.cfg.paramCount ∧ r.data = storeGetRaw s.cfg s.store p) ∨
        (r.cmd = 0x80 ∧ (r.data = 0x06020000 ∨ r.data = 0x06090030))) ∧
      framesOf t.out = framesOf s.out ++ [(BitVec.ofNat 32 s.cfg.replyId, r.lo, r.hi)] ∧
      t.out.getLast? = some (.btSend (BitVec.ofNat 32 s.cfg.replyId) r.lo r.hi)

/-- R213: MAP_RX claims every SDO request it serves, so consumers after the mapping consumer never see one; the frame
does what the request it carries does (R186, R200). -/
def Obligations.SdoRequestAlwaysClaimed : Prop :=
  ∀ (id : Ident) (b : Payload) (s : State), id.toNat = s.cfg.requestId →
    (∀ t, exec (.mapRx id b) s = .next t → ∃ r, t.result = .claimed true r) ∧
    (∀ t r, exec (decodeSdo s.cfg b) s = .next t → t.result = .buffer r →
      exec (.mapRx id b) s = .next { t with result := .claimed true r }) ∧
    (∀ rest, s.cons = .mapping :: rest → exec (.dispatch id b) s = exec (decodeSdo s.cfg b) s)

/-! ## Persistence -/

/-- SAVE_BEGIN closes the gate, erases the region unless it is erased, and puts every used slot's reference into the
persistent form; nothing else of the block changes (R231). That the reference keeps only PARAM_REF_BITS of what the
store answers is the model's inference (log 6); which bytes of the flash an erase clears (those below ERASE_UNIT_BYTES)
and which bytes the erase test looks at (those of the image) is the model's choice (log 15), and so is that a translation
changes no cell of the store (log 13). -/
def Obligations.SaveBeginRemaps : Prop :=
  ∀ s : State, Sound s → s.busy = false →
    ∃ t, exec .saveBegin s = .next t ∧
      t = { s with
            busy := true
            tables := remapped s.cfg (storeIdFromNum s.cfg) s.tables
            flash := t.flash
            out := t.out
            result := .none } ∧
      (Memory.isErased s.flash (imageBytes s.cfg) = true → t.flash = s.flash) ∧
      (Memory.isErased s.flash (imageBytes s.cfg) = false →
        ∀ a, Memory.read t.flash a = if a < s.cfg.eraseUnitBytes then 0xFF else Memory.read s.flash a) ∧
      t.out = s.out ++ (if Memory.isErased s.flash (imageBytes s.cfg) then [.flIsErased] else [.flIsErased, .flErase]) ++
        (s.tables.pool.filter slotUsed).map fun b => .psIdFromNum b.param

/-- SAVE_END puts every used slot's reference back into the enumeration form and opens the gate (R233). That the reference
keeps only PARAM_REF_BITS of what the store answers is the model's inference (log 6), and that a translation changes no
cell of the store is its choice (log 13). -/
def Obligations.SaveEndRemapsBack : Prop :=
  ∀ s : State, Sound s → s.busy = true →
    exec .saveEnd s = .next
      { s with
        busy := false
        tables := remapped s.cfg (storeNumFromId s.cfg) s.tables
        out := s.out ++ (s.tables.pool.filter slotUsed).map fun b => .psNumFromId b.param
        result := .none }

/-- Under the store's law, SAVE_BEGIN and then SAVE_END leave the tables and the gate as they were (R233 b); that a
translation changes no cell of the store is the model's choice (log 13). -/
def Obligations.SaveRestoresTables : Prop :=
  ∀ s t u : State, LawTranslation s.cfg → PidsFit s.cfg → ParamsValid s.cfg s.tables → s.busy = false →
    exec .saveBegin s = .next t → exec .saveEnd t = .next u →
      u = { s with flash := u.flash, out := u.out, result := .none }

/-- SAVE_WRITE stores the image words and then their checksum, touches no other byte and no state of the block, and
what it stored reads back (R232). The
place of a word's bytes in the flash is the model's choice (log 15). -/
def Obligations.SaveWriteStoresImage : Prop :=
  ∀ s : State, Sound s → Memory.wf s.flash = true → s.busy = true → imageFits s.cfg = true →
    let ws := imageSer s.cfg s.tables s.draws
    ∃ t, runEnv .saveWrite s = .next t ∧
      t = { s with flash := t.flash, draws := t.draws, out := t.out, result := .none } ∧
      storedWords s.cfg t.flash = ws ∧ storedCksum s.cfg t.flash = cksumOf s.cfg ws ∧
      (∀ a, imageBytes s.cfg ≤ a → Memory.read t.flash a = Memory.read s.flash a) ∧
      t.out = s.out ++ (ws ++ [cksumOf s.cfg ws]).mapIdx fun k w => .flProgram k w

/-- LOAD of an image whose checksum does not match answers false and leaves everything but the port calls as it was
(R234). -/
def Obligations.LoadMismatchChangesNothing : Prop :=
  ∀ s : State, Sound s → s.busy = false → tablesEmpty s.tables = true → imageFits s.cfg = true →
    cksumOf s.cfg (storedWords s.cfg s.flash) ≠ storedCksum s.cfg s.flash →
      exec .load s = .next
        { s with out := s.out ++ (List.range (imageWords s.cfg + 1)).map .flRead, result := .bool false }

/-- LOAD of an image whose checksum matches installs the tables in the enumeration form, registers the receive
identifiers, and answers true; it reads each word once in order, translates each used slot's reference, and gives the
transport a new list for each identifier that it registers (R234). That a reference keeps only PARAM_REF_BITS of what the
store answers is the model's inference (log 6), and that a translation changes no cell of the store is its choice
(log 13). -/
def Obligations.LoadMatchInstallsImage : Prop :=
  ∀ s : State, Sound s → s.busy = false → tablesEmpty s.tables = true → imageFits s.cfg = true →
    cksumOf s.cfg (storedWords s.cfg s.flash) = storedCksum s.cfg s.flash →
      ∃ t, exec .load s = .next t ∧ t.result = .bool true ∧
        t.tables = remapped s.cfg (storeNumFromId s.cfg) (imageDe s.cfg (storedWords s.cfg s.flash)) ∧
        t = { s with tables := t.tables, ioi := t.ioi, filter := t.filter, out := t.out, result := t.result } ∧
        t.ioi = registered s.cfg.maxIoi s.ioi (recvIds t.tables) ∧
        t.filter = (if t.ioi = s.ioi then s.filter else t.ioi) ∧
        t.out = s.out ++ (List.range (imageWords s.cfg + 1)).map .flRead ++
          ((imageDe s.cfg (storedWords s.cfg s.flash)).pool.filter slotUsed).map (fun b => .psNumFromId b.param) ++
          registrationCalls s.cfg.maxIoi s.ioi (recvIds t.tables)

/-- The model's plain layout and checksum meet the laws L1 to L3 of R237 (the layout and the checksum are the model's
choice, log 14). -/
def Obligations.PlainImageMeetsLaws : Prop :=
  ∀ c : Cfg, c.image = .plain → imageWords c < 2 ^ 32 →
    LawBlank c ∧ LawSingleBit c ∧ ∀ t n, tablesSound c t = true → LawRoundTripAt c t n

/-- Save, start again, load: where the saved image keeps law L3 and the store law L4, SAVE leaves the running tables as
they were; after a power cycle LOAD brings them back, chain order included; and after a rebuild that reorders the
enumeration LOAD brings them back with each binding at the new index of the same logical parameter (R230 to R234, R237,
R282). -/
def Obligations.SaveThenLoadRestores : Prop :=
  ∀ (s : State) (cells : List Word), Sound s → Memory.wf s.flash = true → s.busy = false → imageFits s.cfg = true →
    LawRoundTripAt s.cfg (remapped s.cfg (storeIdFromNum s.cfg) s.tables) s.draws → LawTranslation s.cfg →
    PidsFit s.cfg → ParamsValid s.cfg s.tables →
      ∃ t1 t2 t3, exec .saveBegin s = .next t1 ∧ runEnv .saveWrite t1 = .next t2 ∧ exec .saveEnd t2 = .next t3 ∧
        t3.tables = s.tables ∧
        (∃ t4 t5, runEnv (.powerCycle cells) t3 = .next t4 ∧ exec .load t4 = .next t5 ∧ shownTable t4.tables = [] ∧
          t5.result = .bool true ∧ tablesView t5.tables = tablesView s.tables ∧
          shownTable t5.tables = shownTable s.tables) ∧
        ∀ (params : List ParamDecl) (moved : Nat → Nat),
          let c' := { s.cfg with params := params }
          c'.paramCount ≤ 2 ^ c'.paramRefBits → LawRebuild s.cfg c' moved →
            ∃ t4 t5, runEnv (.rebuild c' cells) t3 = .next t4 ∧ exec .load t4 = .next t5 ∧ t5.cfg = c' ∧
              t5.result = .bool true ∧
              shownTable t5.tables = (shownTable s.tables).map fun x => (x.1, x.2.1, moved x.2.2.1, x.2.2.2)
end

