-- ==== Sys2Proof/Laws/Memory.lean ====
section
/-! SUPPORT. The laws of the flash as a memory: what is read after a write, and that every operation keeps the
canonical form. -/

namespace Sys2Proof.Machine

/-- The memory after reset has the canonical form. -/
theorem reset_memory_wf : Memory.wf State.reset.flash = true := rfl

/-- What the canonical form says of a nonempty list. -/
theorem Memory.wf_cons {c : Host.Cell} {m : List Host.Cell} :
    Memory.wf (c :: m) = true ↔ c.2 ≠ erasedByte ∧ (∀ d ∈ m, c.1 < d.1) ∧ Memory.wf m = true := by
  simp [Memory.wf, and_assoc]

/-- An address below every listed one reads as erased. -/
theorem Memory.read_of_lt {m : List Host.Cell} {a : Nat} (h : ∀ d ∈ m, a < d.1) : Memory.read m a = erasedByte := by
  induction m with
  | nil => rfl
  | cons c m ih =>
    have hc := h c (by simp)
    rw [Memory.read, if_neg (by omega)]
    exact ih fun d hd => h d (by simp [hd])

/-- A write adds at most its own address. -/
theorem Memory.mem_write {m : List Host.Cell} {a : Nat} {v : Byte} {d : Host.Cell} (h : d ∈ Memory.write m a v) :
    d ∈ m ∨ d = (a, v) := by
  induction m with
  | nil =>
    rw [Memory.write] at h
    split at h <;> simp_all
  | cons c m ih =>
    rw [Memory.write] at h
    repeat' split at h
    all_goals simp only [List.mem_cons] at h ⊢
    all_goals tauto

/-- A write keeps the canonical form. -/
theorem Memory.write_wf {m : List Host.Cell} (a : Nat) (v : Byte) (h : Memory.wf m = true) :
    Memory.wf (Memory.write m a v) = true := by
  induction m with
  | nil =>
    rw [Memory.write]
    split
    · rfl
    · simp_all [Memory.wf]
  | cons c m ih =>
    obtain ⟨hc, hlt, hm⟩ := Memory.wf_cons.mp h
    rw [Memory.write]
    split
    · refine Memory.wf_cons.mpr ⟨hc, fun d hd => ?_, ih hm⟩
      rcases Memory.mem_write hd with hd | rfl
      · exact hlt d hd
      · assumption
    · split
      · split
        · exact hm
        · refine Memory.wf_cons.mpr ⟨‹_›, fun d hd => ?_, hm⟩
          have := hlt d hd
          simp only; omega
      · split
        · exact h
        · refine Memory.wf_cons.mpr ⟨‹_›, fun d hd => ?_, h⟩
          simp only [List.mem_cons] at hd
          rcases hd with rfl | hd
          · simp only; omega
          · have := hlt d hd
            simp only; omega

/-- Read after write: the address written reads the value written, every other reads as before. -/
theorem Memory.read_write {m : List Host.Cell} (a b : Nat) (v : Byte) (h : Memory.wf m = true) :
    Memory.read (Memory.write m a v) b = if b = a then v else Memory.read m b := by
  induction m with
  | nil =>
    rw [Memory.write]
    split
    · simp_all [Memory.read]
    · simp [Memory.read, eq_comm]
  | cons c m ih =>
    obtain ⟨hc, hlt, hm⟩ := Memory.wf_cons.mp h
    have below : ∀ x, x ≤ c.1 → Memory.read m x = erasedByte := fun x hx =>
      Memory.read_of_lt fun d hd => lt_of_le_of_lt hx (hlt d hd)
    rw [Memory.write]
    split
    · rw [Memory.read, Memory.read, ih hm]
      split <;> split <;> first | rfl | omega
    · split
      · rename_i hca
        split
        · by_cases hb : b = a
          · rw [if_pos hb, below b (by omega)]; simp_all
          · rw [if_neg hb, Memory.read, if_neg (by omega)]
        · by_cases hb : b = a
          · simp [Memory.read, hb]
          · rw [if_neg hb, Memory.read, if_neg (by simpa [eq_comm] using hb), Memory.read, if_neg (by omega)]
      · split
        · by_cases hb : b = a
          · rw [if_pos hb, Memory.read, if_neg (by omega), below b (by omega)]; simp_all
          · rw [if_neg hb]
        · by_cases hb : b = a
          · simp [Memory.read, hb]
          · rw [if_neg hb, Memory.read, if_neg (by simpa [eq_comm] using hb)]

/-- Several writes keep the canonical form. -/
theorem Memory.writeAll_wf {m : List Host.Cell} (cells : List Host.Cell) (h : Memory.wf m = true) :
    Memory.wf (Memory.writeAll m cells) = true := by
  induction cells generalizing m with
  | nil => exact h
  | cons c cs ih => exact ih (Memory.write_wf c.1 c.2 h)

/-- An address that is not among those written reads as before. -/
theorem Memory.read_writeAll_other {m : List Host.Cell} (cells : List Host.Cell) (b : Nat) (h : Memory.wf m = true)
    (hb : ∀ c ∈ cells, c.1 ≠ b) : Memory.read (Memory.writeAll m cells) b = Memory.read m b := by
  induction cells generalizing m with
  | nil => rfl
  | cons c cs ih =>
    have h1 := ih (m := Memory.write m c.1 c.2) (Memory.write_wf _ _ h) fun d hd => hb d (by simp [hd])
    have h2 := Memory.read_write c.1 b c.2 h
    rw [if_neg fun e => hb c (by simp) e.symm] at h2
    exact h1.trans h2

/-- A word write keeps the canonical form. -/
theorem Memory.writeWord_wf {m : List Host.Cell} (k : Nat) (w : Word) (h : Memory.wf m = true) :
    Memory.wf (Memory.writeWord m k w) = true := Memory.writeAll_wf _ h

/-- The bytes of a word that is written: word `k` is the bytes `4k` to `4k + 3`, least significant first. -/
theorem Memory.read_writeWord {m : List Host.Cell} (k : Nat) (w : Word) (b : Nat) (h : Memory.wf m = true) :
    Memory.read (Memory.writeWord m k w) b =
      if 4 * k ≤ b ∧ b < 4 * k + 4 then wordByte w (b - 4 * k) else Memory.read m b := by
  unfold Memory.writeWord Memory.writeAll
  simp only [List.foldl]
  have h0 := Memory.write_wf (4 * k) (wordByte w 0) h
  have h1 := Memory.write_wf (4 * k + 1) (wordByte w 1) h0
  have h2 := Memory.write_wf (4 * k + 2) (wordByte w 2) h1
  rw [Memory.read_write _ _ _ h2, Memory.read_write _ _ _ h1, Memory.read_write _ _ _ h0, Memory.read_write _ _ _ h]
  by_cases hb : 4 * k ≤ b ∧ b < 4 * k + 4
  · rw [if_pos hb]
    obtain e | e | e | e : b = 4 * k ∨ b = 4 * k + 1 ∨ b = 4 * k + 2 ∨ b = 4 * k + 3 := by omega
    all_goals subst e; simp
  · rw [if_neg hb, if_neg (by omega), if_neg (by omega), if_neg (by omega), if_neg (by omega)]

/-- A word reads back as it was written. -/
theorem Memory.readWord_writeWord {m : List Host.Cell} (k : Nat) (w : Word) (h : Memory.wf m = true) :
    Memory.readWord (Memory.writeWord m k w) k = w := by
  unfold Memory.readWord
  simp only [Memory.read_writeWord _ _ _ h]
  have e3 : 4 * k ≤ 4 * k + 3 ∧ 4 * k + 3 < 4 * k + 4 := by omega
  have e2 : 4 * k ≤ 4 * k + 2 ∧ 4 * k + 2 < 4 * k + 4 := by omega
  have e1 : 4 * k ≤ 4 * k + 1 ∧ 4 * k + 1 < 4 * k + 4 := by omega
  have e0 : 4 * k ≤ 4 * k ∧ 4 * k < 4 * k + 4 := by omega
  rw [if_pos e3, if_pos e2, if_pos e1, if_pos e0]
  simp only [Nat.add_sub_cancel_left, Nat.sub_self, wordByte]
  apply BitVec.eq_of_getLsbD_eq
  intro i hi
  simp only [BitVec.getLsbD_append, BitVec.getLsbD_extractLsb']
  repeat' split
  all_goals
    rw [decide_eq_true (by omega), Bool.true_and]
    congr 1
    omega

/-- A word of another place reads as before. -/
theorem Memory.readWord_writeWord_other {m : List Host.Cell} (j k : Nat) (w : Word) (h : Memory.wf m = true)
    (hjk : j ≠ k) : Memory.readWord (Memory.writeWord m k w) j = Memory.readWord m j := by
  unfold Memory.readWord
  simp only [Memory.read_writeWord _ _ _ h]
  rw [if_neg (by omega), if_neg (by omega), if_neg (by omega), if_neg (by omega)]

/-- Consecutive word writes keep the canonical form. -/
theorem Memory.writeWords_wf {m : List Host.Cell} (k : Nat) (ws : List Word) (h : Memory.wf m = true) :
    Memory.wf (Memory.writeWords m k ws) = true := by
  induction ws generalizing m k with
  | nil => exact h
  | cons w ws ih => exact ih (k + 1) (Memory.writeWord_wf k w h)

/-- A word outside the words written reads as before. -/
theorem Memory.readWord_writeWords_other {m : List Host.Cell} (k j : Nat) (ws : List Word) (h : Memory.wf m = true)
    (hj : j < k ∨ k + ws.length ≤ j) : Memory.readWord (Memory.writeWords m k ws) j = Memory.readWord m j := by
  induction ws generalizing m k with
  | nil => rfl
  | cons w ws ih =>
    rw [List.length_cons] at hj
    exact (ih (k + 1) (Memory.writeWord_wf k w h) (by omega)).trans
      (Memory.readWord_writeWord_other j k w h (by omega))

/-- Consecutive words read back as they were written. -/
theorem Memory.readWord_writeWords {m : List Host.Cell} (k j : Nat) (ws : List Word) (h : Memory.wf m = true)
    (hj : j < ws.length) : Memory.readWord (Memory.writeWords m k ws) (k + j) = ws[j] := by
  induction ws generalizing m k j with
  | nil => simp at hj
  | cons w ws ih =>
    cases j with
    | zero =>
      exact (Memory.readWord_writeWords_other (k + 1) k ws (Memory.writeWord_wf k w h) (by omega)).trans
        (Memory.readWord_writeWord k w h)
    | succ j =>
      have := ih (k + 1) j (Memory.writeWord_wf k w h) (by simpa using hj)
      rw [show k + 1 + j = k + (j + 1) by omega] at this
      exact this

/-- Erasing keeps the canonical form. -/
theorem Memory.erase_wf {m : List Host.Cell} (n : Nat) (h : Memory.wf m = true) : Memory.wf (Memory.erase m n) = true := by
  induction m with
  | nil => rfl
  | cons c m ih =>
    obtain ⟨hc, hlt, hm⟩ := Memory.wf_cons.mp h
    unfold Memory.erase at ih ⊢
    rw [List.filter_cons]
    split
    · exact Memory.wf_cons.mpr ⟨hc, fun d hd => hlt d (List.mem_filter.mp hd).1, ih hm⟩
    · exact ih hm

/-- After erasing, the bytes below `n` read as erased and the others as before. -/
theorem Memory.read_erase (m : List Host.Cell) (n a : Nat) :
    Memory.read (Memory.erase m n) a = if a < n then erasedByte else Memory.read m a := by
  induction m with
  | nil => simp [Memory.erase, Memory.read]
  | cons c m ih =>
    unfold Memory.erase at ih ⊢
    rw [List.filter_cons]
    by_cases hc : n ≤ c.1
    · rw [if_pos (by simpa using hc), Memory.read, Memory.read, ih]
      split <;> split <;> first | rfl | omega
    · rw [if_neg (by simpa using hc), ih, Memory.read]
      split
      · rfl
      · rw [if_neg (by omega)]

end Sys2Proof.Machine
end

