-- ==== Sys2Proof/Laws/State.lean ====
section
/-! SUPPORT. Each field after each named update, so that no proof unfolds a record update. -/

namespace Sys2Proof.Machine

/-! ## `State.setCons` -/

@[simp] theorem State.setCons_cfg (s : State) (v : List Consumer) : (s.setCons v).cfg = s.cfg := rfl
@[simp] theorem State.setCons_cons (s : State) (v : List Consumer) : (s.setCons v).cons = v := rfl
@[simp] theorem State.setCons_ioi (s : State) (v : List Consumer) : (s.setCons v).ioi = s.ioi := rfl
@[simp] theorem State.setCons_tables (s : State) (v : List Consumer) : (s.setCons v).tables = s.tables := rfl
@[simp] theorem State.setCons_busy (s : State) (v : List Consumer) : (s.setCons v).busy = s.busy := rfl
@[simp] theorem State.setCons_filter (s : State) (v : List Consumer) : (s.setCons v).filter = s.filter := rfl
@[simp] theorem State.setCons_store (s : State) (v : List Consumer) : (s.setCons v).store = s.store := rfl
@[simp] theorem State.setCons_flash (s : State) (v : List Consumer) : (s.setCons v).flash = s.flash := rfl
@[simp] theorem State.setCons_pending (s : State) (v : List Consumer) : (s.setCons v).pending = s.pending := rfl
@[simp] theorem State.setCons_draws (s : State) (v : List Consumer) : (s.setCons v).draws = s.draws := rfl
@[simp] theorem State.setCons_result (s : State) (v : List Consumer) : (s.setCons v).result = s.result := rfl
@[simp] theorem State.setCons_out (s : State) (v : List Consumer) : (s.setCons v).out = s.out := rfl

/-! ## `State.setIoi` -/

@[simp] theorem State.setIoi_cfg (s : State) (v : List Ident) : (s.setIoi v).cfg = s.cfg := rfl
@[simp] theorem State.setIoi_cons (s : State) (v : List Ident) : (s.setIoi v).cons = s.cons := rfl
@[simp] theorem State.setIoi_ioi (s : State) (v : List Ident) : (s.setIoi v).ioi = v := rfl
@[simp] theorem State.setIoi_tables (s : State) (v : List Ident) : (s.setIoi v).tables = s.tables := rfl
@[simp] theorem State.setIoi_busy (s : State) (v : List Ident) : (s.setIoi v).busy = s.busy := rfl
@[simp] theorem State.setIoi_filter (s : State) (v : List Ident) : (s.setIoi v).filter = s.filter := rfl
@[simp] theorem State.setIoi_store (s : State) (v : List Ident) : (s.setIoi v).store = s.store := rfl
@[simp] theorem State.setIoi_flash (s : State) (v : List Ident) : (s.setIoi v).flash = s.flash := rfl
@[simp] theorem State.setIoi_pending (s : State) (v : List Ident) : (s.setIoi v).pending = s.pending := rfl
@[simp] theorem State.setIoi_draws (s : State) (v : List Ident) : (s.setIoi v).draws = s.draws := rfl
@[simp] theorem State.setIoi_result (s : State) (v : List Ident) : (s.setIoi v).result = s.result := rfl
@[simp] theorem State.setIoi_out (s : State) (v : List Ident) : (s.setIoi v).out = s.out := rfl

/-! ## `State.setTables` -/

@[simp] theorem State.setTables_cfg (s : State) (v : Tables) : (s.setTables v).cfg = s.cfg := rfl
@[simp] theorem State.setTables_cons (s : State) (v : Tables) : (s.setTables v).cons = s.cons := rfl
@[simp] theorem State.setTables_ioi (s : State) (v : Tables) : (s.setTables v).ioi = s.ioi := rfl
@[simp] theorem State.setTables_tables (s : State) (v : Tables) : (s.setTables v).tables = v := rfl
@[simp] theorem State.setTables_busy (s : State) (v : Tables) : (s.setTables v).busy = s.busy := rfl
@[simp] theorem State.setTables_filter (s : State) (v : Tables) : (s.setTables v).filter = s.filter := rfl
@[simp] theorem State.setTables_store (s : State) (v : Tables) : (s.setTables v).store = s.store := rfl
@[simp] theorem State.setTables_flash (s : State) (v : Tables) : (s.setTables v).flash = s.flash := rfl
@[simp] theorem State.setTables_pending (s : State) (v : Tables) : (s.setTables v).pending = s.pending := rfl
@[simp] theorem State.setTables_draws (s : State) (v : Tables) : (s.setTables v).draws = s.draws := rfl
@[simp] theorem State.setTables_result (s : State) (v : Tables) : (s.setTables v).result = s.result := rfl
@[simp] theorem State.setTables_out (s : State) (v : Tables) : (s.setTables v).out = s.out := rfl

/-! ## `State.setBusy` -/

@[simp] theorem State.setBusy_cfg (s : State) (v : Bool) : (s.setBusy v).cfg = s.cfg := rfl
@[simp] theorem State.setBusy_cons (s : State) (v : Bool) : (s.setBusy v).cons = s.cons := rfl
@[simp] theorem State.setBusy_ioi (s : State) (v : Bool) : (s.setBusy v).ioi = s.ioi := rfl
@[simp] theorem State.setBusy_tables (s : State) (v : Bool) : (s.setBusy v).tables = s.tables := rfl
@[simp] theorem State.setBusy_busy (s : State) (v : Bool) : (s.setBusy v).busy = v := rfl
@[simp] theorem State.setBusy_filter (s : State) (v : Bool) : (s.setBusy v).filter = s.filter := rfl
@[simp] theorem State.setBusy_store (s : State) (v : Bool) : (s.setBusy v).store = s.store := rfl
@[simp] theorem State.setBusy_flash (s : State) (v : Bool) : (s.setBusy v).flash = s.flash := rfl
@[simp] theorem State.setBusy_pending (s : State) (v : Bool) : (s.setBusy v).pending = s.pending := rfl
@[simp] theorem State.setBusy_draws (s : State) (v : Bool) : (s.setBusy v).draws = s.draws := rfl
@[simp] theorem State.setBusy_result (s : State) (v : Bool) : (s.setBusy v).result = s.result := rfl
@[simp] theorem State.setBusy_out (s : State) (v : Bool) : (s.setBusy v).out = s.out := rfl

/-! ## `State.setFilter` -/

@[simp] theorem State.setFilter_cfg (s : State) (v : List Ident) : (s.setFilter v).cfg = s.cfg := rfl
@[simp] theorem State.setFilter_cons (s : State) (v : List Ident) : (s.setFilter v).cons = s.cons := rfl
@[simp] theorem State.setFilter_ioi (s : State) (v : List Ident) : (s.setFilter v).ioi = s.ioi := rfl
@[simp] theorem State.setFilter_tables (s : State) (v : List Ident) : (s.setFilter v).tables = s.tables := rfl
@[simp] theorem State.setFilter_busy (s : State) (v : List Ident) : (s.setFilter v).busy = s.busy := rfl
@[simp] theorem State.setFilter_filter (s : State) (v : List Ident) : (s.setFilter v).filter = v := rfl
@[simp] theorem State.setFilter_store (s : State) (v : List Ident) : (s.setFilter v).store = s.store := rfl
@[simp] theorem State.setFilter_flash (s : State) (v : List Ident) : (s.setFilter v).flash = s.flash := rfl
@[simp] theorem State.setFilter_pending (s : State) (v : List Ident) : (s.setFilter v).pending = s.pending := rfl
@[simp] theorem State.setFilter_draws (s : State) (v : List Ident) : (s.setFilter v).draws = s.draws := rfl
@[simp] theorem State.setFilter_result (s : State) (v : List Ident) : (s.setFilter v).result = s.result := rfl
@[simp] theorem State.setFilter_out (s : State) (v : List Ident) : (s.setFilter v).out = s.out := rfl

/-! ## `State.setStore` -/

@[simp] theorem State.setStore_cfg (s : State) (v : List Word) : (s.setStore v).cfg = s.cfg := rfl
@[simp] theorem State.setStore_cons (s : State) (v : List Word) : (s.setStore v).cons = s.cons := rfl
@[simp] theorem State.setStore_ioi (s : State) (v : List Word) : (s.setStore v).ioi = s.ioi := rfl
@[simp] theorem State.setStore_tables (s : State) (v : List Word) : (s.setStore v).tables = s.tables := rfl
@[simp] theorem State.setStore_busy (s : State) (v : List Word) : (s.setStore v).busy = s.busy := rfl
@[simp] theorem State.setStore_filter (s : State) (v : List Word) : (s.setStore v).filter = s.filter := rfl
@[simp] theorem State.setStore_store (s : State) (v : List Word) : (s.setStore v).store = v := rfl
@[simp] theorem State.setStore_flash (s : State) (v : List Word) : (s.setStore v).flash = s.flash := rfl
@[simp] theorem State.setStore_pending (s : State) (v : List Word) : (s.setStore v).pending = s.pending := rfl
@[simp] theorem State.setStore_draws (s : State) (v : List Word) : (s.setStore v).draws = s.draws := rfl
@[simp] theorem State.setStore_result (s : State) (v : List Word) : (s.setStore v).result = s.result := rfl
@[simp] theorem State.setStore_out (s : State) (v : List Word) : (s.setStore v).out = s.out := rfl

/-! ## `State.setFlash` -/

@[simp] theorem State.setFlash_cfg (s : State) (v : List Host.Cell) : (s.setFlash v).cfg = s.cfg := rfl
@[simp] theorem State.setFlash_cons (s : State) (v : List Host.Cell) : (s.setFlash v).cons = s.cons := rfl
@[simp] theorem State.setFlash_ioi (s : State) (v : List Host.Cell) : (s.setFlash v).ioi = s.ioi := rfl
@[simp] theorem State.setFlash_tables (s : State) (v : List Host.Cell) : (s.setFlash v).tables = s.tables := rfl
@[simp] theorem State.setFlash_busy (s : State) (v : List Host.Cell) : (s.setFlash v).busy = s.busy := rfl
@[simp] theorem State.setFlash_filter (s : State) (v : List Host.Cell) : (s.setFlash v).filter = s.filter := rfl
@[simp] theorem State.setFlash_store (s : State) (v : List Host.Cell) : (s.setFlash v).store = s.store := rfl
@[simp] theorem State.setFlash_flash (s : State) (v : List Host.Cell) : (s.setFlash v).flash = v := rfl
@[simp] theorem State.setFlash_pending (s : State) (v : List Host.Cell) : (s.setFlash v).pending = s.pending := rfl
@[simp] theorem State.setFlash_draws (s : State) (v : List Host.Cell) : (s.setFlash v).draws = s.draws := rfl
@[simp] theorem State.setFlash_result (s : State) (v : List Host.Cell) : (s.setFlash v).result = s.result := rfl
@[simp] theorem State.setFlash_out (s : State) (v : List Host.Cell) : (s.setFlash v).out = s.out := rfl

/-! ## `State.setPending` -/

@[simp] theorem State.setPending_cfg (s : State) (v : List Request) : (s.setPending v).cfg = s.cfg := rfl
@[simp] theorem State.setPending_cons (s : State) (v : List Request) : (s.setPending v).cons = s.cons := rfl
@[simp] theorem State.setPending_ioi (s : State) (v : List Request) : (s.setPending v).ioi = s.ioi := rfl
@[simp] theorem State.setPending_tables (s : State) (v : List Request) : (s.setPending v).tables = s.tables := rfl
@[simp] theorem State.setPending_busy (s : State) (v : List Request) : (s.setPending v).busy = s.busy := rfl
@[simp] theorem State.setPending_filter (s : State) (v : List Request) : (s.setPending v).filter = s.filter := rfl
@[simp] theorem State.setPending_store (s : State) (v : List Request) : (s.setPending v).store = s.store := rfl
@[simp] theorem State.setPending_flash (s : State) (v : List Request) : (s.setPending v).flash = s.flash := rfl
@[simp] theorem State.setPending_pending (s : State) (v : List Request) : (s.setPending v).pending = v := rfl
@[simp] theorem State.setPending_draws (s : State) (v : List Request) : (s.setPending v).draws = s.draws := rfl
@[simp] theorem State.setPending_result (s : State) (v : List Request) : (s.setPending v).result = s.result := rfl
@[simp] theorem State.setPending_out (s : State) (v : List Request) : (s.setPending v).out = s.out := rfl

/-! ## `State.setDraws` -/

@[simp] theorem State.setDraws_cfg (s : State) (v : Nat) : (s.setDraws v).cfg = s.cfg := rfl
@[simp] theorem State.setDraws_cons (s : State) (v : Nat) : (s.setDraws v).cons = s.cons := rfl
@[simp] theorem State.setDraws_ioi (s : State) (v : Nat) : (s.setDraws v).ioi = s.ioi := rfl
@[simp] theorem State.setDraws_tables (s : State) (v : Nat) : (s.setDraws v).tables = s.tables := rfl
@[simp] theorem State.setDraws_busy (s : State) (v : Nat) : (s.setDraws v).busy = s.busy := rfl
@[simp] theorem State.setDraws_filter (s : State) (v : Nat) : (s.setDraws v).filter = s.filter := rfl
@[simp] theorem State.setDraws_store (s : State) (v : Nat) : (s.setDraws v).store = s.store := rfl
@[simp] theorem State.setDraws_flash (s : State) (v : Nat) : (s.setDraws v).flash = s.flash := rfl
@[simp] theorem State.setDraws_pending (s : State) (v : Nat) : (s.setDraws v).pending = s.pending := rfl
@[simp] theorem State.setDraws_draws (s : State) (v : Nat) : (s.setDraws v).draws = v := rfl
@[simp] theorem State.setDraws_result (s : State) (v : Nat) : (s.setDraws v).result = s.result := rfl
@[simp] theorem State.setDraws_out (s : State) (v : Nat) : (s.setDraws v).out = s.out := rfl

/-! ## `State.setResult` -/

@[simp] theorem State.setResult_cfg (s : State) (v : Result) : (s.setResult v).cfg = s.cfg := rfl
@[simp] theorem State.setResult_cons (s : State) (v : Result) : (s.setResult v).cons = s.cons := rfl
@[simp] theorem State.setResult_ioi (s : State) (v : Result) : (s.setResult v).ioi = s.ioi := rfl
@[simp] theorem State.setResult_tables (s : State) (v : Result) : (s.setResult v).tables = s.tables := rfl
@[simp] theorem State.setResult_busy (s : State) (v : Result) : (s.setResult v).busy = s.busy := rfl
@[simp] theorem State.setResult_filter (s : State) (v : Result) : (s.setResult v).filter = s.filter := rfl
@[simp] theorem State.setResult_store (s : State) (v : Result) : (s.setResult v).store = s.store := rfl
@[simp] theorem State.setResult_flash (s : State) (v : Result) : (s.setResult v).flash = s.flash := rfl
@[simp] theorem State.setResult_pending (s : State) (v : Result) : (s.setResult v).pending = s.pending := rfl
@[simp] theorem State.setResult_draws (s : State) (v : Result) : (s.setResult v).draws = s.draws := rfl
@[simp] theorem State.setResult_result (s : State) (v : Result) : (s.setResult v).result = v := rfl
@[simp] theorem State.setResult_out (s : State) (v : Result) : (s.setResult v).out = s.out := rfl

/-! ## `State.setOut` -/

@[simp] theorem State.setOut_cfg (s : State) (v : List PortCall) : (s.setOut v).cfg = s.cfg := rfl
@[simp] theorem State.setOut_cons (s : State) (v : List PortCall) : (s.setOut v).cons = s.cons := rfl
@[simp] theorem State.setOut_ioi (s : State) (v : List PortCall) : (s.setOut v).ioi = s.ioi := rfl
@[simp] theorem State.setOut_tables (s : State) (v : List PortCall) : (s.setOut v).tables = s.tables := rfl
@[simp] theorem State.setOut_busy (s : State) (v : List PortCall) : (s.setOut v).busy = s.busy := rfl
@[simp] theorem State.setOut_filter (s : State) (v : List PortCall) : (s.setOut v).filter = s.filter := rfl
@[simp] theorem State.setOut_store (s : State) (v : List PortCall) : (s.setOut v).store = s.store := rfl
@[simp] theorem State.setOut_flash (s : State) (v : List PortCall) : (s.setOut v).flash = s.flash := rfl
@[simp] theorem State.setOut_pending (s : State) (v : List PortCall) : (s.setOut v).pending = s.pending := rfl
@[simp] theorem State.setOut_draws (s : State) (v : List PortCall) : (s.setOut v).draws = s.draws := rfl
@[simp] theorem State.setOut_result (s : State) (v : List PortCall) : (s.setOut v).result = s.result := rfl
@[simp] theorem State.setOut_out (s : State) (v : List PortCall) : (s.setOut v).out = v := rfl

/-! ## `emit` -/

@[simp] theorem emit_cfg (c : PortCall) (s : State) : (emit c s).cfg = s.cfg := rfl
@[simp] theorem emit_cons (c : PortCall) (s : State) : (emit c s).cons = s.cons := rfl
@[simp] theorem emit_ioi (c : PortCall) (s : State) : (emit c s).ioi = s.ioi := rfl
@[simp] theorem emit_tables (c : PortCall) (s : State) : (emit c s).tables = s.tables := rfl
@[simp] theorem emit_busy (c : PortCall) (s : State) : (emit c s).busy = s.busy := rfl
@[simp] theorem emit_filter (c : PortCall) (s : State) : (emit c s).filter = s.filter := rfl
@[simp] theorem emit_store (c : PortCall) (s : State) : (emit c s).store = s.store := rfl
@[simp] theorem emit_flash (c : PortCall) (s : State) : (emit c s).flash = s.flash := rfl
@[simp] theorem emit_pending (c : PortCall) (s : State) : (emit c s).pending = s.pending := rfl
@[simp] theorem emit_draws (c : PortCall) (s : State) : (emit c s).draws = s.draws := rfl
@[simp] theorem emit_result (c : PortCall) (s : State) : (emit c s).result = s.result := rfl
@[simp] theorem emit_out (c : PortCall) (s : State) : (emit c s).out = s.out ++ [c] := rfl

end Sys2Proof.Machine
end

