-- ==== Sys2Proof/Laws/Ops.lean ====
section
/-! SUPPORT. One lemma for each shared operation of Machine/Ops.lean and Machine/Flags.lean: all that it can do. -/

namespace Sys2Proof.Machine

/-! ## Outcomes -/

/-- `finish` answers the state with its result written. -/
theorem finish_eq (r : Result) (s : State) : finish r s = .next { s with result := r } := rfl

/-- `finish` answers `t` exactly when `t` is the state with its result written. -/
theorem finish_next {r : Result} {s t : State} : finish r s = .next t ↔ t = { s with result := r } := by
  rw [finish_eq]
  exact ⟨fun h => by cases h; rfl, fun h => by rw [h]⟩

/-- The error return changes nothing but the result (R258). -/
theorem errorReturn_eq (e : ErrCode) (s : State) : errorReturn e s = .next { s with result := .error e } := rfl

/-- What stands behind `whenSound` runs exactly from sound tables. -/
theorem whenSound_next {s t : State} {k : Host.Outcome State Fault Refusal} :
    whenSound s k = .next t ↔ Sound s ∧ k = .next t := by
  unfold whenSound Sound
  split <;> simp_all

/-- From sound tables `whenSound` is transparent. -/
theorem whenSound_of_sound {s : State} {k : Host.Outcome State Fault Refusal} (h : Sound s) : whenSound s k = k :=
  if_pos h

/-- From broken tables nothing runs. -/
theorem whenSound_of_not_sound {s : State} {k : Host.Outcome State Fault Refusal} (h : ¬ Sound s) :
    whenSound s k = .refused .brokenTables := if_neg h

/-- What stands behind `whenIdle` runs exactly while the gate is open. -/
theorem whenIdle_next {s t : State} {k : Host.Outcome State Fault Refusal} :
    whenIdle s k = .next t ↔ s.busy = false ∧ k = .next t := by
  unfold whenIdle
  split <;> simp_all

/-- While the gate is open `whenIdle` is transparent. -/
theorem whenIdle_of_idle {s : State} {k : Host.Outcome State Fault Refusal} (h : s.busy = false) :
    whenIdle s k = k := by simp [whenIdle, h]

/-- While the gate is closed nothing behind `whenIdle` runs. -/
theorem whenIdle_of_busy {s : State} {k : Host.Outcome State Fault Refusal} (h : s.busy = true) :
    whenIdle s k = .refused .tableBusy := by simp [whenIdle, h]

/-! ## Draws -/

/-- A draw advances the counter and nothing else. -/
theorem drawWord_snd (s : State) : (drawWord s).2 = { s with draws := s.draws + 1 } := rfl
/-- A draw advances the counter and nothing else. -/
theorem drawNat_snd (s : State) : (drawNat s).2 = { s with draws := s.draws + 1 } := rfl
/-- A draw advances the counter and nothing else. -/
theorem drawBool_snd (s : State) : (drawBool s).2 = { s with draws := s.draws + 1 } := rfl

/-- A given value is answered as it is. -/
@[simp] theorem wordOrDraw_some (w : Word) (s : State) : wordOrDraw (some w) s = (w, s) := rfl
/-- A missing value is drawn. -/
@[simp] theorem wordOrDraw_none (s : State) : wordOrDraw none s = drawWord s := rfl

/-- The counter is all that `wordOrDraw` can write. -/
theorem wordOrDraw_snd (v : Option Word) (s : State) :
    ∃ n, s.draws ≤ n ∧ (wordOrDraw v s).2 = { s with draws := n } := by
  cases v with
  | some w => exact ⟨s.draws, le_rfl, rfl⟩
  | none => exact ⟨s.draws + 1, Nat.le_succ _, rfl⟩

/-! ## Port calls -/

/-- `emit` appends one call. -/
theorem emit_eq (c : PortCall) (s : State) : emit c s = { s with out := s.out ++ [c] } := rfl

/-- A send appends one call. -/
theorem btSend_eq (id : Ident) (p : Payload) (s : State) :
    btSend id p s = { s with out := s.out ++ [.btSend id p.lo p.hi] } := rfl

/-- Configuring the filter keeps its list and appends one call. -/
theorem btConfigureFilter_eq (ids : List Ident) (s : State) :
    btConfigureFilter ids s = { s with filter := ids, out := s.out ++ [.btConfigureFilter ids] } := rfl

/-! ## The acceptance list -/

/-- ADD_IOI's two cases (R132). -/
theorem addIdent_eq (id : Ident) (s : State) :
    addIdent id s =
      if id ∉ s.ioi ∧ s.ioi.length < s.cfg.maxIoi then
        (true, { s with ioi := s.ioi ++ [id], filter := s.ioi ++ [id],
                        out := s.out ++ [.btConfigureFilter (s.ioi ++ [id])] })
      else (false, s) := by
  unfold addIdent
  by_cases h : id ∈ s.ioi
  · simp [h]
  · by_cases hl : s.cfg.maxIoi ≤ s.ioi.length
    · simp [h, hl, Nat.not_lt.mpr hl]
    · simp [h, hl, Nat.lt_of_not_le hl, btConfigureFilter_eq, State.setIoi]

/-- ADD_IOI writes the list, the filter and the port calls only. -/
theorem addIdent_frame (id : Ident) (s : State) :
    (addIdent id s).2 =
      { s with ioi := (addIdent id s).2.ioi, filter := (addIdent id s).2.filter, out := (addIdent id s).2.out } := by
  rw [addIdent_eq]
  split <;> rfl

/-- ADD_IOI keeps the acceptance list's invariant. -/
theorem addIdent_acceptance (id : Ident) (s : State) (h : AcceptanceOk s) : AcceptanceOk (addIdent id s).2 := by
  obtain ⟨hn, hl, hf⟩ := h
  rw [addIdent_eq]
  split
  · rename_i hc
    refine ⟨?_, ?_, rfl⟩
    · simp only [List.nodup_append, hn, true_and, List.nodup_singleton]
      simp only [List.mem_singleton]
      rintro a ha b rfl rfl
      exact hc.1 ha
    · simp only [List.length_append, List.length_singleton]
      omega
  · exact ⟨hn, hl, hf⟩

/-- ADD_IOI only appends to the list, and only the identifier. -/
theorem addIdent_ioi (id : Ident) (s : State) :
    (addIdent id s).2.ioi = s.ioi ∨ (addIdent id s).2.ioi = s.ioi ++ [id] := by
  rw [addIdent_eq]
  split
  · exact .inr rfl
  · exact .inl rfl

/-- Several ADD_IOI write the list, the filter and the port calls only. -/
theorem addIdents_frame (ids : List Ident) (s : State) :
    addIdents ids s =
      { s with ioi := (addIdents ids s).ioi, filter := (addIdents ids s).filter, out := (addIdents ids s).out } := by
  induction ids generalizing s with
  | nil => rfl
  | cons id ids ih =>
    rw [addIdents, ih]
    rw [addIdent_frame]

/-- Several ADD_IOI keep the acceptance list's invariant. -/
theorem addIdents_acceptance (ids : List Ident) (s : State) (h : AcceptanceOk s) : AcceptanceOk (addIdents ids s) := by
  induction ids generalizing s with
  | nil => exact h
  | cons id ids ih => exact ih _ (addIdent_acceptance id s h)

/-- The list that several ADD_IOI leave. -/
theorem addIdents_ioi (ids : List Ident) (s : State) :
    (addIdents ids s).ioi = registered s.cfg.maxIoi s.ioi ids := by
  induction ids generalizing s with
  | nil => rfl
  | cons id ids ih =>
    rw [addIdents, ih, registered, addIdent_frame, addIdent_eq]
    split <;> rfl

/-- Registration only appends to the list. -/
theorem registered_prefix (m : Nat) (l ids : List Ident) : l <+: registered m l ids := by
  induction ids generalizing l with
  | nil => exact List.prefix_rfl
  | cons id ids ih =>
    rw [registered]
    refine List.IsPrefix.trans ?_ (ih _)
    split
    · exact List.prefix_append _ _
    · exact List.prefix_rfl

/-- Several ADD_IOI in order, once and for all: the list, the filter, the calls (R132). -/
theorem addIdents_eq (ids : List Ident) (s : State) : addIdents ids s = withRegistered ids s := by
  induction ids generalizing s with
  | nil => simp [addIdents, withRegistered, registered, registrationCalls]
  | cons id ids ih =>
    rw [addIdents, ih, addIdent_frame, addIdent_eq]
    by_cases h : id ∉ s.ioi ∧ s.ioi.length < s.cfg.maxIoi
    · have hn : registered s.cfg.maxIoi (s.ioi ++ [id]) ids ≠ s.ioi := fun e => by
        have := (registered_prefix s.cfg.maxIoi (s.ioi ++ [id]) ids).length_le
        simp [e] at this
      simpa [withRegistered, registered, registrationCalls, h, hn] using Eq.symm
    · simp [withRegistered, registered, registrationCalls, h]

/-! ## The Parameter Store -/

/-- `PS.getFloat` writes the draws and the port calls only. -/
theorem psGetFloat_frame (p : Nat) (s : State) :
    ∃ n, s.draws ≤ n ∧ (psGetFloat p s).2 = { s with draws := n, out := s.out ++ [.psGetFloat p] } := by
  obtain ⟨n, hn, h⟩ := wordOrDraw_snd (storeGetFloat s.cfg s.store p) (emit (.psGetFloat p) s)
  exact ⟨n, hn, h⟩

/-- `PS.getRaw` answers a function of the store and appends one call. -/
theorem psGetRaw_eq (p : Nat) (s : State) :
    psGetRaw p s = (storeGetRaw s.cfg s.store p, { s with out := s.out ++ [.psGetRaw p] }) := rfl

/-- `PS.kind` of a parameter whose kind is known. -/
theorem psKind_some {p : Nat} {s : State} {k : ParamKind} (h : storeKind s.cfg p = some k) :
    psKind p s = (k, { s with out := s.out ++ [.psKind p] }) := by
  simp only [psKind, h]
  rfl

/-- `PS.kind` writes the draws and the port calls only. -/
theorem psKind_frame (p : Nat) (s : State) :
    ∃ n, s.draws ≤ n ∧ (psKind p s).2 = { s with draws := n, out := s.out ++ [.psKind p] } := by
  unfold psKind
  cases storeKind s.cfg p with
  | some k => exact ⟨s.draws, le_rfl, rfl⟩
  | none => exact ⟨s.draws + 1, Nat.le_succ _, rfl⟩

/-- `PS.setFromFloat` of a parameter whose kind is known: one write through the path of that kind. -/
theorem psSetFromFloat_some {p : Nat} {s : State} {k : ParamKind} (f : F32) (h : storeKind s.cfg p = some k) :
    psSetFromFloat p f s =
      { s with store := setCells k s.cfg s.store p f, out := s.out ++ [.psKind p, setCall k p f] } := by
  unfold psSetFromFloat
  rw [psKind_some h]
  cases k <;> simp [emit_eq, setCells, setCall, State.setStore]

/-- `PS.setFromFloat` writes the store, the draws and the port calls only, through the path of one kind. -/
theorem psSetFromFloat_frame (p : Nat) (f : F32) (s : State) :
    ∃ k n, s.draws ≤ n ∧ psSetFromFloat p f s =
      { s with store := setCells k s.cfg s.store p f, draws := n, out := s.out ++ [.psKind p, setCall k p f] } := by
  obtain ⟨n, hn, h⟩ := psKind_frame p s
  unfold psSetFromFloat
  cases hk : (psKind p s).1
  · exact ⟨.fixed, n, hn, by simp [h, hk, emit_eq, setCells, setCall, State.setStore]⟩
  · exact ⟨.float, n, hn, by simp [h, hk, emit_eq, setCells, setCall, State.setStore]⟩

/-- `PS.setRaw` answers what the store answers: it takes the word, or rejects it and changes nothing (R203). -/
theorem psSetRaw_eq (p : Nat) (w : Word) (s : State) :
    psSetRaw p w s =
      (storeAcceptsRaw s.cfg s.store p w,
        { s with store := if storeAcceptsRaw s.cfg s.store p w then storeSetRaw s.cfg s.store p w else s.store
                 out := s.out ++ [.psSetRaw p w] }) := by
  unfold psSetRaw
  cases storeAcceptsRaw s.cfg s.store p w <;> rfl

/-- The two translations answer a function of the configuration and append one call. -/
theorem psIdFromNum_eq (n : Nat) (s : State) :
    psIdFromNum n s = (storeIdFromNum s.cfg n, { s with out := s.out ++ [.psIdFromNum n] }) := rfl
/-- The two translations answer a function of the configuration and append one call. -/
theorem psNumFromId_eq (pid : Nat) (s : State) :
    psNumFromId pid s = (storeNumFromId s.cfg pid, { s with out := s.out ++ [.psNumFromId pid] }) := rfl

/-! ## External consumers -/

/-- What an external consumer does outside the block writes the store, the flash and the draws only. -/
theorem extOutside_eq (s : State) :
    extOutside s = { s with store := Config.freeWords s.draws
                            flash := Memory.writeAll s.flash (Config.freeCells s.draws)
                            draws := s.draws + 1 } := rfl

/-- An external receive handler takes four draws, appends one call, and writes the store and the flash. -/
theorem extRx_state (n : Nat) (id : Ident) (b : Payload) (s : State) :
    (extRx n id b s).2.2 =
      { s with store := Config.freeWords (s.draws + 3)
               flash := Memory.writeAll s.flash (Config.freeCells (s.draws + 3))
               draws := s.draws + 4
               out := s.out ++ [.extRx n id b] } := by
  simp only [extRx, extOutside_eq, drawWord_snd, drawBool_snd, emit_eq]

/-- Drawn registrations write the list, the filter, the draws and the port calls only. -/
theorem addDrawnIdents_frame (k : Nat) (s : State) :
    addDrawnIdents k s =
      { s with
        ioi := (addDrawnIdents k s).ioi
        filter := (addDrawnIdents k s).filter
        draws := (addDrawnIdents k s).draws
        out := (addDrawnIdents k s).out } := by
  induction k generalizing s with
  | zero => rfl
  | succ k ih =>
    rw [addDrawnIdents, ih]
    simp only [drawWord_snd]
    rw [addIdent_frame]

/-- Drawn registrations keep the acceptance list's invariant. -/
theorem addDrawnIdents_acceptance (k : Nat) (s : State) (h : AcceptanceOk s) : AcceptanceOk (addDrawnIdents k s) := by
  induction k generalizing s with
  | zero => exact h
  | succ k ih => exact ih _ (addIdent_acceptance _ _ h)

/-- An external list-cleared handler: one call, anything outside the block, drawn registrations. -/
theorem extCleared_eq (n : Nat) (s : State) :
    extCleared n s = addDrawnIdents (Config.freeNat s.draws)
      { s with store := Config.freeWords (s.draws + 1)
               flash := Memory.writeAll s.flash (Config.freeCells (s.draws + 1))
               draws := s.draws + 2
               out := s.out ++ [.extCleared n] } := by
  simp only [extCleared, extOutside_eq, drawNat_snd, emit_eq]
  rfl

/-- Drawn registrations are registrations of the words drawn, in order. -/
theorem addDrawnIdents_eq (k : Nat) (s : State) :
    addDrawnIdents k s =
      withRegistered ((List.range k).map fun i => Config.freeWord (s.draws + i)) { s with draws := s.draws + k } := by
  induction k generalizing s with
  | zero => simp [addDrawnIdents, withRegistered, registered, registrationCalls]
  | succ k ih =>
    rw [addDrawnIdents, ih, ← addIdents_eq, ← addIdents_eq, List.range_succ_eq_map, List.map_cons, addIdents, drawWord_snd]
    have hd : (drawWord s).1 = Config.freeWord (s.draws + 0) := rfl
    have hw : (fun i => Config.freeWord (s.draws + 1 + i)) = fun i => Config.freeWord (s.draws + (i + 1)) :=
      funext fun i => congrArg _ (by omega)
    have hk : s.draws + 1 + k = s.draws + (k + 1) := by omega
    simp only [hd, addIdent_eq, List.map_map, Function.comp_def, Nat.succ_eq_add_one]
    split <;> simp only [hw, hk]

/-- What the notification of an external consumer leaves (R133, R135). -/
theorem extCleared_notified (n : Nat) (s : State) : extCleared n s = notified s (.ext n) := by
  rw [extCleared_eq, addDrawnIdents_eq]
  rfl

/-- An external list-cleared handler leaves the configuration, the consumers, the tables, the gate, the requests and the
result. -/
theorem extCleared_frame (n : Nat) (s : State) :
    extCleared n s =
      { s with
        ioi := (extCleared n s).ioi
        filter := (extCleared n s).filter
        store := (extCleared n s).store
        flash := (extCleared n s).flash
        draws := (extCleared n s).draws
        out := (extCleared n s).out } := by
  rw [extCleared_eq, addDrawnIdents_frame]

/-- An external list-cleared handler keeps the acceptance list's invariant. -/
theorem extCleared_acceptance (n : Nat) (s : State) (h : AcceptanceOk s) : AcceptanceOk (extCleared n s) :=
  addDrawnIdents_acceptance _ _ h

end Sys2Proof.Machine
end

