-- ==== Sys2Proof/Laws/Handlers.lean ====
section
/-! SUPPORT. What the codec, the SDO handler, the mapping consumer and the parameter-reference remap can write. -/

namespace Sys2Proof.Machine

/-! ## Arena -/

/-- The table just written. -/
@[simp] theorem entriesOf_setEntries_same (t : Tables) (d : Dir) (es : List Entry) : entriesOf (setEntries t d es) d = es := by
  cases d <;> rfl

/-- The other direction's table stays (R27). -/
theorem entriesOf_setEntries_other (t : Tables) (d d' : Dir) (es : List Entry) (h : d' ≠ d) :
    entriesOf (setEntries t d es) d' = entriesOf t d' := by
  cases d <;> cases d' <;> first | rfl | exact absurd rfl h

/-- Writing a table leaves the pool. -/
@[simp] theorem setEntries_pool (t : Tables) (d : Dir) (es : List Entry) : (setEntries t d es).pool = t.pool := by
  cases d <;> rfl

/-- Writing a slot leaves the tables of entries. -/
@[simp] theorem entriesOf_putSlot (t : Tables) (j : Nat) (b : Slot) (d : Dir) : entriesOf (putSlot t j b) d = entriesOf t d := by
  cases d <;> rfl

/-- Writing a slot's link leaves the tables of entries. -/
@[simp] theorem entriesOf_putNext (t : Tables) (j : Nat) (l : Link) (d : Dir) : entriesOf (putNext t j l) d = entriesOf t d := by
  cases d <;> rfl

/-- Writing an entry leaves the pool. -/
@[simp] theorem putEntry_pool (t : Tables) (d : Dir) (i : Nat) (e : Entry) : (putEntry t d i e).pool = t.pool := by
  simp [putEntry]

/-- A walk of an END link visits nothing. -/
@[simp] theorem walk_endMark (pool : List Slot) (fuel : Nat) : walk pool fuel .endMark = some [] := by
  cases fuel <;> rfl

/-- A walk never enters a free link (R26). -/
@[simp] theorem walk_freeMark (pool : List Slot) (fuel : Nat) : walk pool fuel .freeMark = none := by
  cases fuel <;> rfl

/-- An entry without a chain has no slots. -/
@[simp] theorem chain_endMark (t : Tables) : chain t .endMark = [] := by simp [chain]

/-- Rewriting parameter references leaves every walk. -/
theorem walk_map_param (f : Slot → Slot) (hf : ∀ b, (f b).next = b.next) (pool : List Slot) (fuel : Nat) (l : Link) :
    walk (pool.map f) fuel l = walk pool fuel l := by
  induction fuel generalizing l with
  | zero => cases l <;> simp [walk]
  | succ fuel ih =>
    cases l with
    | endMark => simp
    | freeMark => simp
    | slot j =>
      simp only [walk, List.getElem?_map]
      cases pool[j]? with
      | none => rfl
      | some b => simp [hf, ih]

/-! ## Bit Codec -/

/-- Reading a slot can only take draws. -/
theorem readSlot_frame (j : Nat) (s : State) : ∃ n, s.draws ≤ n ∧ (readSlot j s).2 = { s with draws := n } := by
  unfold readSlot
  split
  · exact ⟨s.draws, le_rfl, rfl⟩
  · exact ⟨s.draws + 5, Nat.le_add_right _ _, rfl⟩

/-- A used slot is read as it is. -/
theorem readSlot_used {j : Nat} {s : State} (h : slotUsed (slotAt s.tables j) = true) :
    readSlot j s = (slotAt s.tables j, s) := by simp [readSlot, h]

/-- UNPACK of a binding writes the store, the draws and the port calls only. -/
theorem unpackSlot_frame (buf : Payload) (b : Slot) (s : State) :
    ∃ cells n calls, s.draws ≤ n ∧ framesOf calls = [] ∧
      unpackSlot buf b s = { s with store := cells, draws := n, out := s.out ++ calls } := by
  have calls (k : ParamKind) (p : Nat) (f : F32) : framesOf [.psKind p, setCall k p f] = [] := by cases k <;> rfl
  unfold unpackSlot
  split
  · obtain ⟨k, n, hn, h⟩ := psSetFromFloat_frame b.param (drawWord s).1 (drawWord s).2
    exact ⟨_, n, _, Nat.le_of_succ_le hn, calls k _ _, h⟩
  · obtain ⟨k, n, hn, h⟩ := psSetFromFloat_frame b.param (unpackValue b buf) s
    exact ⟨_, n, _, hn, calls k _ _, h⟩

/-- UNPACK of a slot writes the store, the draws and the port calls only. -/
theorem unpackAt_frame (buf : Payload) (j : Nat) (s : State) :
    ∃ cells n calls, s.draws ≤ n ∧ framesOf calls = [] ∧
      unpackAt buf j s = { s with store := cells, draws := n, out := s.out ++ calls } := by
  obtain ⟨n, hn, h⟩ := readSlot_frame j s
  obtain ⟨cells, n', calls, hn', hc, h'⟩ := unpackSlot_frame buf (readSlot j s).1 (readSlot j s).2
  refine ⟨cells, n', calls, ?_, hc, ?_⟩
  · rw [h] at hn'; exact hn.trans hn'
  · rw [unpackAt, h', h]

/-- UNPACK of a chain writes the store, the draws and the port calls only. -/
theorem unpackChain_frame (buf : Payload) (js : List Nat) (s : State) :
    ∃ cells n calls, s.draws ≤ n ∧ framesOf calls = [] ∧
      unpackChain buf js s = { s with store := cells, draws := n, out := s.out ++ calls } := by
  induction js generalizing s with
  | nil => exact ⟨s.store, s.draws, [], le_rfl, rfl, by simp [unpackChain]⟩
  | cons j js ih =>
    obtain ⟨c1, n1, o1, hn1, hc1, h1⟩ := unpackAt_frame buf j s
    obtain ⟨c2, n2, o2, hn2, hc2, h2⟩ := ih (unpackAt buf j s)
    refine ⟨c2, n2, o1 ++ o2, ?_, ?_, ?_⟩
    · rw [h1] at hn2; exact hn1.trans hn2
    · unfold framesOf at *; rw [List.filterMap_append, hc1, hc2]; rfl
    · rw [unpackChain, h2, h1]; simp

/-- PACK of a binding writes the draws and the port calls only, and sends nothing. -/
theorem packSlot_frame (t : Payload) (b : Slot) (s : State) :
    ∃ n calls, s.draws ≤ n ∧ framesOf calls = [] ∧
      (packSlot t b s).2 = { s with draws := n, out := s.out ++ calls } := by
  unfold packSlot
  split
  · exact ⟨s.draws + 2, [], Nat.le_add_right _ _, rfl, by simp [drawWord_snd]⟩
  · obtain ⟨n1, hn1, h1⟩ := psGetFloat_frame b.param s
    obtain ⟨n2, hn2, h2⟩ := wordOrDraw_snd (f32TruncI32 (packScaled b (psGetFloat b.param s).1)) (psGetFloat b.param s).2
    refine ⟨n2, [.psGetFloat b.param], ?_, rfl, ?_⟩
    · rw [h1] at hn2; exact hn1.trans hn2
    · dsimp only
      rw [h2, h1]

/-- PACK of a slot writes the draws and the port calls only, and sends nothing. -/
theorem packAt_frame (t : Payload) (j : Nat) (s : State) :
    ∃ n calls, s.draws ≤ n ∧ framesOf calls = [] ∧
      (packAt t j s).2 = { s with draws := n, out := s.out ++ calls } := by
  obtain ⟨n, hn, h⟩ := readSlot_frame j s
  obtain ⟨n', calls, hn', hc, h'⟩ := packSlot_frame t (readSlot j s).1 (readSlot j s).2
  refine ⟨n', calls, ?_, hc, ?_⟩
  · rw [h] at hn'; exact hn.trans hn'
  · rw [packAt, h', h]

/-- PACK of a chain writes the draws and the port calls only, and sends nothing. -/
theorem packChain_frame (js : List Nat) (t : Payload) (s : State) :
    ∃ n calls, s.draws ≤ n ∧ framesOf calls = [] ∧
      (packChain js t s).2 = { s with draws := n, out := s.out ++ calls } := by
  induction js generalizing t s with
  | nil => exact ⟨s.draws, [], le_rfl, rfl, by simp [packChain]⟩
  | cons j js ih =>
    obtain ⟨n1, o1, hn1, hc1, h1⟩ := packAt_frame t j s
    obtain ⟨n2, o2, hn2, hc2, h2⟩ := ih (packAt t j s).1 (packAt t j s).2
    refine ⟨n2, o1 ++ o2, ?_, ?_, ?_⟩
    · rw [h1] at hn2; exact hn1.trans hn2
    · unfold framesOf at *; rw [List.filterMap_append, hc1, hc2]; rfl
    · rw [packChain, h2, h1]; simp

/-- The sweep writes the draws and the port calls only. -/
theorem sweepEntries_frame (es : List Entry) (s : State) :
    ∃ n calls, s.draws ≤ n ∧ sweepEntries es s = { s with draws := n, out := s.out ++ calls } := by
  induction es generalizing s with
  | nil => exact ⟨s.draws, [], le_rfl, by simp [sweepEntries]⟩
  | cons e es ih =>
    rw [sweepEntries]
    split
    · obtain ⟨n1, o1, hn1, -, h1⟩ := packChain_frame (chain s.tables e.head) ⟨0, 0⟩ s
      obtain ⟨n2, o2, hn2, h2⟩ := ih (btSend e.id (packChain (chain s.tables e.head) ⟨0, 0⟩ s).1
        (packChain (chain s.tables e.head) ⟨0, 0⟩ s).2)
      refine ⟨n2, o1 ++ ([.btSend e.id (packChain (chain s.tables e.head) ⟨0, 0⟩ s).1.lo
        (packChain (chain s.tables e.head) ⟨0, 0⟩ s).1.hi] ++ o2), ?_, ?_⟩
      · rw [btSend_eq, h1] at hn2; exact hn1.trans hn2
      · dsimp only
        rw [h2, btSend_eq, h1]
        simp only [List.append_assoc]
    · exact ih s

/-! ## Mapping Table operations inside other operations -/

/-- ADD's transition, where it succeeds: the tables, and for a receive binding what ADD_IOI writes (R155). -/
theorem addBinding_ok {d : Dir} {p : Nat} {id : Ident} {o w : Byte} {g : F32} {k : Word} {s : State}
    {r : Nat × State} (h : addBinding d p id o w g k s = .ok r) :
    id.toNat ≤ 0x1FFFFFFF ∧ o.toNat ≤ 63 ∧ w.toNat ≤ 32 ∧
      ∃ t, linkBinding s.tables d id (newBinding s.cfg p o w g k) = .ok t ∧ r.1 = usedCount t d ∧
        r.2 = (if d = .recv then (addIdent id (s.setTables t)).2 else s.setTables t) := by
  unfold addBinding at h
  split at h <;> [cases h; skip]
  split at h <;> [cases h; skip]
  split at h <;> [cases h; skip]
  refine ⟨by omega, by omega, by omega, ?_⟩
  split at h <;> [cases h; skip]
  rename_i t ht
  cases h
  refine ⟨t, ht, rfl, ?_⟩
  cases d <;> rfl

/-- ADD's transition writes the tables, the list, the filter and the port calls only. -/
theorem addBinding_frame {d : Dir} {p : Nat} {id : Ident} {o w : Byte} {g : F32} {k : Word} {s : State}
    {r : Nat × State} (h : addBinding d p id o w g k s = .ok r) :
    r.2 = { s with tables := r.2.tables, ioi := r.2.ioi, filter := r.2.filter, out := r.2.out } := by
  obtain ⟨-, -, -, t, -, -, h2⟩ := addBinding_ok h
  cases d with
  | send => rw [h2]; rfl
  | recv => rw [h2, if_pos rfl, addIdent_frame]; rfl

/-- Every SDO class writes the tables, the list, the filter, the store and the port calls only. -/
theorem sdoAct_frame (k : SdoClass) (b : Payload) (s : State) :
    (sdoAct k b s).2 =
      { s with
        tables := (sdoAct k b s).2.tables
        ioi := (sdoAct k b s).2.ioi
        filter := (sdoAct k b s).2.filter
        store := (sdoAct k b s).2.store
        out := (sdoAct k b s).2.out } := by
  have raw (p : Nat) (s : State) : (sdoWriteRaw p b s).2 =
      { s with store := (sdoWriteRaw p b s).2.store, out := (sdoWriteRaw p b s).2.out } := by
    simp only [sdoWriteRaw, psSetRaw_eq]
  have rd (p : Nat) (s : State) : (psGetRaw p s).2 = { s with out := (psGetRaw p s).2.out } := rfl
  have map (d : Dir) : (sdoMap d b s).2 =
      { s with tables := (sdoMap d b s).2.tables, ioi := (sdoMap d b s).2.ioi,
               filter := (sdoMap d b s).2.filter, out := (sdoMap d b s).2.out } := by
    unfold sdoMap
    split
    · rename_i r hr
      exact addBinding_frame hr
    · rfl
  cases k
  case prmWr => simp only [sdoAct, sdoPrmWr]; rw [raw]
  case prmRd => simp only [sdoAct, sdoPrmRd]; rw [rd]
  case pidWr =>
    by_cases hp : storeNumFromId s.cfg (memRead b 3 1) < s.cfg.paramCount
    · rw [show sdoAct .pidWr b s = sdoWriteRaw (storeNumFromId s.cfg (memRead b 3 1)) b
        { s with out := s.out ++ [.psNumFromId (memRead b 3 1)] } from if_pos hp, raw]
    · rw [show sdoAct .pidWr b s = (sdoAbort .invalidIndex b,
        { s with out := s.out ++ [.psNumFromId (memRead b 3 1)] }) from if_neg hp]
  case pidRd =>
    by_cases hp : storeNumFromId s.cfg (memRead b 3 1) < s.cfg.paramCount
    · have e : (sdoAct .pidRd b s).2 = (psGetRaw (storeNumFromId s.cfg (memRead b 3 1))
          { s with out := s.out ++ [.psNumFromId (memRead b 3 1)] }).2 := congrArg Prod.snd (if_pos hp)
      rw [e, rd]
    · rw [show sdoAct .pidRd b s = (sdoAbort .invalidIndex b,
        { s with out := s.out ++ [.psNumFromId (memRead b 3 1)] }) from if_neg hp]
  case mapTx => simp only [sdoAct]; rw [map]
  case mapRx => simp only [sdoAct]; rw [map]
  case echo => rfl
  case invIdx => rfl

/-! ## Persistence -/

/-- What an external consumer does outside the block keeps the flash's canonical form. -/
theorem extOutside_wf {s : State} (h : Memory.wf s.flash = true) : Memory.wf (extOutside s).flash = true :=
  Memory.writeAll_wf _ h

/-- Starting again gives the reset state, over the flash, with the model's own record going on. -/
theorem restart_eq (c : Cfg) (cells : List Word) (s : State) :
    restart c cells s =
      { State.initial c cells s.flash with pending := s.pending, draws := s.draws, out := s.out } := rfl

/-- The remap through a call that answers a function of the configuration and appends one port call: the references
of the used slots, and one call for each in index order. -/
theorem remapSlots_eq (g : Cfg → Nat → Nat) (call : Nat → PortCall) (bs : List Slot) (s : State) :
    remapSlots (fun p s => (g s.cfg p, emit (call p) s)) bs s =
      (bs.map (fun b => if slotUsed b then { b with param := s.cfg.cutRef (g s.cfg b.param) } else b),
        { s with out := s.out ++ (bs.filter slotUsed).map fun b => call b.param }) := by
  induction bs generalizing s with
  | nil => simp [remapSlots]
  | cons b bs ih =>
    rw [remapSlots]
    by_cases h : slotUsed b = true
    · simp only [h, if_true, ih]
      simp [h, emit_eq]
    · simp [h, ih]

/-- The remap of the whole pool (R41): the references of the used slots and the port calls, nothing else. -/
theorem remapPool_eq (g : Cfg → Nat → Nat) (call : Nat → PortCall) (s : State) :
    remapPool (fun p s => (g s.cfg p, emit (call p) s)) s =
      { s with tables := remapped s.cfg (g s.cfg) s.tables
               out := s.out ++ (s.tables.pool.filter slotUsed).map fun b => call b.param } := by
  simp only [remapPool, remapSlots_eq]
  rfl

/-- A remap leaves every chain. -/
theorem chain_remapped (c : Cfg) (f : Nat → Nat) (t : Tables) (l : Link) : chain (remapped c f t) l = chain t l := by
  unfold chain remapped
  rw [walk_map_param _ (fun b => by split <;> rfl), List.length_map]

end Sys2Proof.Machine
end

