-- ==== Sys2Proof/Laws/Arena.lean ====
section
/-! SUPPORT. What sound tables give: walks, chains, and the parts of the invariant. -/

namespace Sys2Proof.Machine

/-- The parts of soundness. -/
theorem tablesSound_iff {c : Cfg} {t : Tables} :
    tablesSound c t = true ↔
      (t.send.length = c.maxMessages ∧ t.recv.length = c.maxMessages ∧ t.pool.length = c.maxItems ∧ refsFit c t = true) ∧
        inv1 t = true ∧ inv2 t = true ∧ inv3 t = true ∧ inv4 t = true := by
  simp [tablesSound, tablesShape, and_assoc]

/-- A used entry's head is no END. -/
theorem entryUsed_iff {e : Entry} : entryUsed e = true ↔ e.head ≠ .endMark := by simp [entryUsed]

/-- A used slot's link is no FREE. -/
theorem slotUsed_iff {b : Slot} : slotUsed b = true ↔ b.next ≠ .freeMark := by simp [slotUsed]

/-- A walk visits slots of the pool, and only used ones. -/
theorem walk_visits {pool : List Slot} {fuel : Nat} {l : Link} {js : List Nat} (h : walk pool fuel l = some js) :
    ∀ j ∈ js, j < pool.length ∧ slotUsed (pool.getD j default) = true := by
  induction fuel generalizing l js with
  | zero =>
    cases l with
    | endMark => simp at h; subst h; simp
    | freeMark => simp at h
    | slot j => simp [walk] at h
  | succ fuel ih =>
    cases l with
    | endMark => simp at h; subst h; simp
    | freeMark => simp at h
    | slot j =>
      rw [walk] at h
      cases hb : pool[j]? with
      | none => simp [hb] at h
      | some b =>
        simp only [hb, Option.map_eq_some_iff] at h
        obtain ⟨js', hw, rfl⟩ := h
        intro k hk
        rcases List.mem_cons.mp hk with rfl | hk
        · have hlt : k < pool.length := (List.getElem?_eq_some_iff.mp hb).1
          refine ⟨hlt, ?_⟩
          rw [List.getD_eq_getElem?_getD, hb, Option.getD_some, slotUsed_iff]
          intro hf
          rw [hf] at hw
          simp at hw
        · exact ih hw k hk

/-- A walk that ends is the same with more fuel. -/
theorem walk_mono {pool : List Slot} {f g : Nat} {l : Link} {js : List Nat} (hfg : f ≤ g) (h : walk pool f l = some js) :
    walk pool g l = some js := by
  induction f generalizing g l js with
  | zero =>
    cases l with
    | endMark => simpa using h
    | freeMark => simp at h
    | slot j => simp [walk] at h
  | succ f ih =>
    obtain ⟨g, rfl⟩ : ∃ k, g = k + 1 := ⟨g - 1, by omega⟩
    cases l with
    | endMark => simpa using h
    | freeMark => simp at h
    | slot j =>
      rw [walk] at h ⊢
      cases hb : pool[j]? with
      | none => simp [hb] at h
      | some b =>
        simp only [hb, Option.map_eq_some_iff] at h ⊢
        obtain ⟨js', hw, rfl⟩ := h
        exact ⟨js', ih (by omega) hw, rfl⟩

/-- A chain visits slots of the pool, and only used ones. -/
theorem chain_visits {t : Tables} {l : Link} : ∀ j ∈ chain t l, j < t.pool.length ∧ slotUsed (slotAt t j) = true := by
  unfold chain
  cases h : walk t.pool t.pool.length l with
  | none => simp
  | some js => exact walk_visits h

/-- Every chain of sound tables ends, and no head is FREE (INV3). -/
theorem walk_isSome_of_sound {c : Cfg} {t : Tables} (h : tablesSound c t = true) {d : Dir} {e : Entry}
    (he : e ∈ entriesOf t d) : (walk t.pool t.pool.length e.head).isSome = true := by
  obtain ⟨-, -, -, h3, -⟩ := tablesSound_iff.mp h
  refine List.all_eq_true.mp h3 e ?_
  cases d <;> simp_all [entriesOf]

/-- In sound tables a slot is used exactly if some chain holds it (INV2). -/
theorem used_iff_chained {c : Cfg} {t : Tables} (h : tablesSound c t = true) {j : Nat} (hj : j < t.pool.length) :
    slotUsed (slotAt t j) = true ↔ j ∈ chainedSlots t := by
  obtain ⟨-, -, h2, -, -⟩ := tablesSound_iff.mp h
  have := (Bool.and_eq_true_iff.mp h2).2
  have := List.all_eq_true.mp this j (List.mem_range.mpr hj)
  rw [beq_iff_eq.mp this]
  simp

/-- In sound tables no slot stands twice in the chains (INV2). -/
theorem chained_nodup {c : Cfg} {t : Tables} (h : tablesSound c t = true) : (chainedSlots t).Nodup := by
  obtain ⟨-, -, h2, -, -⟩ := tablesSound_iff.mp h
  exact of_decide_eq_true (Bool.and_eq_true_iff.mp h2).1

/-- A reference that was written fits its width (R30). -/
theorem cutRef_lt (c : Cfg) (n : Nat) : c.cutRef n < 2 ^ c.paramRefBits := Nat.mod_lt _ (Nat.two_pow_pos _)

/-- A reference that fits is stored as it is. -/
theorem cutRef_of_lt {c : Cfg} {n : Nat} (h : n < 2 ^ c.paramRefBits) : c.cutRef n = n := Nat.mod_eq_of_lt h

/-- References fit exactly if every slot's does. -/
theorem refsFit_iff {c : Cfg} {t : Tables} : refsFit c t = true ↔ ∀ b ∈ t.pool, b.param < 2 ^ c.paramRefBits := by
  simp [refsFit]

/-- Rewriting references keeps their width. -/
theorem refsFit_remapped (f : Nat → Nat) {c : Cfg} {t : Tables} (h : refsFit c t = true) :
    refsFit c (remapped c f t) = true := by
  rw [refsFit_iff] at h ⊢
  intro b hb
  obtain ⟨a, ha, rfl⟩ := List.mem_map.mp hb
  split
  · exact cutRef_lt c _
  · exact h a ha

/-- Rewriting references keeps soundness: INV1 to INV4 read no reference. -/
theorem sound_remapped (f : Nat → Nat) {c : Cfg} {t : Tables} (h : tablesSound c t = true) :
    tablesSound c (remapped c f t) = true := by
  have hc (l : Link) := chain_remapped c f t l
  have hw (l : Link) : walk (remapped c f t).pool (remapped c f t).pool.length l = walk t.pool t.pool.length l := by
    unfold remapped
    rw [walk_map_param _ (fun b => by split <;> rfl), List.length_map]
  have hcs : chainedSlots (remapped c f t) = chainedSlots t := by
    unfold chainedSlots
    simp only [hc]
    rfl
  have hl : (remapped c f t).pool.length = t.pool.length := by simp [remapped]
  have hg (b : Slot) : slotUsed (if slotUsed b then { b with param := c.cutRef (f b.param) } else b) = slotUsed b := by
    split <;> rfl
  have hs (j : Nat) (hj : j < t.pool.length) : slotUsed (slotAt (remapped c f t) j) = slotUsed (slotAt t j) := by
    simp only [slotAt, remapped, List.getD_eq_getElem?_getD, List.getElem?_map, List.getElem?_eq_getElem hj,
      Option.map_some, Option.getD_some, hg]
  have e2 : inv2 (remapped c f t) = inv2 t := by
    unfold inv2
    rw [hcs, hl]
    congr 1
    rw [Bool.eq_iff_iff, List.all_eq_true, List.all_eq_true]
    refine forall_congr' fun j => forall_congr' fun hj => ?_
    rw [hs j (List.mem_range.mp hj)]
  have e3 : inv3 (remapped c f t) = inv3 t := by
    unfold inv3
    simp only [hw]
    rfl
  have e4 : inv4 (remapped c f t) = inv4 t := by
    unfold inv4 remapped
    simp only [List.all_map]
    congr 1
    funext b
    simp only [Function.comp, hg]
    split <;> rfl
  obtain ⟨⟨hsend, hrecv, hpool, hfit⟩, h1, h2, h3, h4⟩ := tablesSound_iff.mp h
  exact tablesSound_iff.mpr ⟨⟨hsend, hrecv, hl.trans hpool, refsFit_remapped f hfit⟩, h1, e2.trans h2, e3.trans h3,
    e4.trans h4⟩

end Sys2Proof.Machine
end

