-- ==== Sys2Proof/Laws/Image.lean ====
section
/-! SUPPORT. The image: how long its parts are, that numbers and links come back from the plain layout, and which items take
no draw. -/

namespace Sys2Proof.Machine

/-- There are as many digits as were asked for. -/
@[simp] theorem digits32_length (k n : Nat) : (digits32 k n).length = k := by simp [digits32]

/-- The least digit, and the digits of the rest. -/
theorem digits32_succ (k n : Nat) : digits32 (k + 1) n = BitVec.ofNat 32 n :: digits32 k (n / 2 ^ 32) := by
  simp only [digits32, List.range_succ_eq_map, List.map_cons, List.map_map, Nat.mul_zero, Nat.pow_zero, Nat.div_one]
  congr 1
  refine List.map_congr_left fun i _ => ?_
  rw [Function.comp, Nat.div_div_eq_div_mul, ← Nat.pow_add, Nat.mul_succ, Nat.add_comm]

/-- Digits stand for the number, cut to their bits. -/
theorem ofDigits32_digits32 (k n : Nat) : ofDigits32 (digits32 k n) = n % 2 ^ (32 * k) := by
  induction k generalizing n with
  | zero => simp [digits32, ofDigits32, Nat.mod_one]
  | succ k ih =>
    rw [digits32_succ, ofDigits32, ih, BitVec.toNat_ofNat, Nat.mul_add, Nat.mul_one, Nat.add_comm (32 * k), Nat.pow_add,
      Nat.mod_mul]

/-- A number of so many bits comes back from its words. -/
theorem ofDigits32_wordsFor {bits n : Nat} (h : n < 2 ^ bits) : ofDigits32 (digits32 (wordsFor bits) n) = n := by
  rw [ofDigits32_digits32]
  exact Nat.mod_eq_of_lt (h.trans_le (Nat.pow_le_pow_right (by decide) (by unfold wordsFor; omega)))

/-- The number of a link to a slot that exists, or of a mark, has LINK_BITS (R31, R8). -/
theorem linkNum_lt {c : Cfg} {l : Link} (h : ∀ j, l = .slot j → j < c.maxItems) : linkNum c l < 2 ^ c.linkBits := by
  refine lt_of_le_of_lt (b := c.maxItems + 1) ?_ Nat.lt_log2_self
  cases l with
  | slot j => exact (h j rfl).le.trans (Nat.le_succ _)
  | endMark => exact Nat.le_succ _
  | freeMark => exact le_rfl

/-- A link to a slot that exists, and a mark, come back from their number (R31). -/
theorem linkOfNum_linkNum {c : Cfg} {l : Link} (h : ∀ j, l = .slot j → j < c.maxItems) :
    linkOfNum c (linkNum c l) = l := by
  cases l with
  | slot j =>
    have := h j rfl
    simp [linkOfNum, linkNum, show j ≠ c.maxItems by omega, show j ≠ c.maxItems + 1 by omega]
  | endMark => simp [linkOfNum, linkNum]
  | freeMark => simp [linkOfNum, linkNum]

/-- A link comes back from its words in the plain layout. -/
theorem linkOfNum_digits32 {c : Cfg} {l : Link} (h : ∀ j, l = .slot j → j < c.maxItems) :
    linkOfNum c (ofDigits32 (digits32 (linkWords c) (linkNum c l))) = l := by
  rw [linkWords, ofDigits32_wordsFor (linkNum_lt h), linkOfNum_linkNum h]

/-- Every entry has the same number of words in the plain layout. -/
@[simp] theorem plainEntry_length (c : Cfg) (n : Nat) (e : Entry) : (plainEntry c n e).length = entryWords c := by
  simp [plainEntry, entryWords, Nat.add_comm]

/-- Every slot has the same number of words in the plain layout. -/
@[simp] theorem plainSlot_length (c : Cfg) (n : Nat) (b : Slot) : (plainSlot c n b).length = slotWords c := by
  by_cases h : slotUsed b
  · simp only [plainSlot, slotWords, slotDraws, h, if_true, List.length_append, digits32_length, List.length_cons,
      List.length_nil]
  · simp [plainSlot, slotWords, slotDraws, h]

/-- A used entry comes back from its words in the plain layout. -/
theorem plainDeEntry_plainEntry {c : Cfg} {e : Entry} (n : Nat) (hu : entryUsed e = true)
    (h : ∀ j, e.head = .slot j → j < c.maxItems) : plainDeEntry c (plainEntry c n e) = e := by
  simp [plainDeEntry, plainEntry, hu, linkOfNum_digits32 h]

/-- The slots of a loaded image have references of the field's width (R30). -/
theorem deSlot_param_lt (c : Cfg) (ws : List Word) (j : Nat) : (deSlot c ws j).param < 2 ^ c.paramRefBits :=
  Nat.mod_lt _ (Nat.two_pow_pos _)

/-- The items of a region, written one after another, with words of equal number. -/
theorem flatten_mapIdx_length {α : Type} (f : Nat → α → List Word) (k : Nat) (hf : ∀ i a, (f i a).length = k)
    (l : List α) : (l.mapIdx f).flatten.length = l.length * k := by
  induction l generalizing f with
  | nil => simp
  | cons a l ih =>
    rw [List.mapIdx_cons, List.flatten_cons, List.length_append, hf, ih _ (fun i a => hf (i + 1) a), List.length_cons,
      Nat.add_mul, Nat.one_mul, Nat.add_comm]

/-- A direction's region has its words, whatever the layout. -/
theorem serTable_length {c : Cfg} {es : List Entry} (d : Dir) (n : Nat) (h : es.length = c.maxMessages) :
    (serTable c d n es).length = tableWords c d := by
  unfold serTable tableWords
  cases c.image with
  | plain => simpa only [h] using flatten_mapIdx_length _ (entryWords c) (fun _ _ => plainEntry_length _ _ _) es
  | other m => simp

/-- The pool's region has its words, whatever the layout. -/
theorem serPool_length {c : Cfg} {bs : List Slot} (n : Nat) (h : bs.length = c.maxItems) :
    (serPool c n bs).length = poolWords c := by
  unfold serPool poolWords
  cases c.image with
  | plain => simpa only [h] using flatten_mapIdx_length _ (slotWords c) (fun _ _ => plainSlot_length _ _ _) bs
  | other m => simp

/-- Tables of the configured capacities fill the image exactly (R111). -/
theorem imageSer_length {c : Cfg} {t : Tables} (n : Nat) (hs : t.send.length = c.maxMessages)
    (hr : t.recv.length = c.maxMessages) (hp : t.pool.length = c.maxItems) : (imageSer c t n).length = imageWords c := by
  simp only [imageSer, List.length_append, serTable_length _ _ hs, serTable_length _ _ hr, serPool_length _ hp, imageWords]

/-- A used entry is given to a layout as it is, whatever the draw number. -/
theorem entryForImage_used {e : Entry} (n : Nat) (h : entryUsed e = true) : entryForImage n e = (e, 0) := by
  simp [entryForImage, h]

/-- A used slot is given to a layout as it is, whatever the draw number. -/
theorem slotForImage_used {b : Slot} (n : Nat) (h : slotUsed b = true) : slotForImage n b = (b, 0) := by
  simp [slotForImage, h]

/-- The region of entries that are all used takes no draw: it is a function of the entries (R46, R111). -/
theorem serTable_used {c : Cfg} {es : List Entry} (d : Dir) (n m : Nat) (h : ∀ e ∈ es, entryUsed e = true) :
    serTable c d n es = serTable c d m es := by
  unfold serTable
  cases c.image with
  | plain =>
    refine congrArg List.flatten (List.ext_getElem (by simp) fun i hi _ => ?_)
    simp [plainEntry, h _ (List.getElem_mem (by simpa using hi))]
  | other k =>
    have e : (es.mapIdx fun i e => entryForImage (n + i) e) = es.mapIdx fun i e => entryForImage (m + i) e := by
      refine List.ext_getElem (by simp) fun i hi _ => ?_
      simp [entryForImage, h _ (List.getElem_mem (by simpa using hi))]
    simp only [e]

/-- The region of slots that are all used takes no draw: it is a function of the slots (R46, R111). -/
theorem serPool_used {c : Cfg} {bs : List Slot} (n m : Nat) (h : ∀ b ∈ bs, slotUsed b = true) :
    serPool c n bs = serPool c m bs := by
  unfold serPool
  cases c.image with
  | plain =>
    refine congrArg List.flatten (List.ext_getElem (by simp) fun i hi _ => ?_)
    simp [plainSlot, h _ (List.getElem_mem (by simpa using hi))]
  | other k =>
    have e : (bs.mapIdx fun j b => slotForImage (n + slotDraws c * j) b) =
        bs.mapIdx fun j b => slotForImage (m + slotDraws c * j) b := by
      refine List.ext_getElem (by simp) fun i hi _ => ?_
      simp [slotForImage, h _ (List.getElem_mem (by simpa using hi))]
    simp only [e]

end Sys2Proof.Machine
end

