-- ==== Sys2Proof/Laws/PerInstr.lean ====
section
/-! SUPPORT. What every instruction's encoding carries, one lemma for each constructor. -/

namespace Sys2Proof.Laws.RowFields

/-- The fields that an instruction's row of spec/opcode_table.json fixes. -/
inductive Row where
  /-- the selector of format CMD (R106) -/
  | selector (op : Byte)
  /-- mask and value of format SDO, on `V` (R103) -/
  | pattern (mask value : BitVec 64)

/-- The row of an instruction, as spec/opcode_table.json gives it. -/
def row : Instr → Row
  | .register _ => .selector 0x01
  | .addIoi _ => .selector 0x02
  | .clearIoi => .selector 0x03
  | .dispatch _ _ => .selector 0x04
  | .add _ _ _ _ _ _ _ => .selector 0x10
  | .remove _ => .selector 0x11
  | .findFirst _ => .selector 0x12
  | .forEach _ => .selector 0x13
  | .clear => .selector 0x14
  | .sendSweep => .selector 0x20
  | .unpack _ _ => .selector 0x21
  | .pack _ _ => .selector 0x22
  | .mapRx _ _ => .selector 0x23
  | .mapCleared => .selector 0x24
  | .saveBegin => .selector 0x30
  | .saveEnd => .selector 0x31
  | .load => .selector 0x32
  | .sdoPrmWr _ _ => .pattern 0x0000000000FFFFFF 0x0000000000200040
  | .sdoPrmRd _ _ => .pattern 0x0000000000FFFFFF 0x0000000000200022
  | .sdoPidWr _ _ => .pattern 0x0000000000FFFFFF 0x0000000000200140
  | .sdoPidRd _ _ => .pattern 0x0000000000FFFFFF 0x0000000000200122
  | .sdoMapTx _ _ _ _ _ _ => .pattern 0x0000000000F000FF 0x0000000000300040
  | .sdoMapRx _ _ _ _ _ => .pattern 0x0000000000F800FF 0x0000000000400040
  | .sdoEchoPrm _ _ _ _ => .pattern 0x0000000000FFFE00 0x0000000000200000
  | .sdoEchoMapTx _ _ _ _ => .pattern 0x0000000000F00000 0x0000000000300000
  | .sdoEchoMapRx _ _ _ _ => .pattern 0x0000000000F80000 0x0000000000400000
  | .sdoInvIdx _ _ _ _ => .pattern 0 0

/-- The encoding of an instruction fits its row: the selector, or the mask and value on the payload. -/
def Statement (i : Instr) : Prop :=
  match row i, encode i with
  | .selector op, .cmd p => p.op = op
  | .pattern mask value, .sdo b => b.value &&& mask = value
  | .selector _, .sdo _ => False
  | .pattern _ _, .cmd _ => False

/-- Under a mask of the low 24 bits only the index and the command byte count. -/
theorem payload_bits (cmd : Byte) (index : BitVec 16) (sub : Byte) (data : Word) (mask value : BitVec 24)
    (h : (index ++ cmd) &&& mask = value) :
    (sdoPayload cmd index sub data).value &&& mask.zeroExtend 64 = value.zeroExtend 64 := by
  subst h
  apply BitVec.eq_of_getLsbD_eq
  intro k hk
  rw [BitVec.getLsbD_and, BitVec.getLsbD_setWidth, BitVec.getLsbD_setWidth, BitVec.getLsbD_and]
  by_cases h : k < 24
  · rw [Payload.value, BitVec.getLsbD_append, if_pos (by omega), sdoPayload]
    dsimp only
    rw [BitVec.getLsbD_append, BitVec.getLsbD_append, BitVec.getLsbD_append]
    simp only [decide_eq_true hk, Bool.true_and]
    split
    · rfl
    · rw [if_pos (by omega)]
  · simp [BitVec.getLsbD_of_ge _ _ (Nat.le_of_not_lt h)]

theorem register : ∀ c, Statement (.register c) := fun _ => rfl

theorem addIoi : ∀ id, Statement (.addIoi id) := fun _ => rfl

theorem clearIoi : Statement .clearIoi := rfl

theorem dispatch : ∀ id buf, Statement (.dispatch id buf) := fun _ _ => rfl

theorem add : ∀ dir param id bitOff bitW gain offset, Statement (.add dir param id bitOff bitW gain offset) := fun _ _ _ _ _ _ _ => rfl

theorem remove : ∀ param, Statement (.remove param) := fun _ => rfl

theorem findFirst : ∀ param, Statement (.findFirst param) := fun _ => rfl

theorem forEach : ∀ v, Statement (.forEach v) := fun _ => rfl

theorem clear : Statement .clear := rfl

theorem sendSweep : Statement .sendSweep := rfl

theorem unpack : ∀ buf slot, Statement (.unpack buf slot) := fun _ _ => rfl

theorem pack : ∀ frame slot, Statement (.pack frame slot) := fun _ _ => rfl

theorem mapRx : ∀ id buf, Statement (.mapRx id buf) := fun _ _ => rfl

theorem mapCleared : Statement .mapCleared := rfl

theorem saveBegin : Statement .saveBegin := rfl

theorem saveEnd : Statement .saveEnd := rfl

theorem load : Statement .load := rfl

theorem sdoPrmWr : ∀ sub data, Statement (.sdoPrmWr sub data) := fun _ _ =>
  payload_bits _ _ _ _ 0xFFFFFF 0x200040 (by
    decide)

theorem sdoPrmRd : ∀ sub data, Statement (.sdoPrmRd sub data) := fun _ _ =>
  payload_bits _ _ _ _ 0xFFFFFF 0x200022 (by
    decide)

theorem sdoPidWr : ∀ sub data, Statement (.sdoPidWr sub data) := fun _ _ =>
  payload_bits _ _ _ _ 0xFFFFFF 0x200140 (by
    decide)

theorem sdoPidRd : ∀ sub data, Statement (.sdoPidRd sub data) := fun _ _ =>
  payload_bits _ _ _ _ 0xFFFFFF 0x200122 (by
    decide)

theorem sdoMapTx : ∀ second ident sub bitOff bitW gainRaw, Statement (.sdoMapTx second ident sub bitOff bitW gainRaw) := fun _ _ _ _ _ _ =>
  payload_bits _ _ _ _ 0xF000FF 0x300040 (by
    apply BitVec.eq_of_getLsbD_eq
    intro k hk
    simp only [BitVec.getLsbD_append, BitVec.getLsbD_and]
    interval_cases k <;> simp)

theorem sdoMapRx : ∀ ident sub bitOff bitW gainRaw, Statement (.sdoMapRx ident sub bitOff bitW gainRaw) := fun _ _ _ _ _ =>
  payload_bits _ _ _ _ 0xF800FF 0x400040 (by
    apply BitVec.eq_of_getLsbD_eq
    intro k hk
    simp only [BitVec.getLsbD_append, BitVec.getLsbD_and]
    interval_cases k <;> simp)

theorem sdoEchoPrm : ∀ pid cmd sub data, Statement (.sdoEchoPrm pid cmd sub data) := fun _ _ _ _ =>
  payload_bits _ _ _ _ 0xFFFE00 0x200000 (by
    apply BitVec.eq_of_getLsbD_eq
    intro k hk
    simp only [BitVec.getLsbD_append, BitVec.getLsbD_and]
    interval_cases k <;> simp)

theorem sdoEchoMapTx : ∀ low cmd sub data, Statement (.sdoEchoMapTx low cmd sub data) := fun _ _ _ _ =>
  payload_bits _ _ _ _ 0xF00000 0x300000 (by
    apply BitVec.eq_of_getLsbD_eq
    intro k hk
    simp only [BitVec.getLsbD_append, BitVec.getLsbD_and]
    interval_cases k <;> simp)

theorem sdoEchoMapRx : ∀ low cmd sub data, Statement (.sdoEchoMapRx low cmd sub data) := fun _ _ _ _ =>
  payload_bits _ _ _ _ 0xF80000 0x400000 (by
    apply BitVec.eq_of_getLsbD_eq
    intro k hk
    simp only [BitVec.getLsbD_append, BitVec.getLsbD_and]
    interval_cases k <;> simp)

theorem sdoInvIdx : ∀ cmd index sub data, Statement (.sdoInvIdx cmd index sub data) := fun _ _ _ _ =>
  payload_bits _ _ _ _ 0x000000 0x000000 (by
    apply BitVec.eq_of_getLsbD_eq
    intro k hk
    simp only [BitVec.getLsbD_append, BitVec.getLsbD_and]
    interval_cases k <;> simp)

end Sys2Proof.Laws.RowFields
end

