-- ==== Sys2Proof/Tests/Slice0.lean ====
section
/-! SUPPORT. Tests. Expected results are the spec's: each test names its vector or rule. A theorem `witness_<Name>`
shows concrete states and operands that meet the hypotheses of `Obligations.<Name>`, clause by clause. -/

namespace Sys2Proof.Tests

open Sys2Proof Sys2Proof.Machine

set_option Elab.async false

/-! ## Fixtures -/

/-- The next state of an outcome, if it is one. -/
def nextOf (o : Host.Outcome State Fault Refusal) : Option State :=
  match o with
  | .next t => some t
  | .fault _ => none
  | .refused _ => none

/-- What an operation leaves, seen through `f`. -/
def after {α : Type} (i : Instr) (s : State) (f : State → α) : Option α := (nextOf (exec i s)).map f

/-- BOOT of spec/95_test_vectors.md section 0. -/
def boot : State := { State.reset with cons := [.mapping], ioi := [0x601], filter := [0x601] }

/-- A free entry. -/
def noEntry : Entry := ⟨0, .endMark⟩

/-- A free slot. -/
def noSlot : Slot := ⟨0, 0, 0, 0, 0, .freeMark⟩

/-- The state of vectors G1 to G10: 3 on receive 0x201, 5 on send 0x300, `V[3] = 1.0`, `V[5] = 171.0`. -/
def gated : State :=
  { boot with
    ioi := [0x601, 0x201]
    filter := [0x601, 0x201]
    store := (boot.store.set 3 0x3F800000).set 5 0x432B0000
    tables :=
      { send := [⟨0x300, .slot 1⟩, noEntry, noEntry]
        recv := [⟨0x201, .slot 0⟩, noEntry, noEntry]
        pool := [⟨3, 0, 0x3F800000, 0, 8, .endMark⟩, ⟨5, 0, 0x42000000, 0, 16, .endMark⟩, noSlot, noSlot] } }

/-- The state after G2: the gate closed, the references in the persistent form. -/
def saving : State :=
  { gated with busy := true, tables := remapped Cfg.configured (fun n => n + 37) gated.tables }

/-- The pool full: 40 at 4..15 and then 41, straddling, on send 0x300; 40 at 8..15 and 41 at 56..63 on receive 0x201. -/
def full : State :=
  { gated with
    tables :=
      { send := [⟨0x300, .slot 0⟩, noEntry, noEntry]
        recv := [⟨0x201, .slot 2⟩, noEntry, noEntry]
        pool := [⟨40, 256, 0x41000000, 4, 12, .slot 1⟩, ⟨41, 0, 0x3F800000, 28, 8, .endMark⟩,
          ⟨40, 0xFFFFFFD8, 0x3F000000, 8, 8, .slot 3⟩, ⟨41, 0, 0x3F800000, 56, 8, .endMark⟩] } }

/-- Three receive messages and one slot left: no free receive entry, and with the SDO identifier MAX_IOI identifiers. -/
def crowded : State :=
  { boot with
    ioi := [0x601, 0x7FF, 0x201, 0x202]
    filter := [0x601, 0x7FF, 0x201, 0x202]
    tables :=
      { send := [noEntry, noEntry, noEntry]
        recv := [⟨0x7FF, .slot 0⟩, ⟨0x201, .slot 1⟩, ⟨0x202, .slot 2⟩]
        pool := [⟨1, 0, 0x3F800000, 0, 8, .endMark⟩, ⟨2, 0, 0x3F800000, 0, 32, .endMark⟩,
          ⟨3, 0, 0x3F800000, 32, 32, .endMark⟩, noSlot] } }

/-- A state that breaks INV2: a used slot that no chain holds. -/
def broken : State := { boot with tables := { boot.tables with pool := [{ noSlot with next := .endMark }, noSlot, noSlot, noSlot] } }

/-- The image words of `gated` in the persistent form, in the plain layout (log 14), a free item's fields zero. -/
def imageWordsOfGated : List Word :=
  [0x300, 1, 0, 4, 0, 4, 0x201, 0, 0, 4, 0, 4, 40, 0, 0x3F800000, 0x0800, 4, 42, 0, 0x42000000, 0x1000, 4,
    0, 0, 0, 0, 5, 0, 0, 0, 0, 5]

/-- A flash that holds that image and its checksum, the sum of the words. -/
def goodFlash : List Host.Cell := Memory.writeWords [] 0 (imageWordsOfGated ++ [0x81801D76])

/-- A build whose enumeration runs the other way. -/
def reordered : Cfg := { Cfg.configured with params := Cfg.configured.params.reverse }

/-- A frame of eight bytes. -/
def bytes (b0 b1 b2 b3 b4 b5 b6 b7 : Byte) : Payload := ⟨b3 ++ b2 ++ b1 ++ b0, b7 ++ b6 ++ b5 ++ b4⟩

/-- BOOT of the SDO vectors S1 to S12: `V[5] = 171.0`, limits of parameter 5 from 0.0 to 100.0. -/
def sdoBoot : State :=
  { boot with
    cfg := { Cfg.configured with
      params := Cfg.configured.params.modify 5 fun d => { d with min := 0, max := 0x42C80000 } }
    store := boot.store.set 5 0x432B0000 }

/-- The reply frame and the result that a request leaves, through DISPATCH, and whether the request placed at the SDO
handler does the same. -/
def served (b : Payload) (s : State) : Option (List PortCall × Result × Bool) :=
  after (.dispatch 0x601 b) s fun t =>
    (t.out.reverse.take 1, t.result, nextOf (exec (decodeSdo s.cfg b) s) == some t)

/-- What `served` answers for a reply. -/
def replied (b : Payload) : Option (List PortCall × Result × Bool) :=
  some ([.btSend 0x581 b.lo b.hi], .buffer b, true)

/-! ## WellFormed: an ill-formed term for each check -/

theorem test_wf_handle : (Instr.register (.ext (2 ^ 32 - 1))).wellFormed Cfg.configured = false := by decide +kernel
theorem test_wf_add_param : (Instr.add .send 65536 0 0 0 0 0).wellFormed Cfg.configured = false := by decide +kernel
theorem test_wf_remove_param : (Instr.remove 65536).wellFormed Cfg.configured = false := by decide +kernel
theorem test_wf_findFirst_param : (Instr.findFirst 65536).wellFormed Cfg.configured = false := by decide +kernel
theorem test_wf_param_wide :
    (Instr.remove (2 ^ 40 - 1)).wellFormed { Cfg.configured with paramRefBits := 40 } = true ∧
      (Instr.remove (2 ^ 40)).wellFormed { Cfg.configured with paramRefBits := 40 } = false := by decide +kernel
theorem test_wf_prmWr_sub : (Instr.sdoPrmWr 64 0).wellFormed Cfg.configured = false := by decide +kernel
theorem test_wf_prmRd_sub : (Instr.sdoPrmRd 64 0).wellFormed Cfg.configured = false := by decide +kernel
theorem test_wf_pidWr_sub : (Instr.sdoPidWr 64 0).wellFormed Cfg.configured = false := by decide +kernel
theorem test_wf_pidRd_sub : (Instr.sdoPidRd 64 0).wellFormed Cfg.configured = false := by decide +kernel
theorem test_wf_mapTx_sub : (Instr.sdoMapTx 0 0 64 0 0 0).wellFormed Cfg.configured = false := by decide +kernel
theorem test_wf_mapRx_sub : (Instr.sdoMapRx 0 64 0 0 0).wellFormed Cfg.configured = false := by decide +kernel
theorem test_wf_echo_sub : (Instr.sdoEchoPrm 0 0x2F 64 0).wellFormed Cfg.configured = false := by decide +kernel
theorem test_wf_echoPrm_write : (Instr.sdoEchoPrm 0 0x40 5 0).wellFormed Cfg.configured = false := by decide +kernel
theorem test_wf_echoPrm_read : (Instr.sdoEchoPrm 1 0x22 5 0).wellFormed Cfg.configured = false := by decide +kernel
theorem test_wf_echoMapTx_write : (Instr.sdoEchoMapTx 0 0x40 5 0).wellFormed Cfg.configured = false := by decide +kernel
theorem test_wf_echoMapRx_write : (Instr.sdoEchoMapRx 0 0x40 5 0).wellFormed Cfg.configured = false := by decide +kernel
theorem test_wf_invIdx_object : (Instr.sdoInvIdx 0x40 0x2000 5 0).wellFormed Cfg.configured = false := by decide +kernel

/-! ## Decoding: the selectors of R106 with their operands (R107), and the words of the SDO vectors (R93) -/

/-- What the configured decoder reads from the command port. -/
def port (op : Byte) (dir : BitVec 1) (param : Nat) (num id : Word) (o w : Byte) (lo hi : Word) : Option Instr :=
  (decode Cfg.configured (.cmd ⟨op, dir, param, num, id, o, w, lo, hi⟩)).toOption

/-- What the configured decoder reads from eight payload bytes. -/
def request (b : Payload) : Option Instr := (decode Cfg.configured (.sdo b)).toOption

theorem test_decode_register : port 0x01 0 0 3 0 0 0 0 0 = some (.register (.ext 2)) := by decide +kernel
theorem test_decode_register_mapping : port 0x01 0 0 0 0 0 0 0 0 = some (.register .mapping) := by decide +kernel
theorem test_decode_addIoi : port 0x02 0 0 0 0x601 0 0 0 0 = some (.addIoi 0x601) := by decide +kernel
theorem test_decode_clearIoi : port 0x03 0 0 0 0 0 0 0 0 = some .clearIoi := by decide +kernel
theorem test_decode_dispatch : port 0x04 0 0 0 0x201 0 0 0xAB 7 = some (.dispatch 0x201 ⟨0xAB, 7⟩) := by decide +kernel
theorem test_decode_add :
    port 0x10 1 3 0 0x201 16 8 0x3F800000 5 = some (.add .recv 3 0x201 16 8 0x3F800000 5) := by decide +kernel
theorem test_decode_add_send : port 0x10 0 3 0 0x201 0 8 0 0 = some (.add .send 3 0x201 0 8 0 0) := by decide +kernel
theorem test_decode_remove : port 0x11 0 2 0 0 0 0 0 0 = some (.remove 2) := by decide +kernel
theorem test_decode_findFirst : port 0x12 0 3 0 0 0 0 0 0 = some (.findFirst 3) := by decide +kernel
theorem test_decode_forEach : port 0x13 0 0 9 0 0 0 0 0 = some (.forEach 9) := by decide +kernel
theorem test_decode_clear : port 0x14 0 0 0 0 0 0 0 0 = some .clear := by decide +kernel
theorem test_decode_sendSweep : port 0x20 0 0 0 0 0 0 0 0 = some .sendSweep := by decide +kernel
theorem test_decode_unpack : port 0x21 0 0 2 0 0 0 1 7 = some (.unpack ⟨1, 7⟩ 2) := by decide +kernel
theorem test_decode_pack : port 0x22 0 0 2 0 0 0 1 7 = some (.pack ⟨1, 7⟩ 2) := by decide +kernel
theorem test_decode_mapRx : port 0x23 0 0 0 0x201 0 0 1 7 = some (.mapRx 0x201 ⟨1, 7⟩) := by decide +kernel
theorem test_decode_mapCleared : port 0x24 0 0 0 0 0 0 0 0 = some .mapCleared := by decide +kernel
theorem test_decode_saveBegin : port 0x30 0 0 0 0 0 0 0 0 = some .saveBegin := by decide +kernel
theorem test_decode_saveEnd : port 0x31 0 0 0 0 0 0 0 0 = some .saveEnd := by decide +kernel
theorem test_decode_load : port 0x32 0 0 0 0 0 0 0 0 = some .load := by decide +kernel
theorem test_decode_unknown : port 0x33 0 0 0 0 0 0 0 0 = none := by decide +kernel
theorem test_decode_param_too_wide : port 0x11 0 65536 0 0 0 0 0 0 = none := by decide +kernel
/-- S3. -/
theorem test_decode_prmWr : request (bytes 0x40 0x00 0x20 0x05 0x40 0x1F 0x00 0x00) = some (.sdoPrmWr 5 0x1F40) := by
  decide +kernel
/-- S1. -/
theorem test_decode_prmRd : request (bytes 0x22 0x00 0x20 0x05 0xEF 0xBE 0xAD 0xDE) = some (.sdoPrmRd 5 0xDEADBEEF) := by
  decide +kernel
/-- S6. -/
theorem test_decode_pidWr : request (bytes 0x40 0x01 0x20 0x2A 0x40 0x06 0x00 0x00) = some (.sdoPidWr 42 0x640) := by
  decide +kernel
/-- S5. -/
theorem test_decode_pidRd : request (bytes 0x22 0x01 0x20 0x2A 0x00 0x00 0x00 0x00) = some (.sdoPidRd 42 0) := by
  decide +kernel
/-- S26. -/
theorem test_decode_sdoMapTx :
    request (bytes 0x40 0x00 0x33 0x09 0x10 0x0C 0x40 0x00) = some (.sdoMapTx 0 0x300 9 16 12 0x40) := by decide +kernel
/-- S27: index 0x3B00 names identifier 0x300 again. -/
theorem test_decode_sdoMapTx_second :
    request (bytes 0x40 0x00 0x3B 0x0A 0x08 0x00 0x20 0x00) = some (.sdoMapTx 1 0x300 10 8 0 0x20) := by decide +kernel
/-- S31. -/
theorem test_decode_sdoMapRx :
    request (bytes 0x40 0xFF 0x47 0x08 0x00 0x20 0xE0 0xFF) = some (.sdoMapRx 0x7FF 8 0 32 0xFFE0) := by decide +kernel
/-- S15. -/
theorem test_decode_echoPrm :
    request (bytes 0x23 0x01 0x20 0x2A 0x55 0x00 0x00 0x00) = some (.sdoEchoPrm 1 0x23 42 0x55) := by decide +kernel
/-- S16. -/
theorem test_decode_echoMapTx :
    request (bytes 0x22 0x00 0x33 0x09 0x00 0x00 0x00 0x00) = some (.sdoEchoMapTx 0x300 0x22 9 0) := by decide +kernel
/-- S17. -/
theorem test_decode_echoMapRx :
    request (bytes 0x22 0x01 0x42 0x09 0x00 0x00 0x00 0x00) = some (.sdoEchoMapRx 0x201 0x22 9 0) := by decide +kernel
/-- S22: the first index past the receive range. -/
theorem test_decode_invIdx :
    request (bytes 0x40 0x00 0x48 0x05 0x00 0x08 0x20 0x00) = some (.sdoInvIdx 0x40 0x4800 5 0x00200800) := by
  decide +kernel
/-- The host's form of S26. -/
theorem test_table_word : decodeTableWord 64 0x00400C1009330040 = some (.sdoMapTx 0 0x300 9 16 12 0x40) := by
  decide +kernel
/-- The host's step on a selector from reset: SAVE_BEGIN closes the gate. -/
theorem test_fetch_saveBegin : (nextOf (step (State.reset.withFetchWord 8 0x30))).map State.busy = some true := by
  decide +kernel

/-! ## Operations: the vectors of spec/95_test_vectors.md -/

/-- X1. -/
theorem test_register_first :
    after (.register .mapping) State.reset (fun t => (t.cons, t.result)) = some ([.mapping], .bool true) := by
  decide +kernel
/-- X3. -/
theorem test_register_full :
    after (.register (.ext 2)) { boot with cons := [.mapping, .ext 1] } (fun t => (t.cons, t.result)) =
      some ([.mapping, .ext 1], .bool false) := by decide +kernel
/-- X6. -/
theorem test_addIoi_new :
    after (.addIoi 0x201) boot (fun t => (t.ioi, t.out, t.result)) =
      some ([0x601, 0x201], [.btConfigureFilter [0x601, 0x201]], .bool true) := by decide +kernel
/-- X7. -/
theorem test_addIoi_full :
    after (.addIoi 0x203) crowded (fun t => (t.ioi, t.out, t.result)) = some (crowded.ioi, [], .bool false) := by
  decide +kernel
/-- X12: the list from nothing, one call for each registration. -/
theorem test_clearIoi :
    after .clearIoi gated (fun t => (t.ioi, t.out)) =
      some ([0x601, 0x201],
        [.btConfigureFilter [], .btConfigureFilter [0x601], .btConfigureFilter [0x601, 0x201]]) := by decide +kernel
/-- A1, P1 step 2: 171.0. -/
theorem test_dispatch_mapped :
    after (.dispatch 0x201 ⟨0xAB, 0⟩) gated (fun t => (t.out, t.store[3]?)) =
      some ([.psKind 3, .psSetFixed 3 0x432B0000], some 0x432B0000) := by decide +kernel
/-- X9. -/
theorem test_dispatch_dropped : after (.dispatch 0x7FF ⟨1, 2⟩) boot State.out = some [] := by decide +kernel
/-- M1: the three limits at their maximum. -/
theorem test_add_limits :
    after (.add .recv 3 0x1FFFFFFF 63 32 0x3F800000 0) boot (fun t => (t.result, t.tables.recv.take 1, t.tables.pool.take 1, t.ioi)) =
      some (.count 1, [⟨0x1FFFFFFF, .slot 0⟩], [⟨3, 0, 0x3F800000, 63, 32, .endMark⟩], [0x601, 0x1FFFFFFF]) := by
  decide +kernel
/-- M5: the first failing test wins. -/
theorem test_add_first_failure :
    after (.add .recv 3 0x20000000 64 33 0x3F800000 0) boot (fun t => (t.result, t.tables, t.out)) =
      some (.error .invalidId, boot.tables, []) := by decide +kernel
/-- M18, with the slots of `full`: head and tail go, the rest keep their order. -/
theorem test_remove :
    after (.remove 41) full (fun t => (t.result, t.tables.pool.map Slot.next, t.ioi)) =
      some (.removed 2, [.endMark, .freeMark, .endMark, .freeMark], full.ioi) := by decide +kernel
/-- M23: an entry whose only binding goes becomes free. -/
theorem test_remove_head :
    after (.remove 40) full (fun t => (t.result, t.tables.send.map Entry.head, t.tables.recv.map Entry.head)) =
      some (.removed 2, [.slot 1, .endMark, .endMark], [.slot 3, .endMark, .endMark]) := by decide +kernel
/-- M25, P1 step 3. -/
theorem test_findFirst :
    after (.findFirst 3) gated State.result = some (.found 0x201 0 8 0x3F800000 .recv) := by decide +kernel
/-- P1 step 7. -/
theorem test_findFirst_missing : after (.findFirst 4) gated State.result = some .notFound := by decide +kernel
/-- M21: send before receive, table order, chain order. -/
theorem test_forEach :
    after (.forEach 9) full State.out =
      some [.visit 9 .send 0x300 40 4 12 0x41000000 256, .visit 9 .send 0x300 41 28 8 0x3F800000 0,
        .visit 9 .recv 0x201 40 8 8 0x3F000000 0xFFFFFFD8, .visit 9 .recv 0x201 41 56 8 0x3F800000 0] := by
  decide +kernel
/-- M28. -/
theorem test_clear :
    after .clear full (fun t => (tablesEmpty t.tables, t.ioi, t.out, t.cons)) =
      some (true, [0x601], [.btConfigureFilter [], .btConfigureFilter [0x601]], [.mapping]) := by decide +kernel
/-- G1. -/
theorem test_sendSweep :
    after .sendSweep gated State.out = some [.psGetFloat 5, .btSend 0x300 0x00001560 0] := by decide +kernel
/-- G4. -/
theorem test_sendSweep_gated : after .sendSweep saving State.out = some [] := by decide +kernel
/-- UN2: `(200 - 40) * 0.5 = 80.0`. -/
theorem test_unpack :
    after (.unpack ⟨0x0000C800, 0⟩ 2) full State.out = some [.psKind 40, .psSetFloat 40 0x42A00000] := by decide +kernel
/-- UN7: wire byte 7. -/
theorem test_unpack_high :
    after (.unpack ⟨0, 0xAB000000⟩ 3) full State.out = some [.psKind 41, .psSetFloat 41 0x432B0000] := by decide +kernel
/-- K17: `-0.125` to 2047. -/
theorem test_pack :
    after (.pack ⟨0, 0⟩ 0) { full with store := full.store.set 40 0xBE000000 } State.result =
      some (.frame ⟨0x00007FF0, 0⟩) := by decide +kernel
/-- F1: the field is ORed in. -/
theorem test_pack_or :
    after (.pack ⟨0x80000001, 9⟩ 0) { full with store := full.store.set 40 0xBE000000 } State.result =
      some (.frame ⟨0x80007FF1, 9⟩) := by decide +kernel
/-- F2: the store calls in chain order. -/
theorem test_mapRx :
    after (.mapRx 0x201 ⟨0x0000C800, 0xAB000000⟩) full (fun t => (t.out, t.result)) =
      some ([.psKind 40, .psSetFloat 40 0x42A00000, .psKind 41, .psSetFloat 41 0x432B0000],
        .claimed true ⟨0x0000C800, 0xAB000000⟩) := by decide +kernel
/-- G3. -/
theorem test_mapRx_gated :
    after (.mapRx 0x201 ⟨0xAB, 0⟩) saving (fun t => (t.out, t.result)) = some ([], .claimed false ⟨0xAB, 0⟩) := by
  decide +kernel
/-- R187: the SDO identifier first. -/
theorem test_mapCleared :
    after .mapCleared { gated with ioi := [], filter := [] } State.ioi = some [0x601, 0x201] := by decide +kernel
/-- G2, with a blank flash. -/
theorem test_saveBegin :
    after .saveBegin gated (fun t => (t.busy, t.tables == saving.tables, t.out)) =
      some (true, true, [.flIsErased, .psIdFromNum 3, .psIdFromNum 5]) := by decide +kernel
/-- R231: a flash that is not blank is erased. -/
theorem test_saveBegin_erases :
    after .saveBegin { gated with flash := [(0, 0x00), (1023, 0x00), (1024, 0x00)] } (fun t => (t.flash, t.out.take 2)) =
      some ([(1024, 0x00)], [.flIsErased, .flErase]) := by decide +kernel
/-- G9. -/
theorem test_saveEnd :
    after .saveEnd saving (fun t => (t.busy, t.tables == gated.tables)) = some (false, true) := by decide +kernel
/-- R30, R41: the field keeps PARAM_REF_BITS of a persistent identifier. -/
theorem test_saveBegin_width :
    after .saveBegin { gated with cfg := { gated.cfg with paramRefBits := 5 } } (fun t => t.tables.pool.map Slot.param) =
      some [8, 10, 0, 0] := by decide +kernel
/-- R282: another build starts with the flash of the old one and its own parameters. -/
theorem test_rebuild :
    (nextOf (runEnv (.rebuild reordered []) { gated with flash := goodFlash })).map
      (fun t => (t.cfg == reordered, t.flash == goodFlash, tablesEmpty t.tables)) = some (true, true, true) := by
  decide +kernel
/-- G11: a blank flash. -/
theorem test_load_blank :
    after .load boot (fun t => (t.result, t.tables == boot.tables, t.ioi)) = some (.bool false, true, [0x601]) := by
  decide +kernel
/-- R234: a good image comes back in the enumeration form and registers its identifier. -/
theorem test_load_image :
    after .load { boot with flash := goodFlash } (fun t => (t.result, shownTable t.tables == shownTable gated.tables, t.ioi)) =
      some (.bool true, true, [0x601, 0x201]) := by decide +kernel
/-- S1. -/
theorem test_sdo_S1 :
    served (bytes 0x22 0x00 0x20 0x05 0xEF 0xBE 0xAD 0xDE) sdoBoot =
      replied (bytes 0x43 0x00 0x20 0x05 0x60 0x15 0x00 0x00) := by decide +kernel
/-- S2. -/
theorem test_sdo_S2 :
    served (bytes 0x40 0x00 0x20 0x05 0xE8 0x03 0x00 0x00) sdoBoot =
      replied (bytes 0x23 0x00 0x20 0x05 0xE8 0x03 0x00 0x00) := by decide +kernel
/-- S3, A2. -/
theorem test_sdo_S3 :
    served (bytes 0x40 0x00 0x20 0x05 0x40 0x1F 0x00 0x00) sdoBoot =
      replied (bytes 0x80 0x00 0x20 0x05 0x30 0x00 0x09 0x06) := by decide +kernel
/-- S5, with `V[5] = 171.0`. -/
theorem test_sdo_S5 :
    served (bytes 0x22 0x01 0x20 0x2A 0x00 0x00 0x00 0x00) sdoBoot =
      replied (bytes 0x43 0x01 0x20 0x2A 0x60 0x15 0x00 0x00) := by decide +kernel
/-- S8. -/
theorem test_sdo_S8 :
    served (bytes 0x22 0x01 0x20 0x0A 0x00 0x00 0x00 0x00) sdoBoot =
      replied (bytes 0x80 0x01 0x20 0x0A 0x00 0x00 0x02 0x06) := by decide +kernel
/-- S6. -/
theorem test_sdo_S6 :
    served (bytes 0x40 0x01 0x20 0x2A 0x40 0x06 0x00 0x00) sdoBoot =
      replied (bytes 0x23 0x01 0x20 0x2A 0x40 0x06 0x00 0x00) := by decide +kernel
/-- S9. -/
theorem test_sdo_S9 :
    served (bytes 0x40 0x01 0x20 0x0A 0x20 0x00 0x00 0x00) sdoBoot =
      replied (bytes 0x80 0x01 0x20 0x0A 0x00 0x00 0x02 0x06) := by decide +kernel
/-- S26. -/
theorem test_sdo_S26 :
    served (bytes 0x40 0x00 0x33 0x09 0x10 0x0C 0x40 0x00) sdoBoot =
      replied (bytes 0x23 0x00 0x33 0x09 0x10 0x0C 0x40 0x00) := by decide +kernel
/-- S26's binding: gain 2.0. -/
theorem test_sdo_S26_binding :
    after (.sdoMapTx 0 0x300 9 16 12 0x40) sdoBoot (fun t => (t.tables.send.take 1, t.tables.pool.take 1)) =
      some ([⟨0x300, .slot 0⟩], [⟨9, 0, 0x40000000, 16, 12, .endMark⟩]) := by decide +kernel
/-- S29. -/
theorem test_sdo_S29 :
    served (bytes 0x40 0x01 0x42 0x07 0x40 0x08 0x20 0x00) sdoBoot =
      replied (bytes 0x80 0x01 0x42 0x07 0x30 0x00 0x09 0x06) := by decide +kernel
/-- S31's binding: gain -1.0, registered. -/
theorem test_sdo_S31 :
    after (.sdoMapRx 0x7FF 8 0 32 0xFFE0) sdoBoot (fun t => (t.tables.recv.take 1, t.tables.pool.take 1, t.ioi)) =
      some ([⟨0x7FF, .slot 0⟩], [⟨8, 0, 0xBF800000, 0, 32, .endMark⟩], [0x601, 0x7FF]) := by decide +kernel
/-- S14. -/
theorem test_sdo_S14 :
    served (bytes 0x80 0x00 0x20 0x05 0x30 0x00 0x09 0x06) sdoBoot =
      replied (bytes 0x80 0x00 0x20 0x05 0x30 0x00 0x09 0x06) := by decide +kernel
/-- S16. -/
theorem test_sdo_S16 :
    served (bytes 0x22 0x00 0x33 0x09 0x00 0x00 0x00 0x00) sdoBoot =
      replied (bytes 0x22 0x00 0x33 0x09 0x00 0x00 0x00 0x00) := by decide +kernel
/-- S17. -/
theorem test_sdo_S17 :
    served (bytes 0x22 0x01 0x42 0x09 0x00 0x00 0x00 0x00) sdoBoot =
      replied (bytes 0x22 0x01 0x42 0x09 0x00 0x00 0x00 0x00) := by decide +kernel
/-- S11: `sub = PARAM_COUNT`. -/
theorem test_sdo_S11 :
    served (bytes 0x22 0x00 0x20 0x40 0x00 0x00 0x00 0x00) sdoBoot =
      replied (bytes 0x80 0x00 0x20 0x40 0x00 0x00 0x02 0x06) := by decide +kernel
/-- S22. -/
theorem test_sdo_S22 :
    served (bytes 0x40 0x00 0x48 0x05 0x00 0x08 0x20 0x00) sdoBoot =
      replied (bytes 0x80 0x00 0x48 0x05 0x00 0x00 0x02 0x06) := by decide +kernel

/-! ## Numbers: R101, R180, R181 -/

/-- UN4: 16777217 rounds to even. -/
theorem test_ofNat_rounds : f32OfNat 16777217 = 0x4B800000 := by decide +kernel
/-- UN15: `1000 * 0.1` rounds to 100.0. -/
theorem test_mul_rounds : f32Mul 0x447A0000 0x3DCCCCCD = 0x42C80000 := by decide +kernel
/-- R180: 2^24 + 1.0 is a tie and goes to the even 2^24; the largest value doubled is infinity; 1 - 1 is +0. -/
theorem test_add_rounds :
    f32Add 0x4B800000 0x3F800000 = 0x4B800000 ∧ f32Add 0x7F7FFFFF 0x7F7FFFFF = 0x7F800000 ∧
      f32Add 0x3F800000 0xBF800000 = 0 := by decide +kernel
/-- K3: 170.99 truncates to 170. -/
theorem test_trunc : f32TruncI32 0x432AFD71 = some 170 := by decide +kernel
/-- K22: 2147483648.0 is outside the i32 range. -/
theorem test_trunc_range : f32TruncI32 0x4F000000 = none := by decide +kernel
/-- R101: 0x0010 is 0.5. -/
theorem test_gain : gainOf Cfg.configured 0x0010 = 0x3F000000 := by decide +kernel

/-! ## Witnesses -/

/-- An outcome that has a next state is one. -/
theorem next_of_isSome {o : Host.Outcome State Fault Refusal} (h : (nextOf o).isSome = true) : ∃ t, o = .next t := by
  cases o with
  | next t => exact ⟨t, rfl⟩
  | fault f => cases h
  | refused r => cases h

/-- Two operations in a row that complete. -/
theorem next_of_bind {i j : Instr} {s : State}
    (h : ((nextOf (exec i s)).bind fun t => nextOf (exec j t)).isSome = true) :
    ∃ t u, exec i s = .next t ∧ exec j t = .next u := by
  cases h1 : exec i s with
  | next t =>
    rw [h1] at h
    obtain ⟨u, hu⟩ := next_of_isSome h
    exact ⟨t, u, rfl, hu⟩
  | fault f => rw [h1] at h; cases h
  | refused r => rw [h1] at h; cases h

theorem witness_ResetMeetsInvariant : Memory.wf goodFlash = true ∧ goodFlash ≠ [] := by decide +kernel

theorem witness_StepRunsDecodedOperation :
    decode boot.cfg (.cmd (CmdPort.ofOp 0x14)) = .ok .clear ∧ Instr.clear.wellFormed boot.cfg = true ∧
      { boot with pending := [.op (.cmd (CmdPort.ofOp 0x14))] }.pending = .op (.cmd (CmdPort.ofOp 0x14)) :: [] ∧
      decode boot.cfg (.cmd (CmdPort.ofOp 0x15)) = .error (.unknownSelector 0x15) ∧ State.reset.pending = [] := by
  decide +kernel

theorem witness_DecodeEncodeAgree :
    (Instr.register (.ext (2 ^ 32 - 2))).wellFormed Cfg.configured = true ∧
      (Instr.add .recv 65535 0xFFFFFFFF 255 255 0x7FC00000 0xFFFFFFFF).wellFormed Cfg.configured = true ∧
      (Instr.sdoPrmWr 63 0xFFFFFFFF).wellFormed Cfg.configured = true ∧
      (Instr.sdoMapTx 1 0x7FF 63 255 255 0xFFFF).wellFormed Cfg.configured = true ∧
      (Instr.sdoEchoPrm 1 0x41 63 0).wellFormed Cfg.configured = true ∧
      (Instr.sdoEchoMapRx 0x7FF 0x22 63 0).wellFormed Cfg.configured = true ∧
      (Instr.sdoInvIdx 0x40 0x2000 64 0).wellFormed Cfg.configured = true ∧
      (Instr.sdoInvIdx 0x40 0x4800 63 0).wellFormed Cfg.configured = true := by decide +kernel

/-- CLEAR as the next request. -/
def clearNext : State := { gated with pending := [.op (.cmd (CmdPort.ofOp 0x14))] }

/-- LOAD as the next request, with a good image in the flash. -/
def loadNext : State := { boot with flash := goodFlash, pending := [.op (.cmd (CmdPort.ofOp 0x32))] }

theorem witness_StepKeepsInvariant :
    (Inv clearNext ∧ LoadIsSound clearNext ∧ ∃ t, step clearNext = .next t) ∧
      (Inv loadNext ∧ LoadIsSound loadNext ∧ ∃ t, step loadNext = .next t) := by
  refine ⟨⟨by decide +kernel, fun f rest hp hd _ => ?_, next_of_isSome (by decide +kernel)⟩,
    ⟨by decide +kernel, fun _ _ _ _ _ => by decide +kernel, next_of_isSome (by decide +kernel)⟩⟩
  cases hp
  exact absurd hd (by decide +kernel)

theorem witness_BrokenTablesRefused : ¬ Sound broken := by decide +kernel

theorem witness_BusyGate :
    (∃ t, exec .saveBegin gated = .next t) ∧ (∃ t, exec .saveEnd saving = .next t) ∧
      (∃ t, exec .clearIoi saving = .next t) ∧ Sound saving ∧ saving.busy = true ∧
      (0x201 : Ident).toNat ≠ saving.cfg.requestId ∧ (0x601 : Ident).toNat = saving.cfg.requestId ∧
      sdoClass saving.cfg (bytes 0x40 0x00 0x20 0x05 0 0 0 0) ≠ .mapTx ∧
      sdoClass saving.cfg (bytes 0x40 0x00 0x20 0x05 0 0 0 0) ≠ .mapRx :=
  ⟨next_of_isSome (by decide +kernel), next_of_isSome (by decide +kernel), next_of_isSome (by decide +kernel),
    by decide +kernel⟩

theorem witness_WhoWritesWhat :
    (∃ t, exec (.register .mapping) State.reset = .next t) ∧
      (∃ t, exec (.dispatch 0x201 ⟨0xAB, 0⟩) gated = .next t) ∧ Part.cons ∉ mayWrite (.dispatch 0x201 ⟨0xAB, 0⟩) ∧
      (∃ t, exec .clear gated = .next t) ∧ NoExternals gated :=
  ⟨next_of_isSome (by decide +kernel), next_of_isSome (by decide +kernel), by decide, next_of_isSome (by decide +kernel),
    fun n => by simp [gated, boot]⟩

theorem witness_SaveExcludesTableOperations :
    (Sound saving ∧ saving.busy = true) ∧ (Sound gated ∧ gated.busy = false ∧ tablesEmpty gated.tables = false) := by decide +kernel

theorem witness_RegisterAppendsConsumer :
    Sound State.reset ∧ State.reset.cons.length < State.reset.cfg.maxConsumers ∧
      Sound { boot with cons := [.mapping, .ext 1] } ∧ ¬ [Consumer.mapping, .ext 1].length < boot.cfg.maxConsumers := by
  decide +kernel

theorem witness_AddIoiAppendsIdentifier :
    Sound gated ∧ (0x555 : Ident) ∉ gated.ioi ∧ gated.ioi.length < gated.cfg.maxIoi ∧ (0x201 : Ident) ∈ gated.ioi ∧
      Sound crowded ∧ ¬ crowded.ioi.length < crowded.cfg.maxIoi := by decide +kernel

theorem witness_ClearIoiReregisters :
    (Sound crowded ∧ crowded.cons = [.mapping] ∧
      (BitVec.ofNat 32 crowded.cfg.requestId :: recvIds crowded.tables).Nodup ∧
      (BitVec.ofNat 32 crowded.cfg.requestId :: recvIds crowded.tables).length ≤ crowded.cfg.maxIoi) ∧
      NoExternals crowded ∧ Sound { crowded with cons := [.ext 1, .mapping, .ext 0] } :=
  ⟨by decide +kernel, fun n => by simp [crowded, boot], by decide +kernel⟩

theorem witness_MapClearedRegisters : Sound gated ∧ AcceptanceOk gated ∧ Sound saving ∧ AcceptanceOk saving := by
  decide +kernel

theorem witness_DispatchCompletes :
    (Sound gated ∧ gated.busy = false) ∧
      (Sound saving ∧ (∀ n, .ext n ∉ saving.cons) ∧ sdoClass saving.cfg (bytes 0x22 0x00 0x20 0x05 0 0 0 0) ≠ .mapTx ∧
        sdoClass saving.cfg (bytes 0x22 0x00 0x20 0x05 0 0 0 0) ≠ .mapRx) ∧
      (0x201 : Ident).toNat ≠ gated.cfg.requestId :=
  ⟨by decide +kernel, ⟨by decide +kernel, fun n => by simp [saving, gated, boot], by decide +kernel, by decide +kernel⟩,
    by decide +kernel⟩

/-- An outcome seen through a field of its next state. -/
theorem next_of_after {α : Type} {i : Instr} {s : State} {f : State → α} {a : α} (h : after i s f = some a) :
    ∃ t, exec i s = .next t ∧ f t = a := by
  unfold after at h
  cases ho : exec i s with
  | next t => rw [ho] at h; exact ⟨t, rfl, Option.some.inj h⟩
  | fault e => rw [ho] at h; cases h
  | refused e => rw [ho] at h; cases h

theorem witness_FirstClaimantWins :
    (Sound State.reset ∧ State.reset.cons = []) ∧
      (Sound gated ∧ gated.cons = .mapping :: [] ∧
        (∃ t, exec (.mapRx 0x201 ⟨0xAB, 0⟩) gated = .next t ∧ t.result = .claimed true ⟨0xAB, 0⟩) ∧
        ∃ t, exec (.mapRx 0x202 ⟨0xAB, 0⟩) gated = .next t ∧ t.result = .claimed false ⟨0xAB, 0⟩) ∧
      (Sound { gated with cons := [.ext 1, .mapping] } ∧
        { gated with cons := [.ext 1, .mapping] }.cons = .ext 1 :: [.mapping]) :=
  ⟨by decide +kernel, ⟨by decide +kernel, rfl, next_of_after (by decide +kernel), next_of_after (by decide +kernel)⟩,
    by decide +kernel⟩

theorem witness_UnclaimedFrameDropped :
    (Sound gated ∧ (∀ h ∈ gated.cons, h = .mapping) ∧ (0x7FF : Ident).toNat ≠ gated.cfg.requestId ∧
      ∀ e ∈ gated.tables.recv, entryUsed e = true → e.id ≠ 0x7FF) ∧
      (Sound saving ∧ (∀ h ∈ saving.cons, h = .mapping) ∧ saving.busy = true) ∧
      (Sound State.reset ∧ State.reset.cons = []) := by decide +kernel

theorem witness_AddReportsFirstFailure :
    (Sound full ∧ full.busy = false ∧ EntryAvailable full.tables .recv 0x203 ∧ ¬ SlotAvailable full.tables) ∧
      (Sound crowded ∧ crowded.busy = false ∧ ¬ EntryAvailable crowded.tables .recv 0x203) ∧
      0x1FFFFFFF < (0x20000000 : Ident).toNat ∧ (0x1FFFFFFF : Ident).toNat ≤ 0x1FFFFFFF ∧ 63 < (64 : Byte).toNat ∧
      (63 : Byte).toNat ≤ 63 ∧ 32 < (33 : Byte).toNat ∧ (32 : Byte).toNat ≤ 32 := by decide +kernel

theorem witness_AddAppendsBinding :
    (Sound crowded ∧ crowded.busy = false ∧ EntryAvailable crowded.tables .recv 0x7FF ∧ SlotAvailable crowded.tables) ∧
      (Sound gated ∧ gated.busy = false ∧ EntryAvailable gated.tables .recv 0x1FFFFFFF ∧ SlotAvailable gated.tables ∧
        (0x1FFFFFFF : Ident) ∉ gated.ioi ∧ gated.ioi.length < gated.cfg.maxIoi) ∧
      paramRefFits gated.cfg 65535 = true ∧ (0x1FFFFFFF : Ident).toNat ≤ 0x1FFFFFFF ∧ (63 : Byte).toNat ≤ 63 ∧ (32 : Byte).toNat ≤ 32 := by decide +kernel

theorem witness_AddTakesLowestFree :
    (Sound gated ∧ gated.busy = false ∧ paramRefFits gated.cfg 65535 = true ∧ (0x300 : Ident).toNat ≤ 0x1FFFFFFF ∧
      (63 : Byte).toNat ≤ 63 ∧ (32 : Byte).toNat ≤ 32 ∧ EntryAvailable gated.tables .send 0x300 ∧
      SlotAvailable gated.tables) ∧
      findEntry gated.tables .send 0x300 = some 0 ∧
      (0x1FFFFFFF : Ident).toNat ≤ 0x1FFFFFFF ∧ EntryAvailable gated.tables .send 0x1FFFFFFF ∧
      findEntry gated.tables .send 0x1FFFFFFF = none := by decide +kernel

theorem witness_RemoveDropsParameter : Sound full ∧ full.busy = false := by decide +kernel

theorem witness_RemovedParameterNotFound : ∃ t, exec (.remove 40) full = .next t := next_of_isSome (by decide +kernel)

theorem witness_FindFirstSearchesInOrder :
    (Sound gated ∧ gated.busy = false) ∧
      (shownTable gated.tables =
        [(.send, 0x300, 5, 0, 16, 0x42000000, 0)] ++ (.recv, 0x201, 3, 0, 8, 0x3F800000, 0) :: []) ∧
      (∀ x ∈ [((.send, 0x300, 5, 0, 16, 0x42000000, 0) : Dir × Ident × Nat × Byte × Byte × F32 × Word)], x.2.2.1 ≠ 3) ∧
      (∀ x ∈ shownTable gated.tables, x.2.2.1 ≠ 4) :=
  ⟨by decide +kernel, rfl, by decide +kernel, by decide +kernel⟩

theorem witness_ForEachVisitsInOrder : Sound full ∧ full.busy = false := by decide +kernel

theorem witness_ClearFreesEverything :
    (Sound full ∧ full.busy = false ∧ full.cons = [.mapping] ∧ 1 ≤ full.cfg.maxIoi) ∧ NoExternals full :=
  ⟨by decide +kernel, fun n => by simp [full, gated, boot]⟩

theorem witness_FieldMaskAndPosition : 32 ≤ 32 ∧ 24 + 8 ≤ 32 ∧ 0 + 32 ≤ 32 ∧ 32 + 0 ≤ 32 := by decide

/-- A binding at a place of the payload. -/
def placed (o w : Byte) : Slot := { noSlot with bitOff := o, bitW := w }

theorem witness_FieldIsPayloadSlice :
    straddling (placed 24 8) = false ∧ straddling (placed 0 32) = false ∧ straddling (placed 32 32) = false ∧
      straddling (placed 63 1) = false ∧ straddling (placed 32 0) = false ∧ straddling (placed 64 0) = false := by
  decide +kernel

theorem witness_UnpackWritesScaledField :
    Sound full ∧ (3 : Word).toNat < full.cfg.maxItems ∧ slotUsed (slotAt full.tables 3) = true ∧
      full.cfg.params[(slotAt full.tables 3).param]? = some ⟨.float, 78, 0xC47A0000, 0x447A0000⟩ ∧
      straddling (slotAt full.tables 3) = false ∧ slotUsed (slotAt full.tables 1) = true ∧
      straddling (slotAt full.tables 1) = true := by decide +kernel

theorem witness_UnpackWritesNoBlockState :
    Sound gated ∧ (3 : Word).toNat < gated.cfg.maxItems ∧ gated.cfg.maxItems ≤ (4 : Word).toNat := by decide +kernel

theorem witness_PackInsertsTruncatedValue :
    Sound full ∧ (0 : Word).toNat < full.cfg.maxItems ∧ slotUsed (slotAt full.tables 0) = true ∧
      straddling (slotAt full.tables 0) = false ∧
      storeGetFloat full.cfg full.store (slotAt full.tables 0).param = some 0 ∧
      f32TruncI32 (f32Mul (f32Add 0 (f32OfInt (slotAt full.tables 0).offset.toInt)) (slotAt full.tables 0).gain) = some 2048 ∧
      (1 : Word).toNat < full.cfg.maxItems ∧ slotUsed (slotAt full.tables 1) = true ∧
      straddling (slotAt full.tables 1) = true := by decide +kernel

theorem witness_PackKeepsBitsOutsideField :
    Sound full ∧ (3 : Word).toNat < full.cfg.maxItems ∧ slotUsed (slotAt full.tables 3) = true ∧
      straddling (slotAt full.tables 3) = false := by decide +kernel

theorem witness_PackWritesNoState :
    Sound gated ∧ (3 : Word).toNat < gated.cfg.maxItems ∧ gated.cfg.maxItems ≤ (4 : Word).toNat := by decide +kernel

theorem witness_MapRxUnpacksChain :
    Sound full ∧ full.busy = false ∧ (0x201 : Ident).toNat ≠ full.cfg.requestId ∧
      (⟨0x201, .slot 2⟩ : Entry) ∈ full.tables.recv ∧ entryUsed ⟨0x201, .slot 2⟩ = true ∧
      ParamsValid full.cfg full.tables ∧ chain full.tables (.slot 2) = [2, 3] ∧
      ∀ j ∈ chain full.tables (.slot 2), straddling (slotAt full.tables j) = false := by decide +kernel

theorem witness_MapRxClaimsMappedFrames :
    Sound full ∧ full.busy = false ∧ (0x201 : Ident).toNat ≠ full.cfg.requestId ∧
      (∃ e ∈ full.tables.recv, entryUsed e = true ∧ e.id = 0x201) ∧ (0x202 : Ident).toNat ≠ full.cfg.requestId ∧
      ∀ e ∈ full.tables.recv, entryUsed e = true → e.id ≠ 0x202 := by decide +kernel

theorem witness_SweepSendsEachEntryOnce :
    (Sound full ∧ full.busy = false ∧ (full.tables.send.filter entryUsed).length = 1) ∧
      (Sound gated ∧ gated.busy = false ∧ gated.tables.send.filter entryUsed = [⟨0x300, .slot 1⟩] ∧
        chain gated.tables (.slot 1) = [1] ∧
        sentInteger gated.cfg gated.store (slotAt gated.tables 1) = some 0x1560) := by decide +kernel

/-- A finite value from its three parts. -/
theorem f32Value_of {a : F32} (n : Bool) (m : Nat) (e : Int) (hn : f32Neg a = n) (hm : f32Sig a = m) (he : f32Scale a = e) :
    f32Value a = (if n then -1 else 1) * (m : ℚ) * (2 : ℚ) ^ e := by rw [f32Value, hn, hm, he]

theorem witness_TruncationDropsFraction :
    (f32IsNaN 0xCF000000 = false ∧ f32IsInf 0xCF000000 = false ∧ truncRat (f32Value 0xCF000000) = -2 ^ 31) ∧
      (f32IsNaN 0x4EFFFFFF = false ∧ f32IsInf 0x4EFFFFFF = false ∧ truncRat (f32Value 0x4EFFFFFF) = 2147483520) ∧
      f32IsNaN 0x7FC00000 = true ∧ f32IsInf 0x7F800000 = true ∧ truncRat (f32Value 0x4F000000) = 2 ^ 31 ∧
      truncRat (f32Value 0xCF000001) = -2147483904 := by
  refine ⟨⟨by decide +kernel, by decide +kernel, ?_⟩, ⟨by decide +kernel, by decide +kernel, ?_⟩, by decide +kernel,
    by decide +kernel, ?_, ?_⟩
  · rw [f32Value_of true 8388608 8 (by decide +kernel) (by decide +kernel) (by decide +kernel)]; norm_num [truncRat]
  · rw [f32Value_of false 16777215 7 (by decide +kernel) (by decide +kernel) (by decide +kernel)]; norm_num [truncRat]
  · rw [f32Value_of false 8388608 8 (by decide +kernel) (by decide +kernel) (by decide +kernel)]; norm_num [truncRat]
  · rw [f32Value_of true 8388609 8 (by decide +kernel) (by decide +kernel) (by decide +kernel)]; norm_num [truncRat]

theorem witness_RoundingIsNearest :
    (f32RoundMag 16777217 0 < 0x7F800000 ∧ f32RoundMag 3 (-150) < 0x7F800000 ∧ 0x7F7FFFFF < 0x7F800000) ∧
      ([0x7F7FFFFF, 0xFF7FFFFF, 0x00000001, 0x80000000].all fun a => !f32IsNaN a && !f32IsInf a) = true := by
  decide +kernel

theorem witness_SmallIntegersExact : (-2 ^ 24 ≤ (-2 ^ 24 : Int) ∧ (-2 ^ 24 : Int) ≤ 2 ^ 24) ∧ (2 ^ 24 : Int) ≤ 2 ^ 24 := by
  decide

theorem witness_GainConversionExact :
    Cfg.configured.gainFracBits ≤ 16 ∧ { Cfg.configured with gainFracBits := 16, gainSigned := false }.gainFracBits ≤ 16 := by
  decide +kernel

/-- A binding with gain 1 and offset 0. -/
def unitBinding (o w : Byte) : Slot := { noSlot with gain := f32OfInt 1, bitOff := o, bitW := w }

theorem witness_UnitRoundTripLossless :
    (straddling (unitBinding 56 8) = false ∧ (unitBinding 56 8).gain = f32OfInt 1 ∧ (unitBinding 56 8).offset = 0 ∧
      255 < 2 ^ (unitBinding 56 8).bitW.toNat ∧ 255 < 2 ^ 24) ∧
      (straddling (unitBinding 0 32) = false ∧ 2 ^ 24 - 1 < 2 ^ (unitBinding 0 32).bitW.toNat) := by decide +kernel

theorem witness_SdoPrmRdAnswersRawWord :
    let b := bytes 0x22 0x00 0x20 0x3F 0 0 0 0
    Sound boot ∧ b.cmd = 0x22 ∧ b.index = 0x2000 ∧ b.sub.toNat < boot.cfg.paramCount := by decide +kernel

theorem witness_SdoPrmWrValidates :
    let b := bytes 0x40 0x00 0x20 0x3F 0x20 0 0 0
    let r := bytes 0x40 0x00 0x20 0x3F 0xFF 0xFF 0xFF 0x7F
    (Sound boot ∧ b.cmd = 0x40 ∧ b.index = 0x2000 ∧ b.sub.toNat < boot.cfg.paramCount ∧
      storeAcceptsRaw boot.cfg boot.store b.sub.toNat b.data = true) ∧
      r.cmd = 0x40 ∧ r.index = 0x2000 ∧ r.sub.toNat < boot.cfg.paramCount ∧
      storeAcceptsRaw boot.cfg boot.store r.sub.toNat r.data = false := by decide +kernel

theorem witness_SdoPidRdTranslates :
    let b := bytes 0x22 0x01 0x20 0x25 0 0 0 0
    let r := bytes 0x22 0x01 0x20 0x24 0 0 0 0
    (Sound boot ∧ b.cmd = 0x22 ∧ b.index = 0x2001 ∧ b.sub.toNat < boot.cfg.paramCount ∧
      storeNumFromId boot.cfg b.sub.toNat < boot.cfg.paramCount) ∧
      r.cmd = 0x22 ∧ r.index = 0x2001 ∧ r.sub.toNat < boot.cfg.paramCount ∧
      boot.cfg.paramCount ≤ storeNumFromId boot.cfg r.sub.toNat := by decide +kernel

theorem witness_SdoPidWrTranslates :
    let b := bytes 0x40 0x01 0x20 0x25 0x20 0 0 0
    let x := bytes 0x40 0x01 0x20 0x25 0xFF 0xFF 0xFF 0x7F
    let r := bytes 0x40 0x01 0x20 0x24 0x20 0 0 0
    (Sound boot ∧ b.cmd = 0x40 ∧ b.index = 0x2001 ∧ b.sub.toNat < boot.cfg.paramCount ∧
      storeNumFromId boot.cfg b.sub.toNat < boot.cfg.paramCount ∧
      storeAcceptsRaw boot.cfg boot.store (storeNumFromId boot.cfg b.sub.toNat) b.data = true) ∧
      (x.cmd = 0x40 ∧ x.index = 0x2001 ∧ x.sub.toNat < boot.cfg.paramCount ∧
      storeNumFromId boot.cfg x.sub.toNat < boot.cfg.paramCount ∧
      storeAcceptsRaw boot.cfg boot.store (storeNumFromId boot.cfg x.sub.toNat) x.data = false) ∧
      r.cmd = 0x40 ∧ r.index = 0x2001 ∧ r.sub.toNat < boot.cfg.paramCount ∧
      boot.cfg.paramCount ≤ storeNumFromId boot.cfg r.sub.toNat := by decide +kernel

theorem witness_MappingRequestsInstallBinding :
    ((∀ b ∈ [bytes 0x40 0x00 0x30 0x3F 0 8 0x20 0, bytes 0x40 0xFF 0x3F 0x3F 64 33 0x20 0],
        b.cmd = 0x40 ∧ b.sub.toNat < gated.cfg.paramCount ∧ 0x3000 ≤ b.index.toNat ∧ b.index.toNat ≤ 0x3FFF) ∧
      (∀ b ∈ [bytes 0x40 0x00 0x40 0x3F 0 8 0x20 0, bytes 0x40 0xFF 0x47 0x3F 64 33 0x20 0],
        b.cmd = 0x40 ∧ b.sub.toNat < gated.cfg.paramCount ∧ 0x4000 ≤ b.index.toNat ∧ b.index.toNat ≤ 0x47FF)) ∧
      (Sound gated ∧ gated.busy = false ∧ (63 : Byte).toNat < gated.cfg.paramCount ∧
        gated.cfg.paramCount ≤ 2 ^ gated.cfg.paramRefBits ∧ (63 : Byte).toNat ≤ 63 ∧ (32 : Byte).toNat ≤ 32 ∧
        EntryAvailable gated.tables .send ((0x7FF : BitVec 11).zeroExtend 32) ∧
        EntryAvailable gated.tables .recv ((0x201 : BitVec 11).zeroExtend 32) ∧ SlotAvailable gated.tables) ∧
      63 < (64 : Byte).toNat ∧ 32 < (33 : Byte).toNat ∧
      (Sound crowded ∧ crowded.busy = false ∧ (63 : Byte).toNat < crowded.cfg.paramCount ∧
        ¬ EntryAvailable crowded.tables .recv ((0x123 : BitVec 11).zeroExtend 32)) ∧
      (Sound full ∧ full.busy = false ∧ (63 : Byte).toNat < full.cfg.paramCount ∧ ¬ SlotAvailable full.tables) := by decide +kernel

theorem witness_EchoSendsRequestBack :
    (Sound boot ∧ encode (.sdoEchoPrm 1 0x23 42 0x55) = .sdo (bytes 0x23 0x01 0x20 0x2A 0x55 0 0 0) ∧
      encode (.sdoEchoMapTx 0x300 0x22 9 0) = .sdo (bytes 0x22 0x00 0x33 0x09 0 0 0 0) ∧
      encode (.sdoEchoMapRx 0x201 0x22 9 0) = .sdo (bytes 0x22 0x01 0x42 0x09 0 0 0 0)) ∧
      (∀ b ∈ [bytes 0x22 0x00 0x30 0x3F 0 0 0 0, bytes 0x80 0xFF 0x47 0x3F 0 0 0 0],
        b.sub.toNat < boot.cfg.paramCount ∧ 0x3000 ≤ b.index.toNat ∧ b.index.toNat ≤ 0x47FF ∧ b.cmd ≠ 0x40) := by
  decide +kernel

theorem witness_InvalidIndexAborts :
    Sound boot ∧ boot.cfg.paramCount ≤ (bytes 0x22 0x00 0x20 0x40 0 0 0 0).sub.toNat ∧
      ∀ b ∈ [bytes 0x40 0xFF 0x1F 0 0 0 0 0, bytes 0x40 0x02 0x20 0 0 0 0 0, bytes 0x40 0xFF 0x2F 0 0 0 0 0,
        bytes 0x40 0x00 0x48 0 0 0 0 0],
        b.index ≠ 0x2000 ∧ b.index ≠ 0x2001 ∧ ¬ (0x3000 ≤ b.index.toNat ∧ b.index.toNat ≤ 0x47FF) := by decide +kernel

theorem witness_ExactlyOneReply :
    ∃ t, exec (decodeSdo saving.cfg (bytes 0x22 0x00 0x20 0x05 0 0 0 0)) saving = .next t :=
  next_of_isSome (by decide +kernel)

theorem witness_SdoRequestAlwaysClaimed :
    (0x601 : Ident).toNat = gated.cfg.requestId ∧ gated.cons = .mapping :: [] ∧
      (∃ t, exec (.mapRx 0x601 (bytes 0x22 0x00 0x33 0x05 0 0 0 0)) gated = .next t) ∧
      ∃ t, exec (decodeSdo gated.cfg (bytes 0x22 0x00 0x33 0x05 0 0 0 0)) gated = .next t ∧
        t.result = .buffer (bytes 0x22 0x00 0x33 0x05 0 0 0 0) :=
  ⟨by decide +kernel, rfl, next_of_isSome (by decide +kernel), next_of_after (by decide +kernel)⟩

theorem witness_SaveBeginRemaps :
    (Sound gated ∧ gated.busy = false ∧ Memory.isErased gated.flash (imageBytes gated.cfg) = true) ∧
      Memory.isErased goodFlash (imageBytes gated.cfg) = false := by decide +kernel

theorem witness_SaveEndRemapsBack : Sound saving ∧ saving.busy = true := by decide +kernel

theorem witness_SaveRestoresTables :
    LawTranslation gated.cfg ∧ PidsFit gated.cfg ∧ ParamsValid gated.cfg gated.tables ∧ gated.busy = false ∧
      ∃ t u, exec .saveBegin gated = .next t ∧ exec .saveEnd t = .next u :=
  ⟨by decide +kernel, by decide +kernel, by decide +kernel, by decide +kernel, next_of_bind (by decide +kernel)⟩

theorem witness_SaveWriteStoresImage :
    Sound saving ∧ Memory.wf saving.flash = true ∧ saving.busy = true ∧ imageFits saving.cfg = true := by decide +kernel

theorem witness_LoadMismatchChangesNothing :
    Sound boot ∧ boot.busy = false ∧ tablesEmpty boot.tables = true ∧ imageFits boot.cfg = true ∧
      cksumOf boot.cfg (storedWords boot.cfg boot.flash) ≠ storedCksum boot.cfg boot.flash := by decide +kernel

theorem witness_LoadMatchInstallsImage :
    let s := { boot with flash := goodFlash }
    Sound s ∧ s.busy = false ∧ tablesEmpty s.tables = true ∧ imageFits s.cfg = true ∧
      cksumOf s.cfg (storedWords s.cfg s.flash) = storedCksum s.cfg s.flash := by decide +kernel

theorem witness_PlainImageMeetsLaws :
    Cfg.configured.image = .plain ∧ imageWords Cfg.configured < 2 ^ 32 ∧
      tablesSound Cfg.configured full.tables = true := by decide +kernel

/-- Tables with no free entry and no free slot, whose image takes no draw. -/
def packed : State :=
  { gated with
    cfg := { Cfg.configured with maxMessages := 1, maxItems := 2 }
    tables := { send := [⟨0x300, .slot 1⟩], recv := [⟨0x201, .slot 0⟩],
                pool := [⟨3, 0, 0x3F800000, 0, 8, .endMark⟩, ⟨63, 0xFFFFFFFF, 0x42000000, 63, 32, .endMark⟩] } }

/-- R111: references of more than one word come back from the plain layout. -/
theorem test_image_wide_references :
    let c := { packed.cfg with paramRefBits := 40 }
    let t := remapped c (fun n => 2 ^ 40 - 1 - n) packed.tables
    tablesSound c t = true ∧ LawRoundTripAt c t 0 := by decide +kernel

/-- R31, R111: a link that needs more than one word comes back from the plain layout. -/
theorem test_image_wide_links :
    let c := { packed.cfg with maxItems := 2 ^ 40 }
    plainDeEntry c (plainEntry c 0 ⟨0x201, .slot (2 ^ 35 + 1)⟩) = ⟨0x201, .slot (2 ^ 35 + 1)⟩ := by decide +kernel

/-- R234: the calls of a LOAD that succeeds. -/
theorem test_load_calls :
    after .load { boot with flash := goodFlash } (fun t => t.out.drop (boot.out.length + 33)) =
      some [.psNumFromId 40, .psNumFromId 42, .btConfigureFilter [0x601, 0x201]] := by decide +kernel

theorem witness_SaveThenLoadRestores :
    (Sound packed ∧ Memory.wf packed.flash = true ∧ packed.busy = false ∧ imageFits packed.cfg = true ∧
      LawRoundTripAt packed.cfg (remapped packed.cfg (storeIdFromNum packed.cfg) packed.tables) packed.draws ∧
      LawTranslation packed.cfg ∧ PidsFit packed.cfg ∧ ParamsValid packed.cfg packed.tables) ∧
      let c' := { packed.cfg with params := Cfg.configured.params.reverse }
      c'.paramCount ≤ 2 ^ c'.paramRefBits ∧ LawRebuild packed.cfg c' (fun n => 63 - n) := by decide +kernel

end Sys2Proof.Tests
end

section
/-! PROOFS. The step, one equation for each form of the oldest request (R70, R74). -/

namespace Sys2Proof.Machine

/-- An operation that decodes runs on the state without its request. -/
theorem step_of_decode_ok {s : State} {f : Fetch} {rest : List Request} {i : Instr}
    (hp : s.pending = .op f :: rest) (hd : decode s.cfg f = .ok i) : step s = exec i { s with pending := rest } := by
  simp only [step, hp, runRequest, State.setPending, hd]

/-- An operation that does not decode is refused with the decoder's reason. -/
theorem step_of_decode_error {s : State} {f : Fetch} {rest : List Request} {e : DecodeError}
    (hp : s.pending = .op f :: rest) (hd : decode s.cfg f = .error e) : step s = .refused (.badCommand e) := by
  simp only [step, hp, runRequest, State.setPending, hd]

/-- An event from outside happens on the state without its request. -/
theorem step_of_env {s : State} {e : EnvEvent} {rest : List Request} (hp : s.pending = .env e :: rest) :
    step s = runEnv e { s with pending := rest } := by
  simp only [step, hp, runRequest, State.setPending]

/-- With no request the state stays (R281). -/
theorem step_of_idle {s : State} (hp : s.pending = []) : step s = .next s := by
  simp only [step, hp]

/-- Settles O3: one equation of `step` for each form of the oldest request. -/
theorem stepRunsDecodedOperation : Obligations.StepRunsDecodedOperation := fun _ =>
  ⟨fun _ _ _ hp hd _ => step_of_decode_ok hp hd, fun _ _ _ hp hd => step_of_decode_error hp hd,
    fun _ _ hp => step_of_env hp, step_of_idle⟩

end Sys2Proof.Machine
end

section
/-! PROOFS. Byte reads and writes of a payload as slices of its 64-bit value (R13, R63), and the SDO fields as such
slices (R93). -/

namespace Sys2Proof

/-! ## A payload is its 64-bit value -/

/-- The payload made of a value has that value. -/
@[simp] theorem Payload.value_ofValue (v : BitVec 64) : (Payload.ofValue v).value = v :=
  BitVec.extractLsb'_append_extractLsb'_eq_extractLsb' (x := v) (start₁ := 0) (len₁ := 32) (len₂ := 32) rfl |>.trans
    BitVec.extractLsb'_eq_self

/-- A slice of the value inside bytes 0 to 3 is a slice of the low word. -/
theorem Payload.extract_value_lo (b : Payload) {start len : Nat} (h : start + len ≤ 32) :
    b.value.extractLsb' start len = b.lo.extractLsb' start len := BitVec.extractLsb'_append_eq_of_add_le h

/-- Bytes 4 to 7 of the value are the high word. -/
theorem Payload.extract_value_hi (b : Payload) : b.value.extractLsb' 32 32 = b.hi :=
  (BitVec.extractLsb'_append_eq_of_le le_rfl).trans BitVec.extractLsb'_eq_self

/-- Payloads with the same bits are the same. -/
theorem Payload.eq_of_value_bits {b b' : Payload} (h : ∀ i < 64, b.value.getLsbD i = b'.value.getLsbD i) : b = b' := by
  have hv : b.value = b'.value := BitVec.eq_of_getLsbD_eq h
  have hlo : b.lo = b'.lo := by
    rw [← BitVec.extractLsb'_eq_self (x := b.lo), ← BitVec.extractLsb'_eq_self (x := b'.lo),
      ← Payload.extract_value_lo b le_rfl, ← Payload.extract_value_lo b' le_rfl, hv]
  have hhi : b.hi = b'.hi := by rw [← Payload.extract_value_hi, ← Payload.extract_value_hi, hv]
  cases b
  cases b'
  exact congrArg₂ Payload.mk hlo hhi

/-! ## SDO fields -/

/-- A payload is made of its four fields. -/
theorem sdoPayload_fields (b : Payload) : sdoPayload b.cmd b.index b.sub b.data = b := by
  have hlo : b.sub ++ b.index ++ b.cmd = b.lo := by
    refine BitVec.eq_of_getLsbD_eq fun i hi => ?_
    simp only [Payload.sub, Payload.index, Payload.cmd, BitVec.getLsbD_append, BitVec.getLsbD_extractLsb']
    by_cases hc : i < 8
    · simp [hc]
    by_cases hx : i < 24
    · simp [hc, show i - 8 < 16 by omega, show 8 + (i - 8) = i by omega]
    · simp [hc, show ¬ i - 8 < 16 by omega, show i - 8 - 16 < 8 by omega, show 24 + (i - 8 - 16) = i by omega]
  rw [sdoPayload, hlo]
  rfl

/-- The command byte is bits 0 to 7 of the payload value. -/
theorem sdoPayload_cmd_getLsbD (b : Payload) (k : Byte) (i : Nat) :
    (sdoPayload k b.index b.sub b.data).value.getLsbD i = if i < 8 then k.getLsbD i else b.value.getLsbD i := by
  conv_rhs => rw [← sdoPayload_fields b]
  simp only [sdoPayload, Payload.value, BitVec.getLsbD_append]
  by_cases h : i < 8
  · simp [h, show i < 32 by omega]
  · simp [h]

/-- The data field is bits 32 to 63 of the payload value. -/
theorem sdoPayload_data_getLsbD (b : Payload) (w : Word) (i : Nat) :
    (sdoPayload b.cmd b.index b.sub w).value.getLsbD i =
      if i < 32 then b.value.getLsbD i else w.getLsbD (i - 32) := by
  conv_rhs => rw [← sdoPayload_fields b]
  simp only [sdoPayload, Payload.value, BitVec.getLsbD_append]
  by_cases h : i < 32
  · simp [h]
  · simp [h]

end Sys2Proof

namespace Sys2Proof.Machine

/-! ## Byte reads and writes -/

/-- A read of `n` bytes from byte `a` on is a slice of the value. -/
theorem memRead_eq_extract (b : Payload) (a n : Nat) :
    memRead b a n = (b.value.extractLsb' (8 * a) (8 * n)).toNat := by
  rw [memRead, BitVec.extractLsb'_toNat, Nat.shiftRight_eq_div_pow]

/-- The mask of bytes `a` to `a + n - 1` has exactly their bits. -/
theorem byteMask_getLsbD (a n : Nat) {i : Nat} (hi : i < 64) :
    (byteMask a n).getLsbD i = decide (8 * a ≤ i ∧ i < 8 * (a + n)) := by
  rw [byteMask, BitVec.getLsbD_ofNat, decide_eq_true hi, Bool.true_and, Nat.testBit_mul_two_pow,
    Nat.testBit_two_pow_sub_one, ← Bool.decide_and]
  exact decide_eq_decide.mpr (by omega)

/-- A write of bytes `a` to `a + n - 1` puts the number's bits there and keeps every other bit. -/
theorem memWrite_getLsbD (b : Payload) (a n v : Nat) {i : Nat} (hi : i < 64) :
    (memWrite b a n v).value.getLsbD i =
      if 8 * a ≤ i ∧ i < 8 * (a + n) then v.testBit (i - 8 * a) else b.value.getLsbD i := by
  rw [memWrite, Payload.value_ofValue, BitVec.getLsbD_or, BitVec.getLsbD_and, BitVec.getLsbD_and, BitVec.getLsbD_not,
    byteMask_getLsbD a n hi, BitVec.getLsbD_ofNat, Nat.testBit_mul_two_pow]
  by_cases h : 8 * a ≤ i ∧ i < 8 * (a + n)
  · simp [h, hi]
  · simp [h, hi]

/-- Writing byte 0 replaces the command byte. -/
theorem memWrite_cmd (b : Payload) (k : Byte) : memWrite b 0 1 k.toNat = sdoPayload k b.index b.sub b.data := by
  refine Payload.eq_of_value_bits fun i hi => ?_
  rw [memWrite_getLsbD b 0 1 _ hi, sdoPayload_cmd_getLsbD]
  simp [BitVec.testBit_toNat]

/-- Writing bytes 4 to 7 replaces the data field. -/
theorem memWrite_data (b : Payload) (w : Word) : memWrite b 4 4 w.toNat = sdoPayload b.cmd b.index b.sub w := by
  refine Payload.eq_of_value_bits fun i hi => ?_
  rw [memWrite_getLsbD b 4 4 _ hi, sdoPayload_data_getLsbD]
  by_cases h : i < 32
  · rw [if_neg (by omega), if_pos h]
  · rw [if_pos (by omega), if_neg h]
    rfl

/-- Byte 0 is the command byte. -/
theorem memRead_cmd (b : Payload) : memRead b 0 1 = b.cmd.toNat := by
  rw [memRead_eq_extract, Payload.extract_value_lo b (by decide)]
  rfl

/-- Bytes 1 and 2 are the index. -/
theorem memRead_index (b : Payload) : memRead b 1 2 = b.index.toNat := by
  rw [memRead_eq_extract, Payload.extract_value_lo b (by decide)]
  rfl

/-- Byte 3 is the sub-index. -/
theorem memRead_sub (b : Payload) : memRead b 3 1 = b.sub.toNat := by
  rw [memRead_eq_extract, Payload.extract_value_lo b (by decide)]
  rfl

/-- Bytes 4 to 7 are the data. -/
theorem memRead_data (b : Payload) : memRead b 4 4 = b.data.toNat := by
  rw [memRead_eq_extract]
  exact congrArg BitVec.toNat (Payload.extract_value_hi b)

/-- Settles O8: each read is a slice of the value, each write replaces the bits of one field. -/
theorem payloadBytesAreSdoFields : Obligations.PayloadBytesAreSdoFields := fun b w k =>
  ⟨memRead_cmd b, memRead_index b, memRead_sub b, memRead_data b, (sdoPayload_fields b).symm, memWrite_cmd b k,
    memWrite_data b w⟩

end Sys2Proof.Machine
end

section
/-! PROOFS. What an observer sees of the tables is a function of their fields that are not don't-care (R46), and how the
parameter-reference remap (R41) acts on both. -/

namespace Sys2Proof.Machine

/-! ## The remap of one slot -/

/-- A slot with its reference rewritten if it is used (R41). -/
def remapSlot (c : Cfg) (f : Nat → Nat) (b : Slot) : Slot :=
  if slotUsed b then { b with param := c.cutRef (f b.param) } else b

/-- The remap of the tables is that of each slot. -/
theorem remapped_eq (c : Cfg) (f : Nat → Nat) (t : Tables) :
    remapped c f t = { t with pool := t.pool.map (remapSlot c f) } := rfl

/-- A remap uses and frees no slot. -/
@[simp] theorem slotUsed_remapSlot (c : Cfg) (f : Nat → Nat) (b : Slot) :
    slotUsed (remapSlot c f b) = slotUsed b := by
  unfold remapSlot
  split <;> rfl

/-- A used slot's reference is rewritten. -/
theorem remapSlot_used {c : Cfg} {b : Slot} (f : Nat → Nat) (h : slotUsed b = true) :
    remapSlot c f b = { b with param := c.cutRef (f b.param) } := if_pos h

/-- A free slot stays. -/
theorem remapSlot_free {c : Cfg} {b : Slot} (f : Nat → Nat) (h : slotUsed b = false) : remapSlot c f b = b :=
  if_neg (by simp [h])

/-- The slot at an index of the remapped pool. -/
theorem slotAt_remapped (c : Cfg) (f : Nat → Nat) {t : Tables} {j : Nat} (hj : j < t.pool.length) :
    slotAt (remapped c f t) j = remapSlot c f (slotAt t j) := by
  simp [slotAt, remapped_eq, List.getD_eq_getElem?_getD, List.getElem?_eq_getElem hj]

/-! ## Bindings -/

/-- A binding that is shown is a used slot of the pool. -/
theorem used_of_mem_allBindings {t : Tables} {x : Dir × Ident × Slot} (h : x ∈ allBindings t) :
    x.2.2 ∈ t.pool ∧ slotUsed x.2.2 = true := by
  have mem_dir {d : Dir} (hd : x ∈ bindingsOf t d) : x.2.2 ∈ t.pool ∧ slotUsed x.2.2 = true := by
    obtain ⟨e, -, hx⟩ := List.mem_flatMap.mp hd
    split at hx
    · obtain ⟨j, hj, rfl⟩ := List.mem_map.mp hx
      obtain ⟨hlt, hu⟩ := chain_visits j hj
      refine ⟨?_, hu⟩
      simp [slotAt, List.getD_eq_getElem?_getD, List.getElem?_eq_getElem hlt]
    · simp at hx
  exact (List.mem_append.mp h).elim mem_dir mem_dir

/-- A remap rewrites the slot of each binding and keeps their order. -/
theorem allBindings_remapped (c : Cfg) (f : Nat → Nat) (t : Tables) :
    allBindings (remapped c f t) = (allBindings t).map fun x => (x.1, x.2.1, remapSlot c f x.2.2) := by
  have dir (d : Dir) :
      bindingsOf (remapped c f t) d = (bindingsOf t d).map fun x => (x.1, x.2.1, remapSlot c f x.2.2) := by
    have he : entriesOf (remapped c f t) d = entriesOf t d := by cases d <;> rfl
    rw [bindingsOf, bindingsOf, he, List.map_flatMap]
    refine List.flatMap_congr fun e _ => ?_
    split
    · rw [chain_remapped, List.map_map]
      exact List.map_congr_left fun j hj => by rw [Function.comp, slotAt_remapped c f (chain_visits j hj).1]
    · rfl
  rw [allBindings, allBindings, dir, dir, List.map_append]

/-! ## The view without the don't-care fields -/

/-- A slot's link is part of its view: that of a free one is FREE. -/
theorem next_of_slotView {a b : Slot} (h : slotView a = slotView b) : a.next = b.next := by
  unfold slotView at h
  split at h <;> split at h
  · exact congrArg Slot.next (Option.some.inj h)
  · cases h
  · cases h
  · rename_i ha hb
    rw [slotUsed_iff, not_not] at ha hb
    rw [ha, hb]

/-- The view of the slot at an index. -/
theorem slotView_getElem? {p q : List Slot} (h : p.map slotView = q.map slotView) (j : Nat) :
    (p[j]?).map slotView = (q[j]?).map slotView := by
  rw [← List.getElem?_map, ← List.getElem?_map, h]

/-- Walks follow the view of the pool. -/
theorem walk_of_slotView {p q : List Slot} (h : p.map slotView = q.map slotView) (fuel : Nat) (l : Link) :
    walk p fuel l = walk q fuel l := by
  induction fuel generalizing l with
  | zero => cases l <;> simp [walk]
  | succ fuel ih =>
    cases l with
    | endMark => simp
    | freeMark => simp
    | slot j =>
      have hj := slotView_getElem? h j
      rw [walk, walk]
      cases hp : p[j]? with
      | none =>
        cases hq : q[j]? with
        | none => rfl
        | some b => simp [hp, hq] at hj
      | some a =>
        cases hq : q[j]? with
        | none => simp [hp, hq] at hj
        | some b =>
          have hv : slotView a = slotView b := by simpa [hp, hq] using hj
          simp [next_of_slotView hv, ih]

/-- Chains follow the view of the pool. -/
theorem chain_of_slotView {t u : Tables} (h : t.pool.map slotView = u.pool.map slotView) (l : Link) :
    chain t l = chain u l := by
  have hlen : t.pool.length = u.pool.length := by simpa using congrArg List.length h
  rw [chain, chain, walk_of_slotView h, hlen]

/-- A used slot is wholly in the view. -/
theorem slotAt_of_slotView {t u : Tables} (h : t.pool.map slotView = u.pool.map slotView) {j : Nat}
    (hj : j < t.pool.length) (hu : slotUsed (slotAt t j) = true) : slotAt t j = slotAt u j := by
  have hlen : t.pool.length = u.pool.length := by simpa using congrArg List.length h
  have hv : slotView (slotAt t j) = slotView (slotAt u j) := by
    simpa [slotAt, List.getD_eq_getElem?_getD, List.getElem?_eq_getElem, hj, hlen ▸ hj] using slotView_getElem? h j
  rw [slotView, slotView, if_pos hu] at hv
  split at hv
  · exact Option.some.inj hv
  · cases hv

/-- The bindings of the entry that a view shows. -/
def bindingsOfView (t : Tables) (d : Dir) : Option (Ident × Link) → List (Dir × Ident × Slot)
  | none => []
  | some (id, head) => (chain t head).map fun j => (d, id, slotAt t j)

/-- The bindings of a direction are those of its entries' views. -/
theorem bindingsOf_eq_view (t : Tables) (d : Dir) :
    bindingsOf t d = ((entriesOf t d).map plainView).flatMap (bindingsOfView t d) := by
  rw [bindingsOf, List.flatMap_map]
  refine List.flatMap_congr fun e _ => ?_
  unfold plainView
  split <;> rfl

/-- The bindings that are shown are a function of the fields that are not don't-care. -/
theorem allBindings_of_tablesView {t u : Tables} (h : tablesView t = tablesView u) : allBindings t = allBindings u := by
  obtain ⟨hsend, hrecv, hpool⟩ : t.send.map plainView = u.send.map plainView ∧
      t.recv.map plainView = u.recv.map plainView ∧ t.pool.map slotView = u.pool.map slotView := by
    simpa [tablesView] using h
  have hview (d : Dir) : bindingsOfView t d = bindingsOfView u d := by
    funext v
    cases v with
    | none => rfl
    | some e =>
      rw [bindingsOfView, bindingsOfView, ← chain_of_slotView hpool]
      refine List.map_congr_left fun j hj => ?_
      obtain ⟨hlt, hu⟩ := chain_visits j hj
      rw [slotAt_of_slotView hpool hlt hu]
  have hentries (d : Dir) : (entriesOf t d).map plainView = (entriesOf u d).map plainView := by
    cases d
    · exact hsend
    · exact hrecv
  simp only [allBindings, bindingsOf_eq_view, hview, hentries]

/-- The table as FOR_EACH shows it is a function of the fields that are not don't-care. -/
theorem shownTable_of_tablesView {t u : Tables} (h : tablesView t = tablesView u) : shownTable t = shownTable u :=
  congrArg (List.map shown) (allBindings_of_tablesView h)

/-- A remap rewrites the view of a slot. -/
theorem slotView_remapSlot (c : Cfg) (f : Nat → Nat) (b : Slot) :
    slotView (remapSlot c f b) = (slotView b).map (remapSlot c f) := by
  unfold slotView
  rw [slotUsed_remapSlot]
  split <;> rfl

/-- A remap acts on the view. -/
theorem tablesView_remapped {t u : Tables} (c : Cfg) (f : Nat → Nat) (h : tablesView t = tablesView u) :
    tablesView (remapped c f t) = tablesView (remapped c f u) := by
  have hpool (v : Tables) :
      (v.pool.map (remapSlot c f)).map slotView = (v.pool.map slotView).map (Option.map (remapSlot c f)) := by
    simp [Function.comp_def, slotView_remapSlot]
  obtain ⟨hsend, hrecv, hp⟩ : t.send.map plainView = u.send.map plainView ∧
      t.recv.map plainView = u.recv.map plainView ∧ t.pool.map slotView = u.pool.map slotView := by
    simpa [tablesView] using h
  rw [tablesView, tablesView, remapped_eq, remapped_eq, hpool, hpool, hp, hsend, hrecv]

/-! ## The two translations of the store (R237 L4) -/

/-- The persistent identifier of a parameter fits the field `param`. -/
theorem storeIdFromNum_lt {c : Cfg} (hpids : PidsFit c) {n : Nat} (hn : n < c.paramCount) :
    storeIdFromNum c n < 2 ^ c.paramRefBits := by
  rw [storeIdFromNum, List.getElem?_eq_getElem hn]
  exact hpids _ (List.getElem_mem hn)

/-- What a translation to the persistent form in one build and back in another, or the same, leaves of a slot: the
reference that the second build's translation finds by the first one's identifier. -/
theorem remapSlot_translations {c c' : Cfg} (hpids : PidsFit c) {b : Slot} (hu : slotUsed b = true)
    (hb : b.param < c.paramCount) :
    remapSlot c' (storeNumFromId c') (remapSlot c (storeIdFromNum c) b) =
      { b with param := c'.cutRef (storeNumFromId c' (storeIdFromNum c b.param)) } := by
  rw [remapSlot_used _ (by rw [slotUsed_remapSlot, hu]), remapSlot_used _ hu, cutRef_of_lt (storeIdFromNum_lt hpids hb)]

/-- In one build the two remaps undo each other (R233 b). -/
theorem remapped_translations {c : Cfg} {t : Tables} (hs : tablesSound c t = true) (hlaw : LawTranslation c)
    (hpids : PidsFit c) (hvalid : ParamsValid c t) :
    remapped c (storeNumFromId c) (remapped c (storeIdFromNum c) t) = t := by
  obtain ⟨⟨-, -, -, hfit⟩, -⟩ := tablesSound_iff.mp hs
  have hslot : ∀ b ∈ t.pool, remapSlot c (storeNumFromId c) (remapSlot c (storeIdFromNum c) b) = b := fun b hb => by
    cases hu : slotUsed b with
    | false => rw [remapSlot_free _ (by rw [slotUsed_remapSlot, hu]), remapSlot_free _ hu]
    | true =>
      rw [remapSlot_translations hpids hu (hvalid b hb hu), hlaw _ (hvalid b hb hu),
        cutRef_of_lt (refsFit_iff.mp hfit b hb)]
  have hpool : (t.pool.map (remapSlot c (storeIdFromNum c))).map (remapSlot c (storeNumFromId c)) = t.pool := by
    rw [List.map_map]
    exact (List.map_congr_left hslot).trans (List.map_id _)
  rw [remapped_eq, remapped_eq, hpool]

/-- Across a rebuild the two remaps show each binding with its parameter at the new index (R237 L4). -/
theorem shownTable_rebuilt {c c' : Cfg} {t : Tables} {moved : Nat → Nat} (hpids : PidsFit c) (hvalid : ParamsValid c t)
    (hcount : c'.paramCount ≤ 2 ^ c'.paramRefBits) (hlaw : LawRebuild c c' moved) :
    shownTable (remapped c' (storeNumFromId c') (remapped c (storeIdFromNum c) t)) =
      (shownTable t).map fun x => (x.1, x.2.1, moved x.2.2.1, x.2.2.2) := by
  rw [shownTable, allBindings_remapped, allBindings_remapped, shownTable, List.map_map, List.map_map, List.map_map]
  refine List.map_congr_left fun x hx => ?_
  obtain ⟨hmem, hu⟩ := used_of_mem_allBindings hx
  have hp : x.2.2.param < c.paramCount := hvalid _ hmem hu
  obtain ⟨hmoved, hnum⟩ := hlaw _ hp
  simp only [Function.comp, remapSlot_translations hpids hu hp, hnum, cutRef_of_lt (hmoved.trans_le hcount)]
  rfl

end Sys2Proof.Machine
end

section
/-! PROOFS. SAVE_BEGIN, the writing phase, SAVE_END and LOAD as equations (R231 to R234), and what the three phases of a
save leave in the flash. -/

namespace Sys2Proof.Machine

/-! ## One equation for each phase -/

/-- The erase of SAVE_BEGIN, done or left out (R231). -/
theorem eraseIfNeeded_eq (s : State) :
    eraseIfNeeded s =
      { s with
        flash := if Memory.isErased s.flash (imageBytes s.cfg) then s.flash else Memory.erase s.flash s.cfg.eraseUnitBytes
        out := s.out ++ if Memory.isErased s.flash (imageBytes s.cfg) then [.flIsErased] else [.flIsErased, .flErase] } := by
  unfold eraseIfNeeded
  split <;> simp [emit_eq, State.setFlash]

/-- The remap into the persistent form (R231). -/
theorem remapPool_psIdFromNum (s : State) :
    remapPool psIdFromNum s =
      { s with tables := remapped s.cfg (storeIdFromNum s.cfg) s.tables
               out := s.out ++ (s.tables.pool.filter slotUsed).map fun b => .psIdFromNum b.param } :=
  remapPool_eq storeIdFromNum .psIdFromNum s

/-- The remap into the enumeration form (R233, R234). -/
theorem remapPool_psNumFromId (s : State) :
    remapPool psNumFromId s =
      { s with tables := remapped s.cfg (storeNumFromId s.cfg) s.tables
               out := s.out ++ (s.tables.pool.filter slotUsed).map fun b => .psNumFromId b.param } :=
  remapPool_eq storeNumFromId .psNumFromId s

/-- SAVE_BEGIN starts from sound tables only (U5). -/
theorem sound_of_exec_saveBegin {s t : State} (h : exec .saveBegin s = .next t) : Sound s := (whenSound_next.mp h).1

/-- SAVE_BEGIN while the gate is open (R231). -/
theorem exec_saveBegin_eq {s : State} (hs : Sound s) (hb : s.busy = false) :
    exec .saveBegin s = .next
      { s with
        busy := true
        tables := remapped s.cfg (storeIdFromNum s.cfg) s.tables
        flash := if Memory.isErased s.flash (imageBytes s.cfg) then s.flash else Memory.erase s.flash s.cfg.eraseUnitBytes
        out := s.out ++ (if Memory.isErased s.flash (imageBytes s.cfg) then [.flIsErased] else [.flIsErased, .flErase]) ++
          (s.tables.pool.filter slotUsed).map fun b => .psIdFromNum b.param
        result := .none } := by
  have e : exec .saveBegin s = finish .none (remapPool psIdFromNum (eraseIfNeeded (closeGate s))) :=
    (whenSound_of_sound hs).trans (if_neg (by simp [hb]))
  rw [e, remapPool_psIdFromNum, eraseIfNeeded_eq]
  rfl

/-- SAVE_END while the gate is closed (R233). -/
theorem exec_saveEnd_eq {s : State} (hs : Sound s) (hb : s.busy = true) :
    exec .saveEnd s = .next
      { s with
        busy := false
        tables := remapped s.cfg (storeNumFromId s.cfg) s.tables
        out := s.out ++ (s.tables.pool.filter slotUsed).map fun b => .psNumFromId b.param
        result := .none } := by
  have e : exec .saveEnd s = finish .none (openGate (remapPool psNumFromId s)) :=
    (whenSound_of_sound hs).trans (if_pos hb)
  rw [e, remapPool_psNumFromId]
  rfl

/-- The writing phase while the gate is closed (R232). -/
theorem runEnv_saveWrite_eq {s : State} (hs : Sound s) (hb : s.busy = true) (hfit : imageFits s.cfg = true) :
    runEnv .saveWrite s = .next
      (let ws := imageSer s.cfg s.tables s.draws
      let all := ws ++ [cksumOf s.cfg ws]
      { s with
        draws := s.draws + imageDraws s.cfg
        flash := Memory.writeWords s.flash 0 all
        out := s.out ++ programCalls 0 all
        result := .none }) :=
  (whenSound_of_sound hs).trans ((if_pos hb).trans (if_pos hfit))

/-- LOAD of an image whose checksum matches (R234): the tables in the enumeration form, the reads and translations, and
the registration of the receive identifiers. -/
theorem exec_load_match {s : State} (hs : Sound s) (hb : s.busy = false) (he : tablesEmpty s.tables = true)
    (hfit : imageFits s.cfg = true) (hck : cksumOf s.cfg (storedWords s.cfg s.flash) = storedCksum s.cfg s.flash) :
    exec .load s = .next
      (let de := imageDe s.cfg (storedWords s.cfg s.flash)
      let loaded := remapped s.cfg (storeNumFromId s.cfg) de
      { withRegistered (recvIds loaded)
          { s with
            tables := loaded
            out := s.out ++ (List.range (imageWords s.cfg + 1)).map .flRead ++
              (de.pool.filter slotUsed).map fun b => .psNumFromId b.param } with
        result := .bool true }) := by
  have e : exec .load s = .next ((installImage (readImage s)).setResult (.bool true)) :=
    (whenSound_of_sound hs).trans ((whenIdle_of_idle hb).trans ((if_pos he).trans ((if_pos hfit).trans
      (congrArg Host.Outcome.next (if_pos hck)))))
  rw [e, installImage, addIdents_eq, remapPool_psNumFromId]
  rfl

/-! ## The image in the flash -/

/-- The erase of SAVE_BEGIN keeps the flash's canonical form. -/
theorem eraseIfNeeded_wf {s : State} (h : Memory.wf s.flash = true) : Memory.wf (eraseIfNeeded s).flash = true := by
  rw [eraseIfNeeded_eq]
  dsimp only
  split
  · exact h
  · exact Memory.erase_wf _ h

/-- The image words that the writing phase stores read back (R232). -/
theorem storedWords_writeWords {c : Cfg} {m : List Host.Cell} {ws : List Word} (k : Word) (hm : Memory.wf m = true)
    (hl : ws.length = imageWords c) : storedWords c (Memory.writeWords m 0 (ws ++ [k])) = ws := by
  refine List.ext_getElem (by simp [storedWords, hl]) fun i hi hw => ?_
  have hr := Memory.readWord_writeWords 0 i (ws ++ [k]) hm (by simp; omega)
  rw [Nat.zero_add, List.getElem_append_left hw] at hr
  simpa [storedWords] using hr

/-- The checksum word that the writing phase stores reads back (R232). -/
theorem storedCksum_writeWords {c : Cfg} {m : List Host.Cell} {ws : List Word} (k : Word) (hm : Memory.wf m = true)
    (hl : ws.length = imageWords c) : storedCksum c (Memory.writeWords m 0 (ws ++ [k])) = k := by
  have hr := Memory.readWord_writeWords 0 ws.length (ws ++ [k]) hm (by simp)
  rw [Nat.zero_add] at hr
  rw [storedCksum, ← hl, hr]
  simp

/-- Sound tables fill the image exactly (R111). -/
theorem imageSer_length_of_sound {c : Cfg} {t : Tables} (n : Nat) (h : tablesSound c t = true) :
    (imageSer c t n).length = imageWords c := by
  obtain ⟨⟨hsend, hrecv, hpool, -⟩, -⟩ := tablesSound_iff.mp h
  exact imageSer_length n hsend hrecv hpool

/-! ## Save -/

/-- Settles O55: SAVE_BEGIN and SAVE_END each as one equation, and the two remaps undo each other. -/
theorem saveRestoresTables : Obligations.SaveRestoresTables := by
  intro s t u hlaw hpids hvalid hb hbegin hend
  have hs : Sound s := sound_of_exec_saveBegin hbegin
  have ht := Host.Outcome.next.inj ((exec_saveBegin_eq hs hb).symm.trans hbegin)
  have hst : Sound t := ht ▸ sound_remapped (storeIdFromNum s.cfg) hs
  have hbt : t.busy = true := ht ▸ rfl
  have hu := Host.Outcome.next.inj ((exec_saveEnd_eq hst hbt).symm.trans hend)
  rw [← hu, ← ht]
  dsimp only
  rw [remapped_translations hs hlaw hpids hvalid, ← hb]

/-- The three phases of a save complete: the tables are as they were (R233 b), and the flash holds the image of the tables in
the persistent form, with its checksum (R231, R232). -/
theorem save_completes {s : State} (hs : Sound s) (hm : Memory.wf s.flash = true) (hb : s.busy = false)
    (hfit : imageFits s.cfg = true) (hlaw : LawTranslation s.cfg) (hpids : PidsFit s.cfg)
    (hvalid : ParamsValid s.cfg s.tables) :
    ∃ t1 t2 t3, exec .saveBegin s = .next t1 ∧ runEnv .saveWrite t1 = .next t2 ∧ exec .saveEnd t2 = .next t3 ∧
      t3.cfg = s.cfg ∧ t3.tables = s.tables ∧
      storedWords s.cfg t3.flash = imageSer s.cfg (remapped s.cfg (storeIdFromNum s.cfg) s.tables) s.draws ∧
      storedCksum s.cfg t3.flash =
        cksumOf s.cfg (imageSer s.cfg (remapped s.cfg (storeIdFromNum s.cfg) s.tables) s.draws) := by
  have hs1 : tablesSound s.cfg (remapped s.cfg (storeIdFromNum s.cfg) s.tables) = true := sound_remapped _ hs
  have hwf := eraseIfNeeded_wf hm
  rw [eraseIfNeeded_eq] at hwf
  have hlen := imageSer_length_of_sound s.draws hs1
  refine ⟨_, _, _, exec_saveBegin_eq hs hb, runEnv_saveWrite_eq hs1 rfl hfit, exec_saveEnd_eq hs1 rfl, ?_⟩
  dsimp only
  exact ⟨rfl, remapped_translations hs hlaw hpids hvalid, storedWords_writeWords _ hwf hlen,
    storedCksum_writeWords _ hwf hlen⟩

end Sys2Proof.Machine
end

section
/-! PROOFS. LOAD right after a power cycle or a rebuild (R234, R282), and the whole way of the tables through the flash. -/

namespace Sys2Proof.Machine

/-! ## The tables after reset -/

/-- Every entry after reset is free. -/
theorem head_of_mem_emptyTables {c : Cfg} {e : Entry} (h : e ∈ (emptyTables c).send ++ (emptyTables c).recv) :
    e.head = .endMark := by
  rcases List.mem_append.mp h with h | h <;> rw [List.eq_of_mem_replicate h]

/-- Every slot after reset is free. -/
theorem slotUsed_of_mem_emptyTables {c : Cfg} {b : Slot} (h : b ∈ (emptyTables c).pool) : slotUsed b = false := by
  rw [List.eq_of_mem_replicate h]
  rfl

/-- After reset every entry and slot is free, the condition of LOAD (R234 a). -/
theorem tablesEmpty_emptyTables (c : Cfg) : tablesEmpty (emptyTables c) = true := by
  rw [tablesEmpty, Bool.and_eq_true, List.all_eq_true, List.all_eq_true]
  exact ⟨fun e he => by simp [entryUsed, head_of_mem_emptyTables he], fun b hb => by
    simp [slotUsed_of_mem_emptyTables hb]⟩

/-- The tables after reset are sound (R37, R47). -/
theorem tablesSound_emptyTables (c : Cfg) : tablesSound c (emptyTables c) = true := by
  have hfree : ∀ b ∈ (emptyTables c).pool, slotUsed b = false := fun b => slotUsed_of_mem_emptyTables
  have hchained : chainedSlots (emptyTables c) = [] :=
    List.flatMap_eq_nil_iff.mpr fun e he => by rw [head_of_mem_emptyTables he, chain_endMark]
  have hslot (j : Nat) (hj : j < (emptyTables c).pool.length) : slotUsed (slotAt (emptyTables c) j) = false := by
    rw [slotAt, List.getD_eq_getElem _ _ hj]
    exact hfree _ (List.getElem_mem hj)
  refine tablesSound_iff.mpr ⟨⟨by simp [emptyTables], by simp [emptyTables], by simp [emptyTables], ?_⟩, ?_, ?_, ?_, ?_⟩
  · exact refsFit_iff.mpr fun b hb => by rw [List.eq_of_mem_replicate hb]; exact Nat.two_pow_pos _
  · simp [inv1, emptyTables, entryUsed]
  · rw [inv2, hchained]
    simpa using hslot
  · exact List.all_eq_true.mpr fun e he => by rw [head_of_mem_emptyTables he, walk_endMark]; rfl
  · exact List.all_eq_true.mpr fun b hb => by rw [hfree b hb]; rfl

/-- Empty tables show no binding. -/
theorem shownTable_emptyTables (c : Cfg) : shownTable (emptyTables c) = [] := by
  have hnone : allBindings (emptyTables c) = [] := List.eq_nil_iff_forall_not_mem.mpr fun x hx => by
    obtain ⟨hmem, hu⟩ := used_of_mem_allBindings hx
    rw [slotUsed_of_mem_emptyTables hmem] at hu
    cases hu
  rw [shownTable, hnone, List.map_nil]

/-! ## LOAD after a restart -/

/-- What the image words stand for does not depend on the store's enumeration (R111). -/
theorem imageDe_params (c : Cfg) (params : List ParamDecl) (ws : List Word) :
    imageDe { c with params := params } ws = imageDe c ws := rfl

/-- LOAD right after a restart, where the flash holds words with their checksum, brings back the tables that they stand for,
in the enumeration form of the build (R234). -/
theorem exec_load_restart {c : Cfg} {s : State} {ws : List Word} (cells : List Word) (hfit : imageFits c = true)
    (hws : storedWords c s.flash = ws) (hck : storedCksum c s.flash = cksumOf c ws) :
    ∃ t, exec .load (restart c cells s) = .next t ∧ t.cfg = c ∧ t.result = .bool true ∧
      t.tables = remapped c (storeNumFromId c) (imageDe c ws) := by
  subst hws
  exact ⟨_, exec_load_match (s := restart c cells s) (tablesSound_emptyTables c) rfl (tablesEmpty_emptyTables c) hfit
    hck.symm, rfl, rfl, rfl⟩

/-- Settles O60: a save leaves the image of the persistent form in the flash; the words bring back the view of that form by
law L3, under any enumeration, since the layout does not depend on it; and the remap of LOAD acts on the view. -/
theorem saveThenLoadRestores : Obligations.SaveThenLoadRestores := by
  intro s cells hs hm hb hfit hround hlaw hpids hvalid
  obtain ⟨t1, t2, t3, h1, h2, h3, hcfg, htables, hws, hck⟩ := save_completes hs hm hb hfit hlaw hpids hvalid
  rw [← hws] at hck
  refine ⟨t1, t2, t3, h1, h2, h3, htables, ?_, ?_⟩
  · obtain ⟨t5, h5, -, hres, ht⟩ := exec_load_restart cells hfit hws (hws ▸ hck)
    have hview : tablesView t5.tables = tablesView s.tables := by
      rw [ht, tablesView_remapped _ _ hround, remapped_translations hs hlaw hpids hvalid]
    exact ⟨restart s.cfg cells t3, t5, by rw [runEnv, hcfg], h5, shownTable_emptyTables _, hres, hview,
      shownTable_of_tablesView hview⟩
  · intro params moved c' hcount hrebuild
    obtain ⟨t5, h5, hcfg5, hres, ht⟩ := exec_load_restart (c := c') cells hfit hws (hws ▸ hck)
    refine ⟨restart c' cells t3, t5, rfl, h5, hcfg5, hres, ?_⟩
    rw [ht, imageDe_params, shownTable_of_tablesView (tablesView_remapped _ _ hround)]
    exact shownTable_rebuilt hpids hvalid hcount hrebuild

end Sys2Proof.Machine
end

section
/-! PROOFS. What reset and a power cycle leave (R47, R281, R282). -/

namespace Sys2Proof.Machine

/-- The block after reset has the values of R47, whatever the store and the flash hold. -/
theorem fresh_initial (c : Cfg) (store : List Word) (flash : List Host.Cell) :
    Fresh c (State.initial c store flash) := by
  refine ⟨rfl, rfl, rfl, rfl, fun d => ?_, List.length_replicate, fun b hb => ?_⟩
  · cases d
    · exact ⟨List.length_replicate, fun e he => head_of_mem_emptyTables (List.mem_append_left _ he)⟩
    · exact ⟨List.length_replicate, fun e he => head_of_mem_emptyTables (List.mem_append_right _ he)⟩
  · rw [List.eq_of_mem_replicate hb]

/-- The invariant holds after reset over a flash in canonical form (R37). -/
theorem inv_initial (c : Cfg) (store : List Word) {flash : List Host.Cell} (h : Memory.wf flash = true) :
    Inv (State.initial c store flash) :=
  ⟨tablesSound_emptyTables c, ⟨List.nodup_nil, Nat.zero_le _, rfl⟩, Nat.zero_le _, h⟩

/-- Settles O1: a power cycle starts again from the reset state, over the flash as it was. -/
theorem resetLeavesEverythingFree : Obligations.ResetLeavesEverythingFree :=
  ⟨fresh_initial, fresh_initial _ _ _, fun s cells =>
    ⟨restart s.cfg cells s, rfl, fresh_initial s.cfg cells s.flash, rfl, rfl⟩⟩

/-- Settles O2: the tables after reset are sound, and the lists are empty. -/
theorem resetMeetsInvariant : Obligations.ResetMeetsInvariant := fun c store _ => inv_initial c store

end Sys2Proof.Machine
end

section
/-! PROOFS. Soundness of the tables entry by entry: one list of slots for each entry, no slot in two of them (R33 to R36).
Every edit of the tables is then a change of some of these lists. -/

namespace Sys2Proof.Machine

/-! ## Reading after a write -/

/-- The slot at an index after a write of one slot. -/
theorem slotAt_putSlot (t : Tables) (j k : Nat) (b : Slot) :
    slotAt (putSlot t j b) k = if k = j ∧ j < t.pool.length then b else slotAt t k := by
  simp only [slotAt, putSlot, List.getD_eq_getElem?_getD, List.getElem?_set]
  by_cases hkj : k = j
  · subst hkj
    by_cases hk : k < t.pool.length
    · simp [hk]
    · simp [hk]
  · simp [hkj, Ne.symm hkj]

/-- A write of a slot keeps how many there are. -/
@[simp] theorem putSlot_pool_length (t : Tables) (j : Nat) (b : Slot) : (putSlot t j b).pool.length = t.pool.length :=
  List.length_set

/-- A write of a link keeps how many slots there are. -/
@[simp] theorem putNext_pool_length (t : Tables) (j : Nat) (l : Link) : (putNext t j l).pool.length = t.pool.length :=
  putSlot_pool_length _ _ _

/-- The slot at an index after a write of one link. -/
theorem slotAt_putNext (t : Tables) (j k : Nat) (l : Link) :
    slotAt (putNext t j l) k = if k = j ∧ j < t.pool.length then { slotAt t j with next := l } else slotAt t k :=
  slotAt_putSlot _ _ _ _

/-- The entry at an index after a write of one entry. -/
theorem entryAt_putEntry (t : Tables) (d d' : Dir) (i k : Nat) (e : Entry) :
    entryAt (putEntry t d i e) d' k =
      if d' = d ∧ k = i ∧ i < (entriesOf t d).length then e else entryAt t d' k := by
  by_cases hd : d' = d
  · subst hd
    simp only [entryAt, putEntry, entriesOf_setEntries_same, List.getD_eq_getElem?_getD, List.getElem?_set]
    by_cases hki : k = i
    · subst hki
      by_cases hk : k < (entriesOf t d').length
      · simp [hk]
      · simp [hk]
    · simp [hki, Ne.symm hki]
  · simp [entryAt, putEntry, entriesOf_setEntries_other _ _ _ _ hd, hd]

/-- A write of an entry keeps how many there are. -/
@[simp] theorem entriesOf_putEntry_length (t : Tables) (d d' : Dir) (i : Nat) (e : Entry) :
    (entriesOf (putEntry t d i e) d').length = (entriesOf t d').length := by
  by_cases hd : d' = d
  · subst hd
    simp [putEntry]
  · rw [putEntry, entriesOf_setEntries_other _ _ _ _ hd]

/-- Slots are read from the pool alone. -/
theorem slotAt_of_pool {t u : Tables} (h : t.pool = u.pool) (j : Nat) : slotAt t j = slotAt u j := by
  rw [slotAt, slotAt, h]

/-- Entries are read from their table alone. -/
theorem entryAt_of_entries {t u : Tables} {d : Dir} (h : entriesOf t d = entriesOf u d) (i : Nat) :
    entryAt t d i = entryAt u d i := by
  rw [entryAt, entryAt, h]

/-- The entry at an index that exists is an entry of the table. -/
theorem entryAt_mem {t : Tables} {d : Dir} {i : Nat} (h : i < (entriesOf t d).length) :
    entryAt t d i ∈ entriesOf t d := by
  rw [entryAt, List.getD_eq_getElem _ _ h]
  exact List.getElem_mem h

/-- A property of every slot of the pool, by index. -/
theorem forall_mem_pool_iff {t : Tables} {P : Slot → Prop} :
    (∀ b ∈ t.pool, P b) ↔ ∀ j < t.pool.length, P (slotAt t j) := by
  rw [List.forall_mem_iff_forall_getElem]
  exact forall_congr' fun j => forall_congr' fun hj => by rw [slotAt, List.getD_eq_getElem _ _ hj]

/-- A property of every entry of a direction, by index. -/
theorem forall_mem_entries_iff {t : Tables} {d : Dir} {P : Entry → Prop} :
    (∀ e ∈ entriesOf t d, P e) ↔ ∀ i < (entriesOf t d).length, P (entryAt t d i) := by
  rw [List.forall_mem_iff_forall_getElem]
  exact forall_congr' fun i => forall_congr' fun hi => by rw [entryAt, List.getD_eq_getElem _ _ hi]

/-! ## Following links -/

/-- The links lead from `l` through the slots `js`, in this order, to `m`. -/
def Leads (t : Tables) : Link → List Nat → Link → Prop
  | l, [], m => l = m
  | l, j :: js, m => l = .slot j ∧ j < t.pool.length ∧ Leads t (slotAt t j).next js m

/-- A way of two parts. -/
theorem leads_append {t : Tables} {l m : Link} {ks js : List Nat} :
    Leads t l (ks ++ js) m ↔ ∃ x, Leads t l ks x ∧ Leads t x js m := by
  induction ks generalizing l with
  | nil => simp [Leads]
  | cons k ks ih => simp [Leads, ih, and_assoc]

/-- A way visits slots of the pool. -/
theorem Leads.lt {t : Tables} {l m : Link} {js : List Nat} (h : Leads t l js m) : ∀ j ∈ js, j < t.pool.length := by
  induction js generalizing l with
  | nil => simp
  | cons k ks ih =>
    obtain ⟨-, hk, hks⟩ := h
    exact List.forall_mem_cons.mpr ⟨hk, ih hks⟩

/-- A way stays where the links of its slots do. -/
theorem Leads.congr {t u : Tables} {l m : Link} {js : List Nat} (hlen : u.pool.length = t.pool.length)
    (hnext : ∀ j ∈ js, (slotAt u j).next = (slotAt t j).next) (h : Leads t l js m) : Leads u l js m := by
  induction js generalizing l with
  | nil => exact h
  | cons j js ih =>
    obtain ⟨hl, hj, hjs⟩ := h
    obtain ⟨hnj, hnjs⟩ := List.forall_mem_cons.mp hnext
    exact ⟨hl, hlen ▸ hj, hnj ▸ ih hnjs hjs⟩

/-- A new link in the last slot of a way leads somewhere else. -/
theorem Leads.relink_last {t u : Tables} {l m x : Link} {ks : List Nat} {q : Nat} (h : Leads t l (ks ++ [q]) m)
    (hlen : u.pool.length = t.pool.length) (hnext : ∀ j ∈ ks, (slotAt u j).next = (slotAt t j).next)
    (hq : (slotAt u q).next = x) : Leads u l (ks ++ [q]) x := by
  obtain ⟨y, hks, hy, hlt, -⟩ := leads_append.mp h
  exact leads_append.mpr ⟨y, hks.congr hlen hnext, hy, hlen ▸ hlt, hq⟩

/-- From one link only one way leads to END. -/
theorem Leads.unique {t : Tables} {l : Link} {js ks : List Nat} (h : Leads t l js .endMark)
    (h' : Leads t l ks .endMark) : js = ks := by
  induction js generalizing l ks with
  | nil =>
    cases ks with
    | nil => rfl
    | cons k ks =>
      obtain ⟨hl, -⟩ := h'
      exact absurd (hl.symm.trans h) (by simp)
  | cons j js ih =>
    obtain ⟨rfl, -, hjs⟩ := h
    cases ks with
    | nil => exact absurd h' (by simp [Leads])
    | cons k ks =>
      obtain ⟨hk, -, hks⟩ := h'
      obtain rfl := Link.slot.inj hk
      rw [ih hjs hks]

/-- A way to END visits no slot twice: from a slot it would lead on in two ways. -/
theorem Leads.nodup {t : Tables} {l : Link} {js : List Nat} (h : Leads t l js .endMark) : js.Nodup := by
  induction js generalizing l with
  | nil => exact List.nodup_nil
  | cons j js ih =>
    obtain ⟨rfl, hj, hjs⟩ := h
    refine List.nodup_cons.mpr ⟨fun hmem => ?_, ih hjs⟩
    obtain ⟨as, bs, rfl⟩ := List.append_of_mem hmem
    obtain ⟨x, -, hx, -, hbs⟩ := leads_append.mp hjs
    have hloop := congrArg List.length (hjs.unique hbs)
    simp at hloop
    omega

/-- On a way to END a slot is none of the others. -/
theorem Leads.notMem_others {t : Tables} {l : Link} {ks js : List Nat} {j : Nat}
    (h : Leads t l (ks ++ j :: js) .endMark) : j ∉ ks ++ js := (List.nodup_middle.mp h.nodup).notMem

/-- On a way to END the slot before another is a different one. -/
theorem Leads.pred_ne {t : Tables} {l : Link} {ks js : List Nat} {j q : Nat} (h : Leads t l (ks ++ j :: js) .endMark)
    (hq : ks.getLast? = some q) : q ≠ j ∧ q < t.pool.length := by
  have hmem : q ∈ ks := List.mem_of_getLast? hq
  exact ⟨fun e => h.notMem_others (e ▸ List.mem_append_left _ hmem), h.lt q (List.mem_append_left _ hmem)⟩

/-- A way to END visits used slots: a link FREE leads nowhere. -/
theorem Leads.used {t : Tables} {l : Link} {js : List Nat} (h : Leads t l js .endMark) :
    ∀ j ∈ js, slotUsed (slotAt t j) = true := by
  intro j hj
  obtain ⟨as, bs, rfl⟩ := List.append_of_mem hj
  obtain ⟨x, -, -, -, hbs⟩ := leads_append.mp h
  rw [slotUsed_iff]
  intro hfree
  rw [hfree] at hbs
  cases bs <;> simp [Leads] at hbs

/-- A walk that ends has followed the links to END. -/
theorem leads_of_walk {t : Tables} {fuel : Nat} {l : Link} {js : List Nat} (h : walk t.pool fuel l = some js) :
    Leads t l js .endMark := by
  induction fuel generalizing l js with
  | zero =>
    cases l with
    | endMark => simp at h; subst h; rfl
    | freeMark => simp at h
    | slot j => simp [walk] at h
  | succ fuel ih =>
    cases l with
    | endMark => simp at h; subst h; rfl
    | freeMark => simp at h
    | slot j =>
      rw [walk] at h
      cases hb : t.pool[j]? with
      | none => simp [hb] at h
      | some b =>
        simp only [hb, Option.map_eq_some_iff] at h
        obtain ⟨js, hw, rfl⟩ := h
        have hs : slotAt t j = b := by rw [slotAt, List.getD_eq_getElem?_getD, hb, Option.getD_some]
        exact ⟨rfl, (List.getElem?_eq_some_iff.mp hb).1, hs ▸ ih hw⟩

/-- A walk with enough fuel follows the links to END. -/
theorem walk_of_leads {t : Tables} {fuel : Nat} {l : Link} {js : List Nat} (h : Leads t l js .endMark)
    (hfuel : js.length ≤ fuel) : walk t.pool fuel l = some js := by
  induction js generalizing l fuel with
  | nil => rw [show l = .endMark from h, walk_endMark]
  | cons j js ih =>
    obtain ⟨rfl, hj, hjs⟩ := h
    obtain ⟨fuel, rfl⟩ : ∃ n, fuel = n + 1 := ⟨fuel - 1, by simp at hfuel; omega⟩
    rw [slotAt, List.getD_eq_getElem _ _ hj] at hjs
    rw [walk, List.getElem?_eq_getElem hj]
    simp [ih hjs (by simpa using hfuel)]

/-- A way to END is no longer than the pool. -/
theorem Leads.length_le {t : Tables} {l : Link} {js : List Nat} (h : Leads t l js .endMark) :
    js.length ≤ t.pool.length := by
  have hsub : js ⊆ List.range t.pool.length := fun j hj => List.mem_range.mpr (h.lt j hj)
  simpa using (h.nodup.subperm hsub).length_le

/-- The walk that a chain takes ends exactly if the links lead to END. -/
theorem walk_eq_some_iff {t : Tables} {l : Link} {js : List Nat} :
    walk t.pool t.pool.length l = some js ↔ Leads t l js .endMark :=
  ⟨leads_of_walk, fun h => walk_of_leads h h.length_le⟩

/-- The chain is the way to END. -/
theorem Leads.chain_eq {t : Tables} {l : Link} {js : List Nat} (h : Leads t l js .endMark) : chain t l = js := by
  rw [chain, walk_eq_some_iff.mpr h, Option.getD_some]

/-! ## The chains of all entries -/

/-- The slots of entry `tab[d][i]`, in chain order. -/
def chainOf (t : Tables) (d : Dir) (i : Nat) : List Nat := chain t (entryAt t d i).head

/-- The lists `C` are the chains of the entries (INV3), no slot stands in two of them, and the used slots are those that
stand in one (INV2). -/
structure ChainsAre (t : Tables) (C : Dir → Nat → List Nat) : Prop where
  leads : ∀ d, ∀ i < (entriesOf t d).length, Leads t (entryAt t d i).head (C d i) .endMark
  owner : ∀ d, ∀ i < (entriesOf t d).length, ∀ d', ∀ i' < (entriesOf t d').length,
    ∀ j ∈ C d i, j ∈ C d' i' → d' = d ∧ i' = i
  used : ∀ j < t.pool.length, slotUsed (slotAt t j) = true → ∃ d, ∃ i < (entriesOf t d).length, j ∈ C d i

/-- The chain of an entry. -/
theorem ChainsAre.chainOf_eq {t : Tables} {C : Dir → Nat → List Nat} (h : ChainsAre t C) {d : Dir} {i : Nat}
    (hi : i < (entriesOf t d).length) : chainOf t d i = C d i := (h.leads d i hi).chain_eq

/-- INV1 entry by entry (R33). -/
def IdsDistinct (t : Tables) : Prop :=
  ∀ d, ∀ i < (entriesOf t d).length, ∀ k < (entriesOf t d).length,
    entryUsed (entryAt t d i) = true → entryUsed (entryAt t d k) = true →
      (entryAt t d i).id = (entryAt t d k).id → i = k

/-- No identifier stands twice among the used entries of a list, by index. -/
theorem nodup_usedIds_iff {es : List Entry} :
    ((es.filter entryUsed).map Entry.id).Nodup ↔
      ∀ i < es.length, ∀ k < es.length, entryUsed (es.getD i default) = true → entryUsed (es.getD k default) = true →
        (es.getD i default).id = (es.getD k default).id → i = k := by
  rw [List.Nodup, List.pairwise_map, List.pairwise_filter, List.pairwise_iff_getElem]
  constructor
  · intro h i hi k hk hui huk hid
    rw [List.getD_eq_getElem _ _ hi] at hui hid
    rw [List.getD_eq_getElem _ _ hk] at huk hid
    by_contra hne
    rcases Nat.lt_or_gt_of_ne hne with hlt | hlt
    · exact h i k hi hk hlt hui huk hid
    · exact h k i hk hi hlt huk hui hid.symm
  · intro h i k hi hk hlt hui huk hid
    have := h i hi k hk
    rw [List.getD_eq_getElem _ _ hi, List.getD_eq_getElem _ _ hk] at this
    exact absurd (this hui huk hid) (by omega)

/-- INV1 and its form entry by entry. -/
theorem inv1_iff {t : Tables} : inv1 t = true ↔ IdsDistinct t := by
  rw [inv1, Bool.and_eq_true, decide_eq_true_iff, decide_eq_true_iff, nodup_usedIds_iff, nodup_usedIds_iff]
  exact ⟨fun ⟨hs, hr⟩ d => by cases d <;> assumption, fun h => ⟨h .send, h .recv⟩⟩

/-- What a slot's fields must fit: the reference its width (R30), and in a used slot the field's place (INV4, R36). -/
def SlotFits (c : Cfg) (b : Slot) : Prop :=
  b.param < 2 ^ c.paramRefBits ∧ (slotUsed b = true → b.bitOff.toNat ≤ 63 ∧ b.bitW.toNat ≤ 32)

/-- Every slot's fields fit. -/
def SlotsFit (c : Cfg) (t : Tables) : Prop := ∀ j < t.pool.length, SlotFits c (slotAt t j)

/-- The width of the references and INV4 together, slot by slot. -/
theorem refsFit_and_inv4_iff {c : Cfg} {t : Tables} : (refsFit c t = true ∧ inv4 t = true) ↔ SlotsFit c t := by
  rw [refsFit_iff, inv4, List.all_eq_true, forall_mem_pool_iff (P := fun b => b.param < 2 ^ c.paramRefBits),
    forall_mem_pool_iff, ← forall_and]
  refine forall_congr' fun j => ?_
  rw [← forall_and]
  refine forall_congr' fun _ => and_congr_right fun _ => ?_
  cases slotUsed (slotAt t j) <;> simp

/-- Writing a slot that fits keeps the slots in order. -/
theorem SlotsFit.putSlot {c : Cfg} {t : Tables} (h : SlotsFit c t) (j : Nat) {b : Slot} (hb : SlotFits c b) :
    SlotsFit c (putSlot t j b) := by
  intro k hk
  rw [putSlot_pool_length] at hk
  rw [slotAt_putSlot]
  split
  · exact hb
  · exact h k hk

/-- Writing a link keeps the slots in order, if it frees the slot or the slot is in use. -/
theorem SlotsFit.putNext {c : Cfg} {t : Tables} (h : SlotsFit c t) {j : Nat} {l : Link} (hj : j < t.pool.length)
    (hl : l = .freeMark ∨ slotUsed (slotAt t j) = true) : SlotsFit c (putNext t j l) := by
  obtain ⟨hparam, hfields⟩ := h j hj
  refine h.putSlot j ⟨hparam, fun hu => ?_⟩
  rcases hl with rfl | hl
  · exact absurd rfl (slotUsed_iff.mp hu)
  · exact hfields hl

/-- Writing an entry keeps the slots in order. -/
theorem SlotsFit.putEntry {c : Cfg} {t : Tables} (h : SlotsFit c t) (d : Dir) (i : Nat) (e : Entry) :
    SlotsFit c (putEntry t d i e) := by
  intro k hk
  rw [slotAt_of_pool (putEntry_pool t d i e)]
  exact h k (by simpa using hk)

/-- A slot stands in the chains of all entries together if it stands in the chain of one. -/
theorem mem_chainedSlots_iff {t : Tables} {j : Nat} :
    j ∈ chainedSlots t ↔ ∃ d, ∃ i < (entriesOf t d).length, j ∈ chainOf t d i := by
  have dir (d : Dir) : (∃ e ∈ entriesOf t d, j ∈ chain t e.head) ↔
      ∃ i < (entriesOf t d).length, j ∈ chainOf t d i := by
    constructor
    · rintro ⟨e, he, hj⟩
      obtain ⟨i, hi, rfl⟩ := List.getElem_of_mem he
      exact ⟨i, hi, by rwa [chainOf, entryAt, List.getD_eq_getElem _ _ hi]⟩
    · rintro ⟨i, hi, hj⟩
      exact ⟨_, entryAt_mem hi, hj⟩
  have split : (∃ e ∈ t.send ++ t.recv, j ∈ chain t e.head) ↔
      (∃ e ∈ entriesOf t .send, j ∈ chain t e.head) ∨ ∃ e ∈ entriesOf t .recv, j ∈ chain t e.head := by
    simp [entriesOf, or_and_right, exists_or]
  rw [chainedSlots, List.mem_flatMap, split, dir, dir]
  exact ⟨fun h => h.elim (⟨.send, ·⟩) (⟨.recv, ·⟩), fun ⟨d, h⟩ => by cases d <;> [exact .inl h; exact .inr h]⟩

/-- The chain of an entry, from the entry itself. -/
theorem chain_head_getElem {t : Tables} {d : Dir} {i : Nat} (hi : i < (entriesOf t d).length) :
    chain t (entriesOf t d)[i].head = chainOf t d i := by
  rw [chainOf, entryAt, List.getD_eq_getElem _ _ hi]

/-- Two entries whose chains share no slot. -/
def Apart (t : Tables) (a b : Entry) : Prop := List.Disjoint (chain t a.head) (chain t b.head)

/-- The entries of one direction are apart exactly if a slot stands in the chain of one of them at most. -/
theorem pairwise_apart_iff {t : Tables} {d : Dir} :
    (entriesOf t d).Pairwise (Apart t) ↔
      ∀ i < (entriesOf t d).length, ∀ i' < (entriesOf t d).length, ∀ j ∈ chainOf t d i, j ∈ chainOf t d i' → i' = i := by
  rw [List.pairwise_iff_getElem]
  constructor
  · intro h i hi i' hi' j hj hj'
    rw [← chain_head_getElem hi] at hj
    rw [← chain_head_getElem hi'] at hj'
    by_contra hne
    rcases Nat.lt_or_gt_of_ne hne with hlt | hlt
    · exact h i' i hi' hi hlt hj' hj
    · exact h i i' hi hi' hlt hj hj'
  · intro h i i' hi hi' hlt j hj hj'
    rw [chain_head_getElem hi] at hj
    rw [chain_head_getElem hi'] at hj'
    exact absurd (h i hi i' hi' j hj hj') (by omega)

/-- The two directions are apart exactly if no slot stands in a chain of each. -/
theorem send_recv_apart_iff {t : Tables} :
    (∀ a ∈ entriesOf t .send, ∀ b ∈ entriesOf t .recv, Apart t a b) ↔
      ∀ i < (entriesOf t .send).length, ∀ i' < (entriesOf t .recv).length,
        ∀ j ∈ chainOf t .send i, j ∉ chainOf t .recv i' := by
  rw [forall_mem_entries_iff (P := fun a => ∀ b ∈ entriesOf t .recv, Apart t a b)]
  refine forall_congr' fun i => forall_congr' fun _ => ?_
  rw [forall_mem_entries_iff (P := Apart t (entryAt t .send i))]
  exact Iff.rfl

/-- No slot stands twice in the chains of all entries together exactly if each of them is without repetition and no slot
stands in two. -/
theorem chainedSlots_nodup_iff {t : Tables}
    (hnd : ∀ d, ∀ i < (entriesOf t d).length, (chainOf t d i).Nodup) :
    (chainedSlots t).Nodup ↔ ∀ d, ∀ i < (entriesOf t d).length, ∀ d', ∀ i' < (entriesOf t d').length,
      ∀ j ∈ chainOf t d i, j ∈ chainOf t d' i' → d' = d ∧ i' = i := by
  have heach : ∀ e ∈ t.send ++ t.recv, (chain t e.head).Nodup := fun e he =>
    (List.mem_append.mp he).elim (forall_mem_entries_iff (d := .send) (P := fun e => (chain t e.head).Nodup)
      |>.mpr (hnd .send) e) (forall_mem_entries_iff (d := .recv) (P := fun e => (chain t e.head).Nodup)
      |>.mpr (hnd .recv) e)
  have hall : (chainedSlots t).Nodup ↔ (entriesOf t .send ++ entriesOf t .recv).Pairwise (Apart t) :=
    List.nodup_flatMap.trans (and_iff_right heach)
  rw [hall, List.pairwise_append, pairwise_apart_iff, pairwise_apart_iff, send_recv_apart_iff]
  constructor
  · rintro ⟨hs, hr, hx⟩ d i hi d' i' hi' j hj hj'
    cases d <;> cases d'
    · exact ⟨rfl, hs i hi i' hi' j hj hj'⟩
    · exact absurd hj' (hx i hi i' hi' j hj)
    · exact absurd hj (hx i' hi' i hi j hj')
    · exact ⟨rfl, hr i hi i' hi' j hj hj'⟩
  · intro h
    exact ⟨fun i hi i' hi' j hj hj' => (h .send i hi .send i' hi' j hj hj').2,
      fun i hi i' hi' j hj hj' => (h .recv i hi .recv i' hi' j hj hj').2,
      fun i hi i' hi' j hj hj' => by simpa using (h .send i hi .recv i' hi' j hj hj').1⟩

/-- INV3 entry by entry (R35). -/
theorem inv3_iff {t : Tables} :
    inv3 t = true ↔ ∀ d, ∀ i < (entriesOf t d).length, Leads t (entryAt t d i).head (chainOf t d i) .endMark := by
  have ends (e : Entry) :
      (walk t.pool t.pool.length e.head).isSome = true ↔ Leads t e.head (chain t e.head) .endMark := by
    rw [← walk_eq_some_iff, chain]
    cases walk t.pool t.pool.length e.head <;> simp
  have dir (d : Dir) : (∀ e ∈ entriesOf t d, (walk t.pool t.pool.length e.head).isSome = true) ↔
      ∀ i < (entriesOf t d).length, Leads t (entryAt t d i).head (chainOf t d i) .endMark := by
    rw [forall_mem_entries_iff (P := fun e => (walk t.pool t.pool.length e.head).isSome = true)]
    exact forall_congr' fun i => forall_congr' fun _ => ends _
  rw [inv3, List.all_eq_true, List.forall_mem_append]
  constructor
  · rintro ⟨hs, hr⟩ d
    cases d
    · exact (dir .send).mp hs
    · exact (dir .recv).mp hr
  · exact fun h => ⟨(dir .send).mpr (h .send), (dir .recv).mpr (h .recv)⟩

/-- INV2 and INV3 together say that the chains are such lists. -/
theorem inv2_and_inv3_iff {t : Tables} : (inv2 t = true ∧ inv3 t = true) ↔ ChainsAre t (chainOf t) := by
  have used_iff :
      ((List.range t.pool.length).all fun j => slotUsed (slotAt t j) == (chainedSlots t).contains j) = true ↔
      ∀ j < t.pool.length, slotUsed (slotAt t j) = true ↔ ∃ d, ∃ i < (entriesOf t d).length, j ∈ chainOf t d i := by
    rw [List.all_eq_true]
    refine ⟨fun h j hj => ?_, fun h j hj => ?_⟩
    · rw [← mem_chainedSlots_iff, beq_iff_eq.mp (h j (List.mem_range.mpr hj)), List.contains_iff_mem]
    · rw [beq_iff_eq, Bool.eq_iff_iff, List.contains_iff_mem, mem_chainedSlots_iff]
      exact h j (List.mem_range.mp hj)
  rw [inv2, Bool.and_eq_true, decide_eq_true_iff, used_iff, inv3_iff]
  constructor
  · rintro ⟨⟨hnd, hu⟩, hl⟩
    exact ⟨hl, (chainedSlots_nodup_iff fun d i hi => (hl d i hi).nodup).mp hnd, fun j hj => (hu j hj).mp⟩
  · rintro ⟨hl, ho, hu⟩
    exact ⟨⟨(chainedSlots_nodup_iff fun d i hi => (hl d i hi).nodup).mpr ho, fun j hj =>
      ⟨hu j hj, fun ⟨d, i, hi, hj⟩ => (hl d i hi).used j hj⟩⟩, hl⟩

/-- Lists that are the chains of the entries are what the tables give as chains. -/
theorem ChainsAre.chainsAre_chainOf {t : Tables} {C : Dir → Nat → List Nat} (h : ChainsAre t C) :
    ChainsAre t (chainOf t) where
  leads d i hi := h.chainOf_eq hi ▸ h.leads d i hi
  owner d i hi d' i' hi' j hj hj' :=
    h.owner d i hi d' i' hi' j (h.chainOf_eq hi ▸ hj) (h.chainOf_eq hi' ▸ hj')
  used j hj hu := by
    obtain ⟨d, i, hi, hmem⟩ := h.used j hj hu
    exact ⟨d, i, hi, h.chainOf_eq hi ▸ hmem⟩

/-- Soundness, part by part, entry by entry and slot by slot. -/
theorem tablesSound_iff_chains {c : Cfg} {t : Tables} :
    tablesSound c t = true ↔
      (∀ d, (entriesOf t d).length = c.maxMessages) ∧ t.pool.length = c.maxItems ∧ IdsDistinct t ∧
        ChainsAre t (chainOf t) ∧ SlotsFit c t := by
  have lengths : (∀ d, (entriesOf t d).length = c.maxMessages) ↔
      t.send.length = c.maxMessages ∧ t.recv.length = c.maxMessages :=
    ⟨fun h => ⟨h .send, h .recv⟩, fun ⟨hs, hr⟩ d => by cases d <;> assumption⟩
  rw [tablesSound_iff, inv1_iff, lengths, ← refsFit_and_inv4_iff, ← inv2_and_inv3_iff]
  tauto

/-- Both tables of sound tables have their capacity. -/
theorem entriesOf_length_of_sound {c : Cfg} {t : Tables} (h : tablesSound c t = true) (d : Dir) :
    (entriesOf t d).length = c.maxMessages := by
  obtain ⟨hlen, -⟩ := tablesSound_iff_chains.mp h
  exact hlen d

/-- The chains of sound tables. -/
theorem chainsAre_of_sound {c : Cfg} {t : Tables} (h : tablesSound c t = true) : ChainsAre t (chainOf t) := by
  obtain ⟨-, -, -, hC, -⟩ := tablesSound_iff_chains.mp h
  exact hC

/-- A free entry has no slots. -/
theorem chainOf_eq_nil {t : Tables} {d : Dir} {i : Nat} (h : entryUsed (entryAt t d i) = false) :
    chainOf t d i = [] := by
  have hend : (entryAt t d i).head = .endMark := by simpa [entryUsed] using h
  rw [chainOf, hend, chain_endMark]

/-- In sound tables a used entry has a chain. -/
theorem chainOf_ne_nil {t : Tables} {C : Dir → Nat → List Nat} (h : ChainsAre t C) {d : Dir} {i : Nat}
    (hi : i < (entriesOf t d).length) (hu : entryUsed (entryAt t d i) = true) : C d i ≠ [] := by
  intro hnil
  have hl := h.leads d i hi
  rw [hnil] at hl
  exact entryUsed_iff.mp hu hl

/-! ## One chain changes -/

/-- The lists `C` with that of entry `tab[d][i]` replaced. -/
def withChain (C : Dir → Nat → List Nat) (d : Dir) (i : Nat) (js : List Nat) : Dir → Nat → List Nat :=
  fun d' i' => if d' = d ∧ i' = i then js else C d' i'

/-- The list that was replaced. -/
@[simp] theorem withChain_same (C : Dir → Nat → List Nat) (d : Dir) (i : Nat) (js : List Nat) :
    withChain C d i js d i = js := if_pos ⟨rfl, rfl⟩

/-- Every other list stays. -/
theorem withChain_other (C : Dir → Nat → List Nat) {d d' : Dir} {i i' : Nat} (js : List Nat) (h : ¬ (d' = d ∧ i' = i)) :
    withChain C d i js d' i' = C d' i' := if_neg h

/-- An edit of one entry's chain: the other entries keep their heads, slots of other chains their links, the new chain takes
slots of the old one and free ones, and every slot that is in use without being in it was in use before, outside the old
one. -/
structure ChainEdit (t u : Tables) (C : Dir → Nat → List Nat) (d : Dir) (i : Nat) (js : List Nat) : Prop where
  entries : ∀ d', (entriesOf u d').length = (entriesOf t d').length
  pool : u.pool.length = t.pool.length
  heads : ∀ d' i', ¬ (d' = d ∧ i' = i) → (entryAt u d' i').head = (entryAt t d' i').head
  links : ∀ j, j ∉ C d i → slotUsed (slotAt t j) = true → (slotAt u j).next = (slotAt t j).next
  leads : Leads u (entryAt u d i).head js .endMark
  taken : ∀ j ∈ js, j ∈ C d i ∨ slotUsed (slotAt t j) = false
  used : ∀ j < t.pool.length, j ∉ js → slotUsed (slotAt u j) = true → slotUsed (slotAt t j) = true ∧ j ∉ C d i

/-- After an edit of one entry's chain the chains are the old ones with that one replaced. -/
theorem ChainEdit.chainsAre {t u : Tables} {C : Dir → Nat → List Nat} {d : Dir} {i : Nat} {js : List Nat}
    (e : ChainEdit t u C d i js) (hC : ChainsAre t C) (hi : i < (entriesOf t d).length) :
    ChainsAre u (withChain C d i js) := by
  have apart {d' : Dir} {i' : Nat} (hi' : i' < (entriesOf t d').length) (hne : ¬ (d' = d ∧ i' = i)) :
      ∀ j ∈ C d' i', j ∉ C d i ∧ j ∉ js ∧ slotUsed (slotAt t j) = true := by
    intro j hj
    have hu := (hC.leads d' i' hi').used j hj
    have hout : j ∉ C d i := fun hj' => hne (hC.owner d i hi d' i' hi' j hj' hj)
    exact ⟨hout, fun hjs => (e.taken j hjs).elim hout (by simp [hu]), hu⟩
  refine ⟨fun d' i' hi' => ?_, fun d1 i1 h1 d2 i2 h2 j hj1 hj2 => ?_, fun j hj hu => ?_⟩
  · rw [e.entries] at hi'
    by_cases hs : d' = d ∧ i' = i
    · obtain ⟨rfl, rfl⟩ := hs
      rw [withChain_same]
      exact e.leads
    · rw [withChain_other _ _ hs, e.heads d' i' hs]
      exact (hC.leads d' i' hi').congr e.pool fun j hj =>
        have ⟨hout, _, hu⟩ := apart hi' hs j hj
        e.links j hout hu
  · rw [e.entries] at h1 h2
    by_cases hs1 : d1 = d ∧ i1 = i <;> by_cases hs2 : d2 = d ∧ i2 = i
    · exact ⟨hs2.1.trans hs1.1.symm, hs2.2.trans hs1.2.symm⟩
    · obtain ⟨rfl, rfl⟩ := hs1
      rw [withChain_same] at hj1
      rw [withChain_other _ _ hs2] at hj2
      exact absurd hj1 (apart h2 hs2 j hj2).2.1
    · obtain ⟨rfl, rfl⟩ := hs2
      rw [withChain_same] at hj2
      rw [withChain_other _ _ hs1] at hj1
      exact absurd hj2 (apart h1 hs1 j hj1).2.1
    · rw [withChain_other _ _ hs1] at hj1
      rw [withChain_other _ _ hs2] at hj2
      exact hC.owner d1 i1 h1 d2 i2 h2 j hj1 hj2
  · rw [e.pool] at hj
    by_cases hjs : j ∈ js
    · exact ⟨d, i, by rw [e.entries]; exact hi, by rwa [withChain_same]⟩
    · obtain ⟨hut, hout⟩ := e.used j hj hjs hu
      obtain ⟨d', i', hi', hmem⟩ := hC.used j hj hut
      refine ⟨d', i', by rw [e.entries]; exact hi', ?_⟩
      rwa [withChain_other]
      rintro ⟨rfl, rfl⟩
      exact hout hmem

end Sys2Proof.Machine
end

section
/-! PROOFS. What ADD, REMOVE and CLEAR do to the chains, and that they keep the tables sound (R37, R155, R157, R160). -/

namespace Sys2Proof.Machine

/-! ## Soundness after a change of chains -/

/-- An edit of one chain keeps the tables sound if identifiers and fields stay in order, and gives the chains with that one
replaced. -/
theorem ChainEdit.sound {c : Cfg} {t u : Tables} {d : Dir} {i : Nat} {js : List Nat}
    (e : ChainEdit t u (chainOf t) d i js) (h : tablesSound c t = true) (hi : i < c.maxMessages) (hids : IdsDistinct u)
    (hfit : SlotsFit c u) :
    tablesSound c u = true ∧ ∀ d', ∀ i' < c.maxMessages, chainOf u d' i' = withChain (chainOf t) d i js d' i' := by
  obtain ⟨hlen, hpool, -, hC, -⟩ := tablesSound_iff_chains.mp h
  have hCu := e.chainsAre hC (hlen d ▸ hi)
  have hlenu (d' : Dir) : (entriesOf u d').length = c.maxMessages := (e.entries d').trans (hlen d')
  exact ⟨tablesSound_iff_chains.mpr ⟨hlenu, e.pool.trans hpool, hids, hCu.chainsAre_chainOf, hfit⟩,
    fun d' i' hi' => hCu.chainOf_eq (hlenu d' ▸ hi')⟩

/-! ## ADD -/

/-- What FIND_ENTRY finds (R150). -/
theorem findEntry_some {t : Tables} {d : Dir} {id : Ident} {e : Nat} (h : findEntry t d id = some e) :
    e < (entriesOf t d).length ∧ entryUsed (entryAt t d e) = true ∧ (entryAt t d e).id = id := by
  obtain ⟨hlt, hp, -⟩ := List.findIdx?_eq_some_iff_getElem.mp h
  rw [Bool.and_eq_true, beq_iff_eq] at hp
  rw [entryAt, List.getD_eq_getElem _ _ hlt]
  exact ⟨hlt, hp⟩

/-- What FIND_ENTRY does not find (R150). -/
theorem findEntry_none {t : Tables} {d : Dir} {id : Ident} (h : findEntry t d id = none) :
    ∀ i < (entriesOf t d).length, entryUsed (entryAt t d i) = true → (entryAt t d i).id ≠ id := by
  intro i hi hu hid
  have := List.findIdx?_eq_none_iff.mp h _ (entryAt_mem hi)
  simp [hu, hid] at this

/-- What FREE_ENTRY finds (R151). -/
theorem freeEntry_some {t : Tables} {d : Dir} {e : Nat} (h : freeEntry t d = some e) :
    e < (entriesOf t d).length ∧ entryUsed (entryAt t d e) = false := by
  obtain ⟨hlt, hp, -⟩ := List.findIdx?_eq_some_iff_getElem.mp h
  rw [entryAt, List.getD_eq_getElem _ _ hlt]
  exact ⟨hlt, by simpa using hp⟩

/-- What FREE_SLOT finds (R152). -/
theorem freeSlot_some {t : Tables} {j : Nat} (h : freeSlot t = some j) :
    j < t.pool.length ∧ slotUsed (slotAt t j) = false := by
  obtain ⟨hlt, hp, -⟩ := List.findIdx?_eq_some_iff_getElem.mp h
  rw [slotAt, List.getD_eq_getElem _ _ hlt]
  exact ⟨hlt, by simpa using hp⟩

/-- ADD's two ways to succeed from sound tables (R155): the new slot behind the tail of the identifier's entry, or in a
new entry. -/
theorem linkBinding_ok {c : Cfg} {t u : Tables} {d : Dir} {id : Ident} {b : Slot} (hs : tablesSound c t = true)
    (h : linkBinding t d id b = .ok u) :
    ∃ e j, freeSlot t = some j ∧
      ((findEntry t d id = some e ∧ ∃ q, tailOf t d e = some q ∧ u = putNext (putSlot t j b) q (.slot j)) ∨
        (findEntry t d id = none ∧ freeEntry t d = some e ∧
          u = putEntry (putSlot t j b) d e { id := id, head := .slot j })) := by
  unfold linkBinding at h
  cases hfind : findEntry t d id with
  | some e =>
    cases hslot : freeSlot t with
    | none => simp [hfind, hslot] at h
    | some j =>
      obtain ⟨he, hu, -⟩ := findEntry_some hfind
      cases htail : tailOf t d e with
      | none => exact absurd (List.getLast?_eq_none_iff.mp htail) (chainOf_ne_nil (chainsAre_of_sound hs) he hu)
      | some q =>
        simp only [hfind, hslot, htail, Except.ok.injEq] at h
        exact ⟨e, j, rfl, .inl ⟨rfl, q, htail, h.symm⟩⟩
  | none =>
    cases hentry : freeEntry t d with
    | none => simp [hfind, hentry] at h
    | some e =>
      cases hslot : freeSlot t with
      | none => simp [hfind, hentry, hslot] at h
      | some j =>
        simp only [hfind, hentry, hslot, Except.ok.injEq] at h
        exact ⟨e, j, rfl, .inr ⟨rfl, rfl, h.symm⟩⟩

/-- Linking a free slot behind the tail of a chain. -/
theorem chainEdit_append {t : Tables} {C : Dir → Nat → List Nat} (hC : ChainsAre t C) {d : Dir} {i j q : Nat} {b : Slot}
    {ks : List Nat} (hi : i < (entriesOf t d).length) (hj : j < t.pool.length) (hfree : slotUsed (slotAt t j) = false)
    (hb : b.next = .endMark) (hks : C d i = ks ++ [q]) :
    ChainEdit t (putNext (putSlot t j b) q (.slot j)) C d i (C d i ++ [j]) := by
  have hl := hC.leads d i hi
  have hq : q ∈ C d i := hks ▸ List.mem_append_right _ (List.mem_singleton.mpr rfl)
  have hqlt : q < t.pool.length := hl.lt q hq
  have hjC : j ∉ C d i := fun hmem => by simp [hl.used j hmem] at hfree
  have hjq : j ≠ q := fun heq => hjC (heq ▸ hq)
  have hqks : q ∉ ks := by
    have hothers := (hks ▸ hl).notMem_others
    rwa [List.append_nil] at hothers
  have slot_j : slotAt (putNext (putSlot t j b) q (.slot j)) j = b := by
    simp [slotAt_putNext, slotAt_putSlot, hjq, hj]
  have slot_q : (slotAt (putNext (putSlot t j b) q (.slot j)) q).next = .slot j := by
    simp [slotAt_putNext, hqlt]
  have slot_other (k : Nat) (hkj : k ≠ j) (hkq : k ≠ q) : slotAt (putNext (putSlot t j b) q (.slot j)) k = slotAt t k := by
    simp [slotAt_putNext, slotAt_putSlot, hkj, hkq]
  refine ⟨fun d' => by simp, by simp, fun d' i' _ => ?_, fun k hk hu => ?_, ?_, fun k hk => ?_, fun k _ hk hu => ?_⟩
  · rw [entryAt_of_entries (t := putNext (putSlot t j b) q (.slot j)) (u := t) (by simp)]
  · rw [slot_other k (by rintro rfl; simp [hu] at hfree) (by rintro rfl; exact hk hq)]
  · rw [entryAt_of_entries (t := putNext (putSlot t j b) q (.slot j)) (u := t) (by simp), hks]
    rw [hks] at hl hjC
    refine leads_append.mpr ⟨.slot j, hl.relink_last (by simp) (fun k hk => ?_) slot_q, rfl, by simpa using hj, ?_⟩
    · rw [slot_other k (fun heq => hjC (heq ▸ List.mem_append_left _ hk)) (fun heq => hqks (heq ▸ hk))]
    · rw [slot_j]
      exact hb
  · rcases List.mem_append.mp hk with hk | hk
    · exact .inl hk
    · exact .inr (List.mem_singleton.mp hk ▸ hfree)
  · rw [List.mem_append, List.mem_singleton, not_or] at hk
    obtain ⟨hkC, hkj⟩ := hk
    rw [slot_other k hkj (by rintro rfl; exact hkC hq)] at hu
    exact ⟨hu, hkC⟩

/-- Linking a free slot into a free entry. -/
theorem chainEdit_new {t : Tables} {C : Dir → Nat → List Nat} (hC : ChainsAre t C) {d : Dir} {i j : Nat} {b : Slot}
    {id : Ident} (hi : i < (entriesOf t d).length) (hunused : entryUsed (entryAt t d i) = false)
    (hj : j < t.pool.length) (hfree : slotUsed (slotAt t j) = false) (hb : b.next = .endMark) :
    ChainEdit t (putEntry (putSlot t j b) d i { id := id, head := .slot j }) C d i [j] := by
  have hnil : C d i = [] := hC.chainOf_eq hi ▸ chainOf_eq_nil hunused
  have slots (k : Nat) :
      slotAt (putEntry (putSlot t j b) d i { id := id, head := .slot j }) k = slotAt (putSlot t j b) k :=
    slotAt_of_pool (putEntry_pool _ _ _ _) k
  refine ⟨fun d' => by simp, by simp, fun d' i' hne => ?_, fun k _ hu => ?_, ?_, fun k hk => ?_, fun k _ hk hu => ?_⟩
  · rw [entryAt_putEntry, if_neg fun h => hne ⟨h.1, h.2.1⟩, entryAt_of_entries (entriesOf_putSlot t j b d')]
  · rw [slots, slotAt_putSlot, if_neg]
    rintro ⟨rfl, -⟩
    simp [hu] at hfree
  · rw [entryAt_putEntry, if_pos ⟨rfl, rfl, by simpa using hi⟩]
    refine ⟨rfl, by simpa using hj, ?_⟩
    rw [slots, slotAt_putSlot, if_pos ⟨rfl, hj⟩]
    exact hb
  · exact .inr (List.mem_singleton.mp hk ▸ hfree)
  · rw [List.mem_singleton] at hk
    rw [slots, slotAt_putSlot, if_neg fun h => hk h.1] at hu
    exact ⟨hu, by simp [hnil]⟩

/-- A new identifier in a free entry is distinct from those in use. -/
theorem idsDistinct_putEntry {t : Tables} {d : Dir} {id : Ident} (e : Nat) (l : Link) (h : IdsDistinct t)
    (hnew : ∀ i < (entriesOf t d).length, entryUsed (entryAt t d i) = true → (entryAt t d i).id ≠ id) :
    IdsDistinct (putEntry t d e { id := id, head := l }) := by
  intro d' i hi k hk
  rw [entriesOf_putEntry_length] at hi hk
  rw [entryAt_putEntry, entryAt_putEntry]
  split <;> split <;> intro hui huk hid
  · omega
  · rename_i hie _
    obtain ⟨rfl, -, -⟩ := hie
    exact absurd hid.symm (hnew k hk huk)
  · rename_i _ hke
    obtain ⟨rfl, -, -⟩ := hke
    exact absurd hid (hnew i hi hui)
  · exact h d' i hi k hk hui huk hid

/-- Distinct identifiers are a matter of the entries alone. -/
theorem IdsDistinct.of_entries {t u : Tables} (h : IdsDistinct t) (he : ∀ d, entriesOf u d = entriesOf t d) :
    IdsDistinct u := by
  intro d i hi k hk
  rw [he] at hi hk
  rw [entryAt_of_entries (he d), entryAt_of_entries (he d)]
  exact h d i hi k hk

/-- ADD keeps the tables sound, for a binding that fits (R37, R155). -/
theorem linkBinding_sound {c : Cfg} {t u : Tables} {d : Dir} {id : Ident} {b : Slot} (hs : tablesSound c t = true)
    (hfit : SlotFits c b) (hb : b.next = .endMark) (h : linkBinding t d id b = .ok u) : tablesSound c u = true := by
  obtain ⟨hlen, -, hids, hC, hfits⟩ := tablesSound_iff_chains.mp hs
  obtain ⟨e, j, hslot, hcase⟩ := linkBinding_ok hs h
  obtain ⟨hj, hfree⟩ := freeSlot_some hslot
  have hput : SlotsFit c (putSlot t j b) := hfits.putSlot j hfit
  rcases hcase with ⟨hfind, q, htail, rfl⟩ | ⟨hfind, hentry, rfl⟩
  · obtain ⟨he, -, -⟩ := findEntry_some hfind
    obtain ⟨ks, hks⟩ := List.getLast?_eq_some_iff.mp htail
    have hq : q ∈ chainOf t d e := by
      rw [chainOf, hks]
      exact List.mem_append_right _ (List.mem_singleton.mpr rfl)
    have hqu := (hC.leads d e he).used q hq
    have hqj : q ≠ j := by
      rintro rfl
      simp [hqu] at hfree
    refine ((chainEdit_append hC he hj hfree hb hks).sound hs (hlen d ▸ he) (hids.of_entries fun d' => by simp)
      (hput.putNext (by simpa using (hC.leads d e he).lt q hq) (.inr ?_))).1
    rwa [slotAt_putSlot, if_neg fun h => hqj h.1]
  · obtain ⟨he, hunused⟩ := freeEntry_some hentry
    refine ((chainEdit_new hC he hunused hj hfree hb).sound hs (hlen d ▸ he) (idsDistinct_putEntry e _
      (hids.of_entries fun d' => entriesOf_putSlot t j b d') ?_) (hput.putEntry d e _)).1
    rw [entriesOf_putSlot]
    intro i hi
    rw [entryAt_of_entries (entriesOf_putSlot t j b d)]
    exact findEntry_none hfind i hi

/-! ## CLEAR -/

/-- After CLEAR every entry's head is END. -/
theorem entryAt_clearTables (t : Tables) {d : Dir} {i : Nat} (hi : i < (entriesOf t d).length) :
    entryAt (clearTables t) d i = { entryAt t d i with head := .endMark } := by
  cases d <;> simp_all [entryAt, clearTables, entriesOf, List.getD_eq_getElem?_getD]

/-- After CLEAR every slot's link is FREE. -/
theorem slotAt_clearTables (t : Tables) {j : Nat} (hj : j < t.pool.length) :
    slotAt (clearTables t) j = { slotAt t j with next := .freeMark } := by
  simp_all [slotAt, clearTables, List.getD_eq_getElem?_getD]

/-- CLEAR keeps how many entries there are. -/
@[simp] theorem entriesOf_clearTables_length (t : Tables) (d : Dir) :
    (entriesOf (clearTables t) d).length = (entriesOf t d).length := by
  cases d <;> simp [clearTables, entriesOf]

/-- CLEAR keeps the tables sound (R37, R160). -/
theorem clearTables_sound {c : Cfg} {t : Tables} (h : tablesSound c t = true) : tablesSound c (clearTables t) = true := by
  obtain ⟨hlen, hpool, -, -, hfit⟩ := tablesSound_iff_chains.mp h
  have hpoolc : (clearTables t).pool.length = t.pool.length := by simp [clearTables]
  have hchains : ChainsAre (clearTables t) fun _ _ => [] := by
    refine ⟨fun d i hi => ?_, fun _ _ _ _ _ _ _ hj => by simp at hj, fun j hj hu => ?_⟩
    · rw [entriesOf_clearTables_length] at hi
      rw [entryAt_clearTables t hi]
      rfl
    · rw [hpoolc] at hj
      rw [slotAt_clearTables t hj] at hu
      exact absurd rfl (slotUsed_iff.mp hu)
  refine tablesSound_iff_chains.mpr ⟨fun d => (entriesOf_clearTables_length t d).trans (hlen d), hpoolc.trans hpool,
    fun d i hi _ _ hu => ?_, hchains.chainsAre_chainOf, fun j hj => ?_⟩
  · rw [entriesOf_clearTables_length] at hi
    rw [entryAt_clearTables t hi] at hu
    exact absurd rfl (entryUsed_iff.mp hu)
  · rw [hpoolc] at hj
    rw [slotAt_clearTables t hj]
    exact ⟨(hfit j hj).1, fun hu => absurd rfl (slotUsed_iff.mp hu)⟩

/-! ## REMOVE -/

/-- The tables `u` are `t` with the chains `K`: sound, with every identifier and every field of a slot but its link as
before. -/
structure Rechained (c : Cfg) (t u : Tables) (K : Dir → Nat → List Nat) : Prop where
  sound : tablesSound c u = true
  ids : ∀ d, (entriesOf u d).map Entry.id = (entriesOf t d).map Entry.id
  fields : ∀ j, { slotAt u j with next := .freeMark } = { slotAt t j with next := .freeMark }
  chains : ∀ d, ∀ i < c.maxMessages, chainOf u d i = K d i

/-- A slot's reference is the same in both. -/
theorem Rechained.param {c : Cfg} {t u : Tables} {K : Dir → Nat → List Nat} (h : Rechained c t u K) (j : Nat) :
    (slotAt u j).param = (slotAt t j).param :=
  (congrArg Slot.param (h.fields j) :)

/-- Sound tables are rechained to themselves. -/
theorem rechained_self {c : Cfg} {t : Tables} (h : tablesSound c t = true) : Rechained c t t (chainOf t) :=
  ⟨h, fun _ => rfl, fun _ => rfl, fun _ _ _ => rfl⟩

/-- One change of chains after another. -/
theorem Rechained.trans {c : Cfg} {t u v : Tables} {K L : Dir → Nat → List Nat} (h : Rechained c t u K)
    (h' : Rechained c u v L) : Rechained c t v L :=
  ⟨h'.sound, fun d => (h'.ids d).trans (h.ids d), fun j => (h'.fields j).trans (h.fields j), h'.chains⟩

/-- The chains may be given by any lists that agree where there are entries. -/
theorem Rechained.congr {c : Cfg} {t u : Tables} {K L : Dir → Nat → List Nat} (h : Rechained c t u K)
    (hKL : ∀ d, ∀ i < c.maxMessages, K d i = L d i) : Rechained c t u L :=
  { h with chains := fun d i hi => (h.chains d i hi).trans (hKL d i hi) }

/-- REMOVE's writes for one slot (R157): the link of its predecessor, or the head of the entry, goes to its successor, and
the slot is freed. -/
def unlinkSlot (t : Tables) (d : Dir) (i : Nat) (prev : Option Nat) (j : Nat) : Tables :=
  putNext
    (match prev with
    | none => putHead t d i (slotAt t j).next
    | some q => putNext t q (slotAt t j).next) j .freeMark

/-- REMOVE's walk at one slot. -/
theorem removeChain_cons (p : Nat) (d : Dir) (i j : Nat) (js : List Nat) (prev : Option Nat) (n : Nat) (t : Tables) :
    removeChain p d i (j :: js) prev n t =
      if (slotAt t j).param = p then removeChain p d i js prev (n + 1) (unlinkSlot t d i prev j)
      else removeChain p d i js (some j) n t := rfl

/-- A write of a head leaves the pool. -/
@[simp] theorem putHead_pool (t : Tables) (d : Dir) (i : Nat) (l : Link) : (putHead t d i l).pool = t.pool :=
  putEntry_pool _ _ _ _

/-- A write of a head leaves every slot. -/
@[simp] theorem slotAt_putHead (t : Tables) (d : Dir) (i : Nat) (l : Link) (j : Nat) :
    slotAt (putHead t d i l) j = slotAt t j := slotAt_of_pool (putHead_pool _ _ _ _) j

/-- Unlinking keeps how many slots there are. -/
@[simp] theorem unlinkSlot_pool_length (t : Tables) (d : Dir) (i : Nat) (prev : Option Nat) (j : Nat) :
    (unlinkSlot t d i prev j).pool.length = t.pool.length := by
  cases prev <;> simp [unlinkSlot]

/-- Unlinking keeps how many entries there are. -/
@[simp] theorem entriesOf_unlinkSlot_length (t : Tables) (d d' : Dir) (i : Nat) (prev : Option Nat) (j : Nat) :
    (entriesOf (unlinkSlot t d i prev j) d').length = (entriesOf t d').length := by
  cases prev <;> simp [unlinkSlot, putHead]

/-- An entry after unlinking: the head moves if the slot was the first. -/
theorem entryAt_unlinkSlot (t : Tables) (d d' : Dir) (i k : Nat) (prev : Option Nat) (j : Nat) :
    entryAt (unlinkSlot t d i prev j) d' k =
      if prev = none ∧ d' = d ∧ k = i ∧ i < (entriesOf t d).length then
        { entryAt t d i with head := (slotAt t j).next }
      else entryAt t d' k := by
  cases prev with
  | none =>
    rw [unlinkSlot, entryAt_of_entries (entriesOf_putNext _ _ _ _), putHead, entryAt_putEntry]
    simp
  | some q =>
    rw [unlinkSlot, entryAt_of_entries (entriesOf_putNext _ _ _ _), entryAt_of_entries (entriesOf_putNext _ _ _ _)]
    simp

/-- A slot after unlinking: the slot itself is free, and its predecessor's link moves. -/
theorem slotAt_unlinkSlot (t : Tables) (d : Dir) (i k : Nat) {prev : Option Nat} {j : Nat} (hj : j < t.pool.length)
    (hprev : ∀ q, prev = some q → q ≠ j ∧ q < t.pool.length) :
    slotAt (unlinkSlot t d i prev j) k =
      if k = j then { slotAt t j with next := .freeMark }
      else if prev = some k then { slotAt t k with next := (slotAt t j).next }
      else slotAt t k := by
  cases prev with
  | none =>
    simp [unlinkSlot, slotAt_putNext, hj]
  | some q =>
    obtain ⟨hqj, hq⟩ := hprev q rfl
    by_cases hkj : k = j
    · simp [unlinkSlot, slotAt_putNext, hkj, hj, Ne.symm hqj]
    · by_cases hkq : k = q
      · simp [unlinkSlot, slotAt_putNext, hkq, hqj, hq]
      · simp [unlinkSlot, slotAt_putNext, hkj, hkq, Ne.symm hkq]

/-- Unlinking writes no field of a slot but its link. -/
theorem unlinkSlot_fields (t : Tables) (d : Dir) (i k : Nat) {prev : Option Nat} {j : Nat} (hj : j < t.pool.length)
    (hprev : ∀ q, prev = some q → q ≠ j ∧ q < t.pool.length) :
    { slotAt (unlinkSlot t d i prev j) k with next := .freeMark } = { slotAt t k with next := .freeMark } := by
  rw [slotAt_unlinkSlot t d i k hj hprev]
  split
  · rename_i hk
    rw [hk]
  · split <;> rfl

/-- The identifier at an index is that of the list of identifiers. -/
theorem ids_eq_iff {t u : Tables} {d : Dir} (hlen : (entriesOf u d).length = (entriesOf t d).length) :
    (entriesOf u d).map Entry.id = (entriesOf t d).map Entry.id ↔
      ∀ i < (entriesOf t d).length, (entryAt u d i).id = (entryAt t d i).id := by
  rw [List.ext_getElem_iff]
  simp only [List.length_map, List.getElem_map, hlen, true_and, entryAt, List.getD_eq_getElem?_getD]
  constructor
  · intro h i hi
    simpa [hi, hlen ▸ hi] using h i hi hi
  · intro h i hi _
    simpa [hi, hlen ▸ hi] using h i hi

/-- Unlinking writes no identifier. -/
theorem unlinkSlot_ids (t : Tables) (d d' : Dir) (i : Nat) (prev : Option Nat) (j : Nat) :
    (entriesOf (unlinkSlot t d i prev j) d').map Entry.id = (entriesOf t d').map Entry.id := by
  rw [ids_eq_iff (entriesOf_unlinkSlot_length _ _ _ _ _ _)]
  intro k _
  rw [entryAt_unlinkSlot]
  split
  · rename_i h
    obtain ⟨-, rfl, rfl, -⟩ := h
    rfl
  · rfl

/-- Identifiers stay distinct where none is written and no entry comes into use. -/
theorem IdsDistinct.of_ids {t u : Tables} (h : IdsDistinct t)
    (hids : ∀ d, (entriesOf u d).map Entry.id = (entriesOf t d).map Entry.id)
    (hused : ∀ d, ∀ i < (entriesOf t d).length, entryUsed (entryAt u d i) = true → entryUsed (entryAt t d i) = true) :
    IdsDistinct u := by
  intro d i hi k hk hui huk hid
  have hlen : (entriesOf u d).length = (entriesOf t d).length := by simpa using congrArg List.length (hids d)
  have hid' := (ids_eq_iff hlen).mp (hids d)
  rw [hlen] at hi hk
  rw [hid' i hi, hid' k hk] at hid
  exact h d i hi k hk (hused d i hi hui) (hused d k hk huk) hid

/-- Every slot but the one unlinked and its predecessor stays as it is. -/
theorem slotAt_unlinkSlot_other {t : Tables} {l : Link} {ks js : List Nat} {j : Nat} (d : Dir) (i : Nat) {k : Nat}
    (hl : Leads t l (ks ++ j :: js) .endMark) (hkj : k ≠ j) (hk : ks.getLast? ≠ some k) :
    slotAt (unlinkSlot t d i ks.getLast? j) k = slotAt t k := by
  rw [slotAt_unlinkSlot t d i k (hl.lt j (by simp)) fun _ => hl.pred_ne, if_neg hkj, if_neg hk]

/-- After unlinking, the links lead through the other slots to END. -/
theorem leads_unlinkSlot {t : Tables} {d : Dir} {i j : Nat} {ks js : List Nat} (hi : i < (entriesOf t d).length)
    (hl : Leads t (entryAt t d i).head (ks ++ j :: js) .endMark) :
    Leads (unlinkSlot t d i ks.getLast? j) (entryAt (unlinkSlot t d i ks.getLast? j) d i).head (ks ++ js) .endMark := by
  have hj := hl.notMem_others
  have hnd : (ks ++ js).Nodup := (List.nodup_middle.mp hl.nodup).of_cons
  obtain ⟨x, hks, rfl, -, hjs⟩ := leads_append.mp hl
  have hrest : Leads (unlinkSlot t d i ks.getLast? j) (slotAt t j).next js .endMark := by
    refine hjs.congr (unlinkSlot_pool_length _ _ _ _ _) fun k hk => ?_
    rw [slotAt_unlinkSlot_other d i hl (fun h => hj (h ▸ List.mem_append_right _ hk)) fun hlast => ?_]
    exact (List.nodup_append.mp hnd).2.2 k (List.mem_of_getLast? hlast) k hk rfl
  rcases List.eq_nil_or_concat' ks with rfl | ⟨ks, q, rfl⟩
  · rw [entryAt_unlinkSlot, if_pos ⟨rfl, rfl, rfl, hi⟩]
    exact hrest
  · have hlast : (ks ++ [q]).getLast? = some q := List.getLast?_concat
    rw [entryAt_unlinkSlot, if_neg (by simp)]
    refine leads_append.mpr ⟨_, hks.relink_last (unlinkSlot_pool_length _ _ _ _ _) (fun k hk => ?_) ?_, hrest⟩
    · rw [slotAt_unlinkSlot_other d i hl (fun h => hj (by simp [← h, hk])) fun h => ?_]
      rw [hlast, Option.some.injEq] at h
      have hne := (List.nodup_append.mp (List.nodup_append.mp hnd).1).2.2 k hk q (List.mem_singleton.mpr rfl)
      exact hne h.symm
    · rw [slotAt_unlinkSlot t d i q (hl.lt j (by simp)) fun _ => hl.pred_ne, if_neg (hl.pred_ne hlast).1, if_pos hlast]

/-- Unlinking a slot of a chain takes it out of the chain. -/
theorem chainEdit_unlink {t : Tables} {C : Dir → Nat → List Nat} (hC : ChainsAre t C) {d : Dir} {i j : Nat}
    {ks js : List Nat} (hi : i < (entriesOf t d).length) (hchain : C d i = ks ++ j :: js) :
    ChainEdit t (unlinkSlot t d i ks.getLast? j) C d i (ks ++ js) := by
  have hl := hC.leads d i hi
  rw [hchain] at hl
  refine ⟨fun d' => by simp, by simp, fun d' i' hne => ?_, fun k hk _ => ?_, leads_unlinkSlot hi hl, fun k hk => .inl ?_,
    fun k _ hk hu => ?_⟩
  · rw [entryAt_unlinkSlot, if_neg fun h => hne ⟨h.2.1, h.2.2.1⟩]
  · rw [hchain] at hk
    rw [slotAt_unlinkSlot_other d i hl (fun h => hk (by simp [h]))
      fun hlast => hk (List.mem_append_left _ (List.mem_of_getLast? hlast))]
  · rw [hchain]
    rcases List.mem_append.mp hk with hk | hk <;> simp [hk]
  · have hkj : k ≠ j := by
      rintro rfl
      rw [slotAt_unlinkSlot t d i k (hl.lt k (by simp)) fun _ => hl.pred_ne, if_pos rfl] at hu
      exact absurd rfl (slotUsed_iff.mp hu)
    rw [slotAt_unlinkSlot_other d i hl hkj fun hlast => hk (List.mem_append_left _ (List.mem_of_getLast? hlast))] at hu
    rw [hchain]
    exact ⟨hu, by simpa [hkj] using hk⟩

/-- Unlinking brings no entry into use. -/
theorem entryUsed_of_unlinkSlot {t : Tables} {d d' : Dir} {i k : Nat} {prev : Option Nat} {j : Nat}
    (hentry : entryUsed (entryAt t d i) = true) (h : entryUsed (entryAt (unlinkSlot t d i prev j) d' k) = true) :
    entryUsed (entryAt t d' k) = true := by
  rw [entryAt_unlinkSlot] at h
  split at h
  · rename_i hsame
    obtain ⟨-, rfl, rfl, -⟩ := hsame
    exact hentry
  · exact h

/-- Unlinking keeps the slots in order. -/
theorem SlotsFit.unlinkSlot {c : Cfg} {t : Tables} (hfit : SlotsFit c t) {l : Link} {ks js : List Nat} {j : Nat} (d : Dir)
    (i : Nat) (hl : Leads t l (ks ++ j :: js) .endMark) : SlotsFit c (unlinkSlot t d i ks.getLast? j) := by
  have hj : j < t.pool.length := hl.lt j (by simp)
  unfold Machine.unlinkSlot
  cases hlast : ks.getLast? with
  | none => exact (hfit.putEntry d i _).putNext (by simpa using hj) (.inl rfl)
  | some q =>
    have hq : q ∈ ks ++ j :: js := List.mem_append_left _ (List.mem_of_getLast? hlast)
    exact (hfit.putNext (hl.lt q hq) (.inr (hl.used q hq))).putNext (by simpa using hj) (.inl rfl)

/-- Unlinking a slot of a chain leaves sound tables with that chain shortened (R157). -/
theorem unlinkSlot_rechained {c : Cfg} {t : Tables} (hs : tablesSound c t = true) {d : Dir} {i j : Nat} {ks js : List Nat}
    (hi : i < c.maxMessages) (hchain : chainOf t d i = ks ++ j :: js) :
    Rechained c t (unlinkSlot t d i ks.getLast? j) (withChain (chainOf t) d i (ks ++ js)) := by
  obtain ⟨hlen, -, hids, hC, hfit⟩ := tablesSound_iff_chains.mp hs
  have hi' : i < (entriesOf t d).length := hlen d ▸ hi
  have hl := hC.leads d i hi'
  rw [hchain] at hl
  have hentry : entryUsed (entryAt t d i) = true := by
    rw [← Bool.not_eq_false]
    intro hfree
    rw [chainOf_eq_nil hfree] at hchain
    simp at hchain
  have hkept (d' : Dir) := unlinkSlot_ids t d d' i ks.getLast? j
  obtain ⟨hsound, hchains⟩ := (chainEdit_unlink hC hi' hchain).sound hs hi
    (hids.of_ids hkept fun d' k _ => entryUsed_of_unlinkSlot hentry) (hfit.unlinkSlot d i hl)
  exact ⟨hsound, hkept, fun k => unlinkSlot_fields t d i k (hl.lt j (by simp)) fun _ => hl.pred_ne, hchains⟩

/-- The slots of a list that are not of the parameter, in order. -/
def slotsWithout (t : Tables) (p : Nat) (js : List Nat) : List Nat := js.filter fun j => (slotAt t j).param != p

/-- How many slots of a list are of the parameter. -/
def countOf (t : Tables) (p : Nat) (js : List Nat) : Nat := js.countP fun j => (slotAt t j).param == p

/-- A change of chains changes no slot's parameter. -/
theorem Rechained.slotsWithout_eq {c : Cfg} {t u : Tables} {K : Dir → Nat → List Nat} (h : Rechained c t u K) (p : Nat)
    (js : List Nat) : slotsWithout u p js = slotsWithout t p js := by
  simp only [slotsWithout, h.param]

/-- A change of chains changes no slot's parameter. -/
theorem Rechained.countOf_eq {c : Cfg} {t u : Tables} {K : Dir → Nat → List Nat} (h : Rechained c t u K) (p : Nat)
    (js : List Nat) : countOf u p js = countOf t p js := by
  simp only [countOf, h.param]

/-- REMOVE's walk of one chain, from a slot on (R157): the slots of the parameter go, the others stay in order, and the
count grows by how many went. -/
theorem removeChain_rechained {c : Cfg} {p : Nat} {d : Dir} {i : Nat} {t : Tables} (js ks : List Nat) (n : Nat)
    (hs : tablesSound c t = true) (hi : i < c.maxMessages) (hchain : chainOf t d i = ks ++ js) :
    (removeChain p d i js ks.getLast? n t).1 = n + countOf t p js ∧
      Rechained c t (removeChain p d i js ks.getLast? n t).2
        (withChain (chainOf t) d i (ks ++ slotsWithout t p js)) := by
  induction js generalizing ks n t with
  | nil =>
    refine ⟨rfl, (rechained_self hs).congr fun d' i' _ => ?_⟩
    rw [withChain]
    split
    · rename_i h
      obtain ⟨rfl, rfl⟩ := h
      exact hchain
    · rfl
  | cons j js ih =>
    rw [removeChain_cons]
    by_cases hp : (slotAt t j).param = p
    · have hr := unlinkSlot_rechained hs hi hchain
      have hchain' : chainOf (unlinkSlot t d i ks.getLast? j) d i = ks ++ js := by rw [hr.chains d i hi, withChain_same]
      obtain ⟨hn, hu⟩ := ih ks (n + 1) hr.sound hchain'
      rw [hr.countOf_eq] at hn
      rw [hr.slotsWithout_eq] at hu
      have hw : slotsWithout t p (j :: js) = slotsWithout t p js := by simp [slotsWithout, hp]
      have hc : countOf t p (j :: js) = countOf t p js + 1 := by simp [countOf, hp]
      rw [if_pos hp, hw, hc]
      refine ⟨by omega, (hr.trans hu).congr fun d' i' hi' => ?_⟩
      by_cases h : d' = d ∧ i' = i
      · obtain ⟨rfl, rfl⟩ := h
        rw [withChain_same, withChain_same]
      · rw [withChain_other _ _ h, withChain_other _ _ h, hr.chains d' i' hi', withChain_other _ _ h]
    · have hw : slotsWithout t p (j :: js) = j :: slotsWithout t p js := by simp [slotsWithout, hp]
      have hc : countOf t p (j :: js) = countOf t p js := by simp [countOf, hp]
      have hnext := ih (ks ++ [j]) n hs (by simpa using hchain)
      rw [List.getLast?_concat, List.append_assoc, List.singleton_append] at hnext
      rwa [if_neg hp, hw, hc]

/-- REMOVE's walk of a whole chain (R157). -/
theorem removeChain_chainOf {c : Cfg} {d : Dir} {i : Nat} {t : Tables} (p n : Nat) (hs : tablesSound c t = true)
    (hi : i < c.maxMessages) :
    (removeChain p d i (chainOf t d i) none n t).1 = n + countOf t p (chainOf t d i) ∧
      Rechained c t (removeChain p d i (chainOf t d i) none n t).2
        (withChain (chainOf t) d i (slotsWithout t p (chainOf t d i))) :=
  removeChain_rechained (chainOf t d i) [] n hs hi rfl

/-- REMOVE's walk of the entries of one direction (R157). -/
theorem removeEntries_rechained {c : Cfg} {d : Dir} {t : Tables} (p : Nat) (is : List Nat) (n : Nat)
    (hs : tablesSound c t = true) (hlt : ∀ i ∈ is, i < c.maxMessages) (hnd : is.Nodup) :
    (removeEntries p d is n t).1 = n + (is.map fun i => countOf t p (chainOf t d i)).sum ∧
      Rechained c t (removeEntries p d is n t).2 fun d' i' =>
        if d' = d ∧ i' ∈ is then slotsWithout t p (chainOf t d' i') else chainOf t d' i' := by
  induction is generalizing n t with
  | nil => exact ⟨rfl, (rechained_self hs).congr fun _ _ _ => by simp⟩
  | cons i is ih =>
    obtain ⟨hi, his⟩ := List.forall_mem_cons.mp hlt
    obtain ⟨hnew, hnd⟩ := List.nodup_cons.mp hnd
    obtain ⟨hn, hr⟩ := removeChain_chainOf p n hs hi
    rw [show removeEntries p d (i :: is) n t = removeEntries p d is (removeChain p d i (chainOf t d i) none n t).1
      (removeChain p d i (chainOf t d i) none n t).2 from rfl]
    generalize removeChain p d i (chainOf t d i) none n t = r at hn hr ⊢
    obtain ⟨hn', hu⟩ := ih r.1 hr.sound his hnd
    have hrest : ∀ k ∈ is, countOf r.2 p (chainOf r.2 d k) = countOf t p (chainOf t d k) := fun k hk => by
      rw [hr.countOf_eq, hr.chains d k (his k hk), withChain_other]
      rintro ⟨-, rfl⟩
      exact hnew hk
    refine ⟨?_, (hr.trans hu).congr fun d' i' hi' => ?_⟩
    · rw [hn', List.map_congr_left hrest, hn, List.map_cons, List.sum_cons, Nat.add_assoc]
    · rw [hr.slotsWithout_eq, hr.chains d' i' hi']
      by_cases h : d' = d ∧ i' = i
      · obtain ⟨rfl, rfl⟩ := h
        simp [hnew]
      · have hmem : (d' = d ∧ i' ∈ is) ↔ (d' = d ∧ i' ∈ i :: is) :=
          and_congr_right fun hd =>
            ⟨List.mem_cons_of_mem i, fun hm => (List.mem_cons.mp hm).resolve_left fun he => h ⟨hd, he⟩⟩
        simp only [withChain_other _ _ h, hmem]

/-- REMOVE's whole scan (R157): from every chain the slots of the parameter go, and their number is the answer. -/
theorem removeBindings_rechained {c : Cfg} {t : Tables} (p : Nat) (hs : tablesSound c t = true) :
    (removeBindings p t).1 =
        ((List.range c.maxMessages).map fun i => countOf t p (chainOf t .send i)).sum +
          ((List.range c.maxMessages).map fun i => countOf t p (chainOf t .recv i)).sum ∧
      Rechained c t (removeBindings p t).2 fun d i => slotsWithout t p (chainOf t d i) := by
  have hlt : ∀ i ∈ List.range c.maxMessages, i < c.maxMessages := fun _ => List.mem_range.mp
  obtain ⟨hn, hr⟩ := removeEntries_rechained (d := .send) p _ 0 hs hlt List.nodup_range
  rw [removeBindings, show t.send.length = c.maxMessages from entriesOf_length_of_sound hs .send]
  generalize removeEntries p .send (List.range c.maxMessages) 0 t = r at hn hr ⊢
  rw [show r.2.recv.length = c.maxMessages from entriesOf_length_of_sound hr.sound .recv]
  obtain ⟨hn', hu⟩ := removeEntries_rechained (d := .recv) p _ r.1 hr.sound hlt List.nodup_range
  have hrest : ∀ i ∈ List.range c.maxMessages, countOf r.2 p (chainOf r.2 .recv i) = countOf t p (chainOf t .recv i) :=
    fun i hi => by rw [hr.countOf_eq, hr.chains .recv i (hlt i hi), if_neg (by simp)]
  refine ⟨by rw [hn', List.map_congr_left hrest, hn, Nat.zero_add], (hr.trans hu).congr fun d i hi => ?_⟩
  rw [hr.slotsWithout_eq, hr.chains d i hi]
  cases d <;> simp [hi]

/-! ## The bindings shown, chain by chain -/

/-- The bindings of entry `tab[d][i]` as FOR_EACH shows them. -/
def shownOf (t : Tables) (d : Dir) (i : Nat) : List (Dir × Ident × Nat × Byte × Byte × F32 × Word) :=
  (chainOf t d i).map fun j => shown (d, (entryAt t d i).id, slotAt t j)

/-- A table is the list of its entries by index. -/
theorem entriesOf_eq_map_range (t : Tables) (d : Dir) :
    entriesOf t d = (List.range (entriesOf t d).length).map (entryAt t d) := by
  refine List.ext_getElem (by simp) fun i hi _ => ?_
  rw [List.getElem_map, List.getElem_range, entryAt, List.getD_eq_getElem _ _ hi]

/-- What FOR_EACH shows is what it shows of each entry, send before receive, in table order (R159). -/
theorem shownTable_eq_shownOf {c : Cfg} {t : Tables} (hs : tablesSound c t = true) :
    shownTable t = (List.range c.maxMessages).flatMap (shownOf t .send) ++
      (List.range c.maxMessages).flatMap (shownOf t .recv) := by
  have dir (d : Dir) : (bindingsOf t d).map shown = (List.range c.maxMessages).flatMap (shownOf t d) := by
    rw [bindingsOf, entriesOf_eq_map_range, List.flatMap_map, entriesOf_length_of_sound hs, List.map_flatMap]
    refine List.flatMap_congr fun i _ => ?_
    split
    · rw [List.map_map]
      rfl
    · rename_i hu
      rw [shownOf, chainOf_eq_nil (by simpa using hu)]
      rfl
  rw [shownTable, allBindings, List.map_append, dir, dir]

/-- A binding is shown without its link. -/
theorem shown_of_fields {d : Dir} {id : Ident} {a b : Slot}
    (h : { a with next := Link.freeMark } = { b with next := .freeMark }) : shown (d, id, a) = shown (d, id, b) :=
  (congrArg (fun b => shown (d, id, b)) h :)

/-- What REMOVE leaves of an entry's bindings. -/
theorem shownOf_rechained {c : Cfg} {t u : Tables} {p : Nat} {d : Dir} {i : Nat} (hs : tablesSound c t = true)
    (h : Rechained c t u fun d i => slotsWithout t p (chainOf t d i)) (hi : i < c.maxMessages) :
    shownOf u d i = (shownOf t d i).filter fun x => x.2.2.1 != p := by
  have hlen (v : Tables) (hv : tablesSound c v = true) := entriesOf_length_of_sound hv d
  have hid := (ids_eq_iff ((hlen u h.sound).trans (hlen t hs).symm)).mp (h.ids d) i (hlen t hs ▸ hi)
  rw [shownOf, shownOf, h.chains d i hi, hid, List.filter_map]
  exact List.map_congr_left fun j _ => shown_of_fields (h.fields j)

/-- What FOR_EACH shows after REMOVE: the bindings of other parameters, in order. -/
theorem shownTable_rechained {c : Cfg} {t u : Tables} {p : Nat} (hs : tablesSound c t = true)
    (h : Rechained c t u fun d i => slotsWithout t p (chainOf t d i)) :
    shownTable u = (shownTable t).filter fun x => x.2.2.1 != p := by
  have dir (d : Dir) : (List.range c.maxMessages).flatMap (shownOf u d) =
      ((List.range c.maxMessages).flatMap (shownOf t d)).filter fun x => x.2.2.1 != p := by
    rw [List.filter_flatMap]
    exact List.flatMap_congr fun i hi => shownOf_rechained hs h (List.mem_range.mp hi)
  rw [shownTable_eq_shownOf hs, shownTable_eq_shownOf h.sound, List.filter_append, dir, dir]

/-- How many bindings of a parameter are shown. -/
theorem countP_shownTable {c : Cfg} {t : Tables} (p : Nat) (hs : tablesSound c t = true) :
    (shownTable t).countP (fun x => x.2.2.1 == p) =
      ((List.range c.maxMessages).map fun i => countOf t p (chainOf t .send i)).sum +
        ((List.range c.maxMessages).map fun i => countOf t p (chainOf t .recv i)).sum := by
  have entry (d : Dir) (i : Nat) : (shownOf t d i).countP (fun x => x.2.2.1 == p) = countOf t p (chainOf t d i) :=
    List.countP_map
  simp only [shownTable_eq_shownOf hs, List.countP_append, List.countP_flatMap, Function.comp_def, entry]

/-- After REMOVE a slot is in use exactly if it was and is of another parameter. -/
theorem slotUsed_rechained {c : Cfg} {t u : Tables} {p j : Nat} (hs : tablesSound c t = true)
    (h : Rechained c t u fun d i => slotsWithout t p (chainOf t d i)) (hj : j < c.maxItems) :
    slotUsed (slotAt u j) = (slotUsed (slotAt t j) && (slotAt t j).param != p) := by
  have used {v : Tables} (hv : tablesSound c v = true) :
      slotUsed (slotAt v j) = true ↔ ∃ d, ∃ i < c.maxMessages, j ∈ chainOf v d i := by
    obtain ⟨hlen, hpool, -, hC, -⟩ := tablesSound_iff_chains.mp hv
    refine ⟨fun hu => ?_, fun ⟨d, i, hi, hmem⟩ => (hC.leads d i (hlen d ▸ hi)).used j hmem⟩
    obtain ⟨d, i, hi, hmem⟩ := hC.used j (hpool ▸ hj) hu
    exact ⟨d, i, hlen d ▸ hi, hmem⟩
  have mem_kept (js : List Nat) : j ∈ slotsWithout t p js ↔ j ∈ js ∧ (slotAt t j).param ≠ p := by
    simp [slotsWithout]
  rw [Bool.eq_iff_iff, Bool.and_eq_true, bne_iff_ne, used hs, used h.sound]
  constructor
  · rintro ⟨d, i, hi, hmem⟩
    rw [h.chains d i hi, mem_kept] at hmem
    exact ⟨⟨d, i, hi, hmem.1⟩, hmem.2⟩
  · rintro ⟨⟨d, i, hi, hmem⟩, hp⟩
    exact ⟨d, i, hi, by rw [h.chains d i hi, mem_kept]; exact ⟨hmem, hp⟩⟩

/-- REMOVE while the gate is open (R157). -/
theorem exec_remove_eq {s : State} (p : Nat) (hs : Sound s) (hb : s.busy = false) :
    exec (.remove p) s = .next
      { s with tables := (removeBindings p s.tables).2, result := .removed (removeBindings p s.tables).1 } :=
  (whenSound_of_sound hs).trans (whenIdle_of_idle hb)

/-- Settles O24: REMOVE takes the slots of the parameter out of every chain, one unlinking after another, and writes nothing
of an entry but its head and nothing of a slot but its link. -/
theorem removeDropsParameter : Obligations.RemoveDropsParameter := by
  intro p s hs hb
  obtain ⟨hn, hr⟩ := removeBindings_rechained p hs
  refine ⟨_, exec_remove_eq p hs hb, ?_, shownTable_rechained hs hr, hr.ids, hr.fields, fun j hj =>
    slotUsed_rechained hs hr hj⟩
  rw [hn, countP_shownTable p hs]

end Sys2Proof.Machine
end

section
/-! PROOFS. The frame of every operation (R20, R21, R43): which parts of the state it can write. -/

namespace Sys2Proof.Machine

/-! ## Frames -/

/-- From `s` to `t` only the parts `ps`, the result, the draws and the port calls can differ; consumers, draws and calls only
grow. -/
structure Frame (ps : List Part) (s t : State) : Prop where
  cfg : t.cfg = s.cfg
  pending : t.pending = s.pending
  cons : s.cons <+: t.cons
  same : ∀ part, part ∉ ps → part.same s t
  calls : ∃ calls, t.out = s.out ++ calls
  draws : s.draws ≤ t.draws

/-- A part that is the same in two states, and in the next. -/
theorem Part.same_trans {part : Part} {s t u : State} (h : part.same s t) (h' : part.same t u) : part.same s u := by
  cases part
  case ioi => exact ⟨h'.1.trans h.1, h'.2.trans h.2⟩
  all_goals exact Eq.trans h' h

/-- One frame after another. -/
theorem Frame.trans {ps : List Part} {s t u : State} (h : Frame ps s t) (h' : Frame ps t u) : Frame ps s u where
  cfg := h'.cfg.trans h.cfg
  pending := h'.pending.trans h.pending
  cons := h.cons.trans h'.cons
  same part hp := Part.same_trans (h.same part hp) (h'.same part hp)
  calls := by
    obtain ⟨c, hc⟩ := h.calls
    obtain ⟨c', hc'⟩ := h'.calls
    exact ⟨c ++ c', by rw [hc', hc, List.append_assoc]⟩
  draws := h.draws.trans h'.draws

/-- A frame with more parts. -/
theorem Frame.mono {ps qs : List Part} {s t : State} (h : Frame ps s t) (hsub : ps ⊆ qs) : Frame qs s t :=
  { h with same := fun part hp => h.same part fun hm => hp (hsub hm) }

/-- A state written field by field: every field but those of the parts `ps` is the old one, or the conditions say how it
grows. -/
theorem frame_update (ps : List Part) (s : State) {ioi filter : List Ident} {tables : Tables} {busy : Bool}
    {store : List Word} {flash : List Host.Cell} {draws : Nat} {result : Result} {out : List PortCall}
    (hioi : Part.ioi ∈ ps ∨ ioi = s.ioi ∧ filter = s.filter := by simp)
    (htables : Part.tables ∈ ps ∨ tables = s.tables := by simp)
    (hbusy : Part.busy ∈ ps ∨ busy = s.busy := by simp)
    (hstore : Part.store ∈ ps ∨ store = s.store := by simp)
    (hflash : Part.flash ∈ ps ∨ flash = s.flash := by simp)
    (hout : ∃ calls, out = s.out ++ calls := by simp)
    (hdraws : s.draws ≤ draws := by simp) :
    Frame ps s
      { s with ioi := ioi, filter := filter, tables := tables, busy := busy, store := store, flash := flash,
               draws := draws, result := result, out := out } where
  cfg := rfl
  pending := rfl
  cons := ⟨[], List.append_nil _⟩
  same part hp := by
    cases part with
    | cons => rfl
    | ioi => exact hioi.resolve_left hp
    | tables => exact htables.resolve_left hp
    | busy => exact hbusy.resolve_left hp
    | store => exact hstore.resolve_left hp
    | flash => exact hflash.resolve_left hp
  calls := hout
  draws := hdraws

/-- Nothing changes. -/
theorem Frame.refl (ps : List Part) (s : State) : Frame ps s s := frame_update ps s

/-- A new consumer behind the others. -/
theorem frame_cons (s : State) (h : Consumer) : Frame [.cons] s { s with cons := s.cons ++ [h] } where
  cfg := rfl
  pending := rfl
  cons := ⟨[h], rfl⟩
  same part hp := by
    cases part with
    | cons => exact absurd List.mem_cons_self hp
    | ioi => exact ⟨rfl, rfl⟩
    | _ => rfl
  calls := ⟨[], (List.append_nil _).symm⟩
  draws := le_rfl

/-- A port call. -/
theorem frame_emit (ps : List Part) (c : PortCall) (s : State) : Frame ps s (emit c s) := frame_update ps s

/-- The end of an operation. -/
theorem Frame.finish {ps : List Part} {s t u : State} {r : Result} (h : Frame ps s u) (hf : finish r u = .next t) :
    Frame ps s t := by
  rw [finish_next.mp hf]
  exact h.trans (frame_update ps u)

/-! ## Shared operations -/

/-- ADD_IOI writes the list and the filter (R132). -/
theorem addIdent_parts (id : Ident) (s : State) : Frame [.ioi] s (addIdent id s).2 := by
  rw [addIdent_eq]
  split
  · exact frame_update _ s
  · exact Frame.refl _ s

/-- Several ADD_IOI write the list and the filter. -/
theorem addIdents_parts (ids : List Ident) (s : State) : Frame [.ioi] s (addIdents ids s) := by
  induction ids generalizing s with
  | nil => exact Frame.refl _ s
  | cons id ids ih => exact (addIdent_parts id s).trans (ih _)

/-- What an external list-cleared handler writes (R133, R135). -/
theorem extCleared_parts (n : Nat) (s : State) : Frame [.ioi, .store, .flash] s (extCleared n s) := by
  rw [extCleared_eq, addDrawnIdents_eq, ← addIdents_eq]
  refine Frame.trans ?_ ((addIdents_parts _ _).mono (by simp))
  exact frame_update _ s (hdraws := by simp only; omega)

/-- What an external receive handler writes (R134, R135). -/
theorem extRx_parts (n : Nat) (id : Ident) (b : Payload) (s : State) : Frame [.store, .flash] s (extRx n id b s).2.2 := by
  rw [extRx_state]
  exact frame_update _ s

/-- UNPACK of a slot writes the store (R182). -/
theorem unpackAt_parts (buf : Payload) (j : Nat) (s : State) : Frame [.store] s (unpackAt buf j s) := by
  obtain ⟨cells, n, calls, hn, -, h⟩ := unpackAt_frame buf j s
  rw [h]
  exact frame_update _ s (hdraws := hn)

/-- UNPACK of a chain writes the store (R186). -/
theorem unpackChain_parts (buf : Payload) (js : List Nat) (s : State) : Frame [.store] s (unpackChain buf js s) := by
  induction js generalizing s with
  | nil => exact Frame.refl _ s
  | cons j js ih => exact (unpackAt_parts buf j s).trans (ih _)

/-- PACK of a slot writes nothing (R183). -/
theorem packAt_parts (f : Payload) (j : Nat) (s : State) : Frame [] s (packAt f j s).2 := by
  obtain ⟨n, calls, hn, -, h⟩ := packAt_frame f j s
  rw [h]
  exact frame_update _ s (hdraws := hn)

/-- The sweep writes nothing (R189). -/
theorem sweepEntries_parts (es : List Entry) (s : State) : Frame [] s (sweepEntries es s) := by
  obtain ⟨n, calls, hn, h⟩ := sweepEntries_frame es s
  rw [h]
  exact frame_update _ s (hdraws := hn)

/-- What ADD writes: the tables, and for a receive binding the acceptance list (R155). -/
def addWrites : Dir → List Part
  | .send => [.tables]
  | .recv => [.tables, .ioi]

/-- What ADD's transition writes. -/
theorem addBinding_parts {d : Dir} {p : Nat} {id : Ident} {o w : Byte} {g : F32} {k : Word} {s : State} {r : Nat × State}
    (h : addBinding d p id o w g k s = .ok r) : Frame (addWrites d) s r.2 := by
  obtain ⟨-, -, -, t, -, -, hr⟩ := addBinding_ok h
  have htables : Frame (addWrites d) s (s.setTables t) := frame_update _ s (htables := by cases d <;> simp [addWrites])
  rw [hr]
  cases d with
  | send => exact htables
  | recv => exact htables.trans ((addIdent_parts id _).mono (by simp [addWrites]))

/-! ## SDO classes -/

/-- What an SDO class writes (R202 to R209). -/
def sdoWrites : SdoClass → List Part
  | .prmWr => [.store]
  | .prmRd => []
  | .pidWr => [.store]
  | .pidRd => []
  | .mapTx => addWrites .send
  | .mapRx => addWrites .recv
  | .echo => []
  | .invIdx => []

/-- A validated raw write writes the store. -/
theorem sdoWriteRaw_parts (p : Nat) (b : Payload) (s : State) : Frame [.store] s (sdoWriteRaw p b s).2 := by
  rw [sdoWriteRaw, psSetRaw_eq]
  exact frame_update _ s

/-- A mapping request writes what ADD writes. -/
theorem sdoMap_parts (d : Dir) (b : Payload) (s : State) : Frame (addWrites d) s (sdoMap d b s).2 := by
  unfold sdoMap
  split
  · rename_i r hr
    exact addBinding_parts hr
  · exact Frame.refl _ s

/-- What each SDO class's action writes. -/
theorem sdoAct_parts (k : SdoClass) (b : Payload) (s : State) : Frame (sdoWrites k) s (sdoAct k b s).2 := by
  have translate (ps : List Part) : Frame ps s (psNumFromId (memRead b 3 1) s).2 := frame_emit ps _ s
  cases k with
  | prmWr => exact sdoWriteRaw_parts _ b s
  | prmRd => exact frame_emit _ _ s
  | pidWr =>
    dsimp only [sdoAct, sdoPidWr]
    split
    · exact (translate _).trans (sdoWriteRaw_parts _ b _)
    · exact translate _
  | pidRd =>
    dsimp only [sdoAct, sdoPidRd]
    split
    · exact (translate _).trans (frame_emit _ _ _)
    · exact translate _
  | mapTx => exact sdoMap_parts .send b s
  | mapRx => exact sdoMap_parts .recv b s
  | echo => exact Frame.refl _ s
  | invIdx => exact Frame.refl _ s

/-- What a served request writes: what its class's action does (R201). -/
theorem sdoServe_parts (k : SdoClass) (b : Payload) (s : State) : Frame (sdoWrites k) s (sdoServe k b s).2 :=
  (sdoAct_parts k b s).trans (frame_emit _ _ _)

/-- What an SDO request can do: be served, unless it is a mapping request during a save (R200, U3). -/
theorem sdoRun_next {k : SdoClass} {b : Payload} {s t : State} :
    sdoRun k b s = .next t ↔ Sound s ∧ sdoBlocked k s = false ∧
      t = { (sdoServe k b s).2 with result := .buffer (sdoServe k b s).1 } := by
  rw [sdoRun, whenSound_next]
  refine and_congr_right fun _ => ?_
  cases sdoBlocked k s with
  | true => simp
  | false => simp [finish_next]

/-- An SDO request as an operation of its own writes what its class writes. -/
theorem sdoRun_parts {k : SdoClass} {b : Payload} {s t : State} (h : sdoRun k b s = .next t) :
    Frame (sdoWrites k) s t := by
  obtain ⟨-, -, rfl⟩ := sdoRun_next.mp h
  exact (sdoServe_parts k b s).finish rfl

/-! ## The mapping consumer and the dispatcher -/

/-- What MAP_RX can do (R186): serve an SDO request that is not blocked, decline, or unpack the chain of the identifier's
entry. -/
theorem mapRx_ok {id : Ident} {b : Payload} {s : State} {r : Bool × Payload × State} (h : mapRx id b s = .ok r) :
    (id.toNat = s.cfg.requestId ∧ sdoBlocked (sdoClass s.cfg b) s = false ∧
        r = (true, sdoServe (sdoClass s.cfg b) b s)) ∨
      (id.toNat ≠ s.cfg.requestId ∧ r = (false, b, s)) ∨
      (id.toNat ≠ s.cfg.requestId ∧ s.busy = false ∧ ∃ e, findEntry s.tables .recv id = some e ∧
        r = (true, b, unpackChain b (chainOf s.tables .recv e) s)) := by
  unfold mapRx at h
  by_cases hid : id.toNat = s.cfg.requestId
  · rw [if_pos hid, sdoProcess] at h
    cases hb : sdoBlocked (sdoClass s.cfg b) s with
    | true => simp [hb] at h
    | false =>
      simp only [hb, Bool.false_eq_true, if_false, Except.ok.injEq] at h
      exact .inl ⟨hid, rfl, h.symm⟩
  · rw [if_neg hid] at h
    refine .inr ?_
    cases hb : s.busy with
    | true =>
      simp only [hb, if_true, Except.ok.injEq] at h
      exact .inl ⟨hid, h.symm⟩
    | false =>
      cases he : findEntry s.tables .recv id with
      | none =>
        simp only [hb, he, Bool.false_eq_true, if_false, Except.ok.injEq] at h
        exact .inl ⟨hid, h.symm⟩
      | some e =>
        simp only [hb, he, Bool.false_eq_true, if_false, Except.ok.injEq] at h
        exact .inr ⟨hid, rfl, e, rfl, h.symm⟩

/-- What MAP_RX's transition writes. -/
theorem mapRx_parts {id : Ident} {b : Payload} {s : State} {r : Bool × Payload × State} (h : mapRx id b s = .ok r) :
    Frame [.ioi, .tables, .store] s r.2.2 := by
  rcases mapRx_ok h with ⟨-, -, rfl⟩ | ⟨-, rfl⟩ | ⟨-, -, e, -, rfl⟩
  · exact (sdoServe_parts _ b s).mono (by cases sdoClass s.cfg b <;> simp [sdoWrites, addWrites])
  · exact Frame.refl _ s
  · exact (unpackChain_parts _ _ s).mono (by simp)

/-- What MAP_CLEARED's transition writes (R187). -/
theorem mapCleared_parts (s : State) : Frame [.ioi] s (mapCleared s) := addIdents_parts _ s

/-- What the notification of the consumers of a list writes (R133): external ones reach the store and the flash. -/
theorem notifyCleared_parts {ps : List Part} {cs : List Consumer} (s : State) (hioi : Part.ioi ∈ ps)
    (hext : ∀ n, .ext n ∈ cs → [.ioi, .store, .flash] ⊆ ps) : Frame ps s (notifyCleared cs s) := by
  induction cs generalizing s with
  | nil => exact Frame.refl ps s
  | cons h cs ih =>
    have hrest := fun n hn => hext n (List.mem_cons_of_mem h hn)
    cases h with
    | mapping => exact ((mapCleared_parts s).mono (by simpa using hioi)).trans (ih _ hrest)
    | ext n => exact ((extCleared_parts n s).mono (hext n (List.mem_cons_self))).trans (ih _ hrest)

/-- What CLEAR_IOI's transition writes (R133). -/
theorem clearIdents_parts {ps : List Part} (s : State) (hioi : Part.ioi ∈ ps)
    (hext : ∀ n, .ext n ∈ s.cons → [.ioi, .store, .flash] ⊆ ps) : Frame ps s (clearIdents s) :=
  Frame.trans (frame_update ps s (hioi := .inl hioi)) (notifyCleared_parts _ hioi hext)

/-- What an offer of a frame to the consumers of a list can do first (R134): end with an empty list; or with what the first
consumer leaves, if it claims; or go on from there with the others. -/
theorem offerFrame_cons_ok {h : Consumer} {cs : List Consumer} {id : Ident} {b : Payload} {s : State}
    {r : Payload × State} (ho : offerFrame (h :: cs) id b s = .ok r) :
    ∃ q : Bool × Payload × State, (h = .mapping ∧ mapRx id b s = .ok q ∨ ∃ n, h = .ext n ∧ q = extRx n id b s) ∧
      (r = q.2 ∨ offerFrame cs id q.2.1 q.2.2 = .ok r) := by
  cases h with
  | mapping =>
    rw [offerFrame] at ho
    cases hm : mapRx id b s with
    | error e => simp [hm] at ho
    | ok q =>
      refine ⟨q, .inl ⟨rfl, rfl⟩, ?_⟩
      obtain ⟨claimed, b1, s1⟩ := q
      cases claimed with
      | true =>
        simp only [hm, Except.ok.injEq] at ho
        exact .inl ho.symm
      | false =>
        simp only [hm] at ho
        exact .inr ho
  | ext n =>
    rw [offerFrame] at ho
    refine ⟨extRx n id b s, .inr ⟨n, rfl, rfl⟩, ?_⟩
    generalize extRx n id b s = q at ho ⊢
    obtain ⟨claimed, b1, s1⟩ := q
    cases claimed with
    | true => exact .inl (Except.ok.inj ho).symm
    | false => exact .inr ho

/-- What an offer of a frame to the consumers of a list writes (R134): external ones reach the store and the flash. -/
theorem offerFrame_parts {ps : List Part} {cs : List Consumer} {id : Ident} {b : Payload} {s : State}
    {r : Payload × State} (hmap : [.ioi, .tables, .store] ⊆ ps) (hext : ∀ n, .ext n ∈ cs → [.store, .flash] ⊆ ps)
    (ho : offerFrame cs id b s = .ok r) : Frame ps s r.2 := by
  induction cs generalizing b s with
  | nil =>
    cases ho
    exact Frame.refl ps s
  | cons h cs ih =>
    obtain ⟨q, hq, hr⟩ := offerFrame_cons_ok ho
    have hfirst : Frame ps s q.2.2 := by
      rcases hq with ⟨rfl, hq⟩ | ⟨n, rfl, rfl⟩
      · exact (mapRx_parts hq).mono hmap
      · exact (extRx_parts n id b s).mono (hext n List.mem_cons_self)
    rcases hr with rfl | hr
    · exact hfirst
    · exact hfirst.trans (ih (fun n hn => hext n (List.mem_cons_of_mem h hn)) hr)

/-! ## Operations -/

/-- What an operation can do from an open gate and sound tables. -/
theorem whenSound_whenIdle_next {s t : State} {k : Host.Outcome State Fault Refusal}
    (h : whenSound s (whenIdle s k) = .next t) : Sound s ∧ s.busy = false ∧ k = .next t := by
  obtain ⟨hs, h⟩ := whenSound_next.mp h
  exact ⟨hs, whenIdle_next.mp h⟩

/-- What REGISTER writes (R131). -/
theorem execRegister_parts {c : Consumer} {s t : State} (h : exec (.register c) s = .next t) : Frame [.cons] s t := by
  obtain ⟨-, h⟩ := whenSound_next.mp h
  split at h
  · exact (Frame.refl _ s).finish h
  · exact (frame_cons s c).finish h

/-- What DISPATCH can do (R134). -/
theorem execDispatch_next {id : Ident} {b : Payload} {s t : State} (h : exec (.dispatch id b) s = .next t) :
    Sound s ∧ ∃ r, offerFrame s.cons id b s = .ok r ∧ t = { r.2 with result := .buffer r.1 } := by
  obtain ⟨hs, h⟩ := whenSound_next.mp h
  split at h
  · rename_i r hr
    exact ⟨hs, r, hr, finish_next.mp h⟩
  · cases h

/-- What ADD can do (R155): succeed, or return an error. -/
theorem execAdd_next {d : Dir} {p : Nat} {id : Ident} {o w : Byte} {g : F32} {k : Word} {s t : State}
    (h : exec (.add d p id o w g k) s = .next t) :
    Sound s ∧ ((∃ r, addBinding d p id o w g k s = .ok r ∧ t = { r.2 with result := .count r.1 }) ∨
      ∃ e, t = { s with result := .error e }) := by
  obtain ⟨hs, -, h⟩ := whenSound_whenIdle_next h
  refine ⟨hs, ?_⟩
  split at h
  · rename_i r hr
    exact .inl ⟨r, hr, finish_next.mp h⟩
  · rename_i e _
    exact .inr ⟨e, finish_next.mp h⟩

/-- What ADD writes. -/
theorem execAdd_parts {d : Dir} {p : Nat} {id : Ident} {o w : Byte} {g : F32} {k : Word} {s t : State}
    (h : exec (.add d p id o w g k) s = .next t) : Frame (addWrites d) s t := by
  obtain ⟨-, ⟨r, hr, rfl⟩ | ⟨e, rfl⟩⟩ := execAdd_next h
  · exact (addBinding_parts hr).finish rfl
  · exact (Frame.refl _ s).finish rfl

/-- What UNPACK can do (R182). -/
theorem execUnpack_parts {b : Payload} {j : Word} {s t : State} (h : exec (.unpack b j) s = .next t) :
    Frame [.store] s t := by
  obtain ⟨-, h⟩ := whenSound_next.mp h
  split at h
  · exact (unpackAt_parts b _ s).finish h
  · cases h

/-- What PACK can do (R183). -/
theorem execPack_parts {f : Payload} {j : Word} {s t : State} (h : exec (.pack f j) s = .next t) : Frame [] s t := by
  obtain ⟨-, h⟩ := whenSound_next.mp h
  split at h
  · exact (packAt_parts f _ s).finish h
  · cases h

/-- What MAP_RX as an operation of its own can do. -/
theorem execMapRx_next {id : Ident} {b : Payload} {s t : State} (h : exec (.mapRx id b) s = .next t) :
    Sound s ∧ ∃ r, mapRx id b s = .ok r ∧ t = { r.2.2 with result := .claimed r.1 r.2.1 } := by
  obtain ⟨hs, h⟩ := whenSound_next.mp h
  split at h
  · rename_i r hr
    exact ⟨hs, r, hr, finish_next.mp h⟩
  · cases h

/-- What SEND_SWEEP writes: nothing (R189). -/
theorem execSendSweep_parts {s t : State} (h : exec .sendSweep s = .next t) : Frame [] s t := by
  obtain ⟨-, h⟩ := whenSound_next.mp h
  split at h
  · exact (Frame.refl _ s).finish h
  · exact (sweepEntries_parts _ s).finish h

/-- SAVE_BEGIN runs from sound tables, gate open (R231). -/
theorem execSaveBegin_next {s t : State} (h : exec .saveBegin s = .next t) : Sound s ∧ s.busy = false := by
  obtain ⟨hs, h⟩ := whenSound_next.mp h
  cases hb : s.busy with
  | true => simp [hb] at h
  | false => exact ⟨hs, rfl⟩

/-- SAVE_END runs from sound tables, gate closed (R233). -/
theorem execSaveEnd_next {s t : State} (h : exec .saveEnd s = .next t) : Sound s ∧ s.busy = true := by
  obtain ⟨hs, h⟩ := whenSound_next.mp h
  cases hb : s.busy with
  | true => exact ⟨hs, rfl⟩
  | false => simp [hb] at h

/-- What SAVE_BEGIN writes (R231). -/
theorem execSaveBegin_parts {s t : State} (h : exec .saveBegin s = .next t) : Frame [.tables, .busy, .flash] s t := by
  obtain ⟨hs, hb⟩ := execSaveBegin_next h
  obtain rfl := Host.Outcome.next.inj ((exec_saveBegin_eq hs hb).symm.trans h)
  exact frame_update _ s

/-- What SAVE_END writes (R233). -/
theorem execSaveEnd_parts {s t : State} (h : exec .saveEnd s = .next t) : Frame [.tables, .busy] s t := by
  obtain ⟨hs, hb⟩ := execSaveEnd_next h
  obtain rfl := Host.Outcome.next.inj ((exec_saveEnd_eq hs hb).symm.trans h)
  exact frame_update _ s

/-- What LOAD can do (R234): install the image if its checksum matches, and nothing else but read it. -/
theorem execLoad_next {s t : State} (h : exec .load s = .next t) :
    Sound s ∧
      ((cksumOf s.cfg (storedWords s.cfg s.flash) = storedCksum s.cfg s.flash ∧
          t = { installImage (readImage s) with result := .bool true }) ∨
        t = { readImage s with result := .bool false }) := by
  obtain ⟨hs, -, h⟩ := whenSound_whenIdle_next h
  refine ⟨hs, ?_⟩
  split at h
  · split at h
    · by_cases hck : cksumOf s.cfg (storedWords s.cfg s.flash) = storedCksum s.cfg s.flash
      · exact .inl ⟨hck, (Host.Outcome.next.inj h).symm.trans (if_pos hck)⟩
      · exact .inr ((Host.Outcome.next.inj h).symm.trans (if_neg hck))
    · cases h
  · cases h

/-- The reads of LOAD are port calls. -/
theorem readImage_parts (ps : List Part) (s : State) : Frame ps s (readImage s) := frame_update ps s

/-- What the installation of an image writes (R234). -/
theorem installImage_parts (s : State) : Frame [.tables, .ioi] s (installImage s) := by
  rw [installImage, remapPool_psNumFromId]
  exact Frame.trans (frame_update _ s) ((addIdents_parts _ _).mono (by simp))

/-- What LOAD writes. -/
theorem execLoad_parts {s t : State} (h : exec .load s = .next t) : Frame [.tables, .ioi] s t := by
  obtain ⟨-, ⟨-, rfl⟩ | rfl⟩ := execLoad_next h
  · exact ((readImage_parts _ s).trans (installImage_parts _)).finish rfl
  · exact (readImage_parts _ s).finish rfl

/-- What each operation writes without external consumers (R20): of the parts that `mayWrite` lists, store and flash of
CLEAR_IOI and CLEAR and the flash of DISPATCH are theirs (R135). -/
def ownWrites : Instr → List Part
  | .clearIoi => [.ioi]
  | .clear => [.tables, .ioi]
  | .dispatch _ _ => [.ioi, .tables, .store]
  | i => mayWrite i

/-- What every operation writes: its own parts, and what `mayWrite` lists if an external consumer is registered. -/
theorem exec_parts {i : Instr} {s t : State} {ps : List Part} (hown : ownWrites i ⊆ ps)
    (hext : ∀ n, .ext n ∈ s.cons → mayWrite i ⊆ ps) (h : exec i s = .next t) : Frame ps s t := by
  cases i with
  | register c => exact (execRegister_parts h).mono hown
  | addIoi id => exact ((addIdent_parts id s).finish (whenSound_next.mp h).2).mono hown
  | clearIoi =>
    exact (clearIdents_parts s (hown (by simp [ownWrites])) hext).finish (whenSound_next.mp h).2
  | dispatch id b =>
    obtain ⟨-, r, hr, rfl⟩ := execDispatch_next h
    exact (offerFrame_parts hown (fun n hn => List.Subset.trans (by simp [mayWrite]) (hext n hn)) hr).finish rfl
  | add d p id o w g k => exact (execAdd_parts h).mono (by cases d <;> exact hown)
  | remove p => exact (Frame.finish (frame_update [.tables] s) (whenSound_whenIdle_next h).2.2).mono hown
  | findFirst p => exact (Frame.refl _ s).finish (whenSound_whenIdle_next h).2.2
  | forEach v => exact Frame.finish (frame_update _ s) (whenSound_whenIdle_next h).2.2
  | clear =>
    have htables : Frame ps s (s.setTables (clearTables s.tables)) :=
      frame_update _ s (htables := .inl (hown (by simp [ownWrites])))
    refine (htables.trans (clearIdents_parts _ (hown (by simp [ownWrites])) fun n hn => ?_)).finish
      (whenSound_whenIdle_next h).2.2
    exact List.Subset.trans (by simp [mayWrite]) (hext n hn)
  | sendSweep => exact (execSendSweep_parts h).mono hown
  | unpack b j => exact (execUnpack_parts h).mono hown
  | pack f j => exact (execPack_parts h).mono hown
  | mapRx id b =>
    obtain ⟨-, r, hr, rfl⟩ := execMapRx_next h
    exact ((mapRx_parts hr).finish rfl).mono hown
  | mapCleared => exact ((mapCleared_parts s).finish (whenSound_next.mp h).2).mono hown
  | saveBegin => exact (execSaveBegin_parts h).mono hown
  | saveEnd => exact (execSaveEnd_parts h).mono hown
  | load => exact (execLoad_parts h).mono hown
  | sdoPrmWr | sdoPrmRd | sdoPidWr | sdoPidRd | sdoMapTx | sdoMapRx | sdoEchoPrm | sdoEchoMapTx | sdoEchoMapRx
  | sdoInvIdx => exact (sdoRun_parts h).mono hown

/-- An operation's own parts are among those listed. -/
theorem ownWrites_subset (i : Instr) : ownWrites i ⊆ mayWrite i := by
  cases i
  case clearIoi | clear | dispatch => simp [ownWrites, mayWrite]
  all_goals exact List.Subset.refl _

/-- An operation writes no part that `mayWrite` does not list. -/
theorem exec_mayWrite {i : Instr} {s t : State} (h : exec i s = .next t) : Frame (mayWrite i) s t :=
  exec_parts (ownWrites_subset i) (fun _ _ => List.Subset.refl _) h

/-- Only SAVE_BEGIN writes the flash on its own. -/
theorem flash_notMem_ownWrites {i : Instr} (h : i ≠ .saveBegin) : Part.flash ∉ ownWrites i := by
  cases i
  case saveBegin => exact absurd rfl h
  case add d _ _ _ _ _ _ => cases d <;> simp [ownWrites, mayWrite]
  all_goals simp [ownWrites, mayWrite]

/-- CLEAR_IOI and CLEAR write no store on their own. -/
theorem store_notMem_ownWrites {i : Instr} (h : i = .clearIoi ∨ i = .clear) : Part.store ∉ ownWrites i := by
  rcases h with rfl | rfl <;> simp [ownWrites]

/-- Settles O12: the frame of every operation, with and without external consumers. -/
theorem whoWritesWhat : Obligations.WhoWritesWhat := by
  intro i s t h
  have hf := exec_mayWrite h
  refine ⟨hf.cfg, hf.pending, hf.cons, hf.same, fun hno => ?_, hf.calls, hf.draws⟩
  have halone : Frame (ownWrites i) s t := exec_parts (List.Subset.refl _) (fun n hn => absurd hn (hno n)) h
  exact ⟨fun hi => halone.same .flash (flash_notMem_ownWrites hi), fun hi =>
    halone.same .store (store_notMem_ownWrites hi)⟩

end Sys2Proof.Machine
end

section
/-! PROOFS. Every step keeps the invariant (R37): the frame of an operation gives what it does not write, and each operation
that does write the tables, the acceptance list, the consumers or the flash keeps what they satisfy. -/

namespace Sys2Proof.Machine

/-! ## Shared operations -/

/-- The invariant after a change whose frame is known: only for the parts written is there something to show. -/
theorem Frame.inv {ps : List Part} {s t : State} (hf : Frame ps s t) (h : Inv s)
    (htables : Part.tables ∈ ps → Sound t := by simp) (hioi : Part.ioi ∈ ps → AcceptanceOk t := by simp)
    (hcons : Part.cons ∈ ps → ConsumersOk t := by simp)
    (hflash : Part.flash ∈ ps → Memory.wf t.flash = true := by simp) : Inv t := by
  obtain ⟨hs, hacc, hle, hwf⟩ := h
  refine ⟨?_, ?_, ?_, ?_⟩
  · by_cases hp : Part.tables ∈ ps
    · exact htables hp
    · have e : t.tables = s.tables := hf.same .tables hp
      rwa [Sound, e, hf.cfg]
  · by_cases hp : Part.ioi ∈ ps
    · exact hioi hp
    · obtain ⟨ei, ef⟩ : t.ioi = s.ioi ∧ t.filter = s.filter := hf.same .ioi hp
      rwa [AcceptanceOk, ei, ef, hf.cfg]
  · by_cases hp : Part.cons ∈ ps
    · exact hcons hp
    · have e : t.cons = s.cons := hf.same .cons hp
      rwa [ConsumersOk, e, hf.cfg]
  · by_cases hp : Part.flash ∈ ps
    · exact hflash hp
    · have e : t.flash = s.flash := hf.same .flash hp
      rwa [e]

/-- ADD_IOI keeps the invariant. -/
theorem addIdent_inv (id : Ident) {s : State} (h : Inv s) : Inv (addIdent id s).2 := by
  have ⟨_, hacc, _⟩ := h
  exact (addIdent_parts id s).inv h (hioi := fun _ => addIdent_acceptance id s hacc)

/-- Several ADD_IOI keep the invariant. -/
theorem addIdents_inv (ids : List Ident) {s : State} (h : Inv s) : Inv (addIdents ids s) := by
  have ⟨_, hacc, _⟩ := h
  exact (addIdents_parts ids s).inv h (hioi := fun _ => addIdents_acceptance ids s hacc)

/-- An external list-cleared handler keeps the invariant. -/
theorem extCleared_inv (n : Nat) {s : State} (h : Inv s) : Inv (extCleared n s) := by
  have ⟨_, hacc, _, hwf⟩ := h
  refine (extCleared_parts n s).inv h (hioi := fun _ => extCleared_acceptance n s hacc)
    (hflash := fun _ => ?_)
  rw [extCleared_eq, addDrawnIdents_frame]
  exact Memory.writeAll_wf _ hwf

/-- An external receive handler keeps the invariant. -/
theorem extRx_inv (n : Nat) (id : Ident) (b : Payload) {s : State} (h : Inv s) : Inv (extRx n id b s).2.2 := by
  have ⟨_, _, _, hwf⟩ := h
  refine (extRx_parts n id b s).inv h (hflash := fun _ => ?_)
  rw [extRx_state]
  exact Memory.writeAll_wf _ hwf

/-! ## Mapping -/

/-- The binding that ADD stores fits, where ADD's checks passed (R155). -/
theorem slotFits_newBinding (c : Cfg) (p : Nat) {o w : Byte} (g : F32) (k : Word) (ho : o.toNat ≤ 63)
    (hw : w.toNat ≤ 32) : SlotFits c (newBinding c p o w g k) := ⟨cutRef_lt c p, fun _ => ⟨ho, hw⟩⟩

/-- ADD's transition keeps the invariant (R155). -/
theorem addBinding_inv {d : Dir} {p : Nat} {id : Ident} {o w : Byte} {g : F32} {k : Word} {s : State} {r : Nat × State}
    (h : Inv s) (ha : addBinding d p id o w g k s = .ok r) : Inv r.2 := by
  obtain ⟨-, ho, hw, t, ht, -, hr⟩ := addBinding_ok ha
  have htables : Inv (s.setTables t) := by
    obtain ⟨hs, hrest⟩ := h
    exact ⟨linkBinding_sound hs (slotFits_newBinding s.cfg p g k ho hw) rfl ht, hrest⟩
  rw [hr]
  split
  · exact addIdent_inv id htables
  · exact htables

/-- CLEAR's writes keep the invariant (R160). -/
theorem clearTables_inv {s : State} (h : Inv s) : Inv (s.setTables (clearTables s.tables)) := by
  obtain ⟨hs, hrest⟩ := h
  exact ⟨clearTables_sound hs, hrest⟩

/-- A rewriting of the parameter references keeps the invariant (R41). -/
theorem remapped_inv (f : Nat → Nat) {s : State} (h : Inv s) : Inv (s.setTables (remapped s.cfg f s.tables)) := by
  obtain ⟨hs, hrest⟩ := h
  exact ⟨sound_remapped f hs, hrest⟩

/-! ## Handlers -/

/-- A mapping request keeps the invariant (R206, R207). -/
theorem sdoMap_inv (d : Dir) (b : Payload) {s : State} (h : Inv s) : Inv (sdoMap d b s).2 := by
  unfold sdoMap
  split
  · rename_i r hr
    exact addBinding_inv h hr
  · exact h

/-- A served request keeps the invariant (R200). -/
theorem sdoServe_inv (k : SdoClass) (b : Payload) {s : State} (h : Inv s) : Inv (sdoServe k b s).2 := by
  have hact : Inv (sdoAct k b s).2 := by
    cases k with
    | prmWr => exact Frame.inv (ps := [.store]) (sdoAct_parts .prmWr b s) h
    | prmRd => exact Frame.inv (ps := []) (sdoAct_parts .prmRd b s) h
    | pidWr => exact Frame.inv (ps := [.store]) (sdoAct_parts .pidWr b s) h
    | pidRd => exact Frame.inv (ps := []) (sdoAct_parts .pidRd b s) h
    | mapTx => exact sdoMap_inv .send b h
    | mapRx => exact sdoMap_inv .recv b h
    | echo => exact h
    | invIdx => exact h
  exact (frame_emit [] _ _).inv hact

/-- MAP_RX's transition keeps the invariant (R186). -/
theorem mapRx_inv {id : Ident} {b : Payload} {s : State} {r : Bool × Payload × State} (h : Inv s)
    (hm : mapRx id b s = .ok r) : Inv r.2.2 := by
  rcases mapRx_ok hm with ⟨-, -, rfl⟩ | ⟨-, rfl⟩ | ⟨-, -, e, -, rfl⟩
  · exact sdoServe_inv _ b h
  · exact h
  · exact (unpackChain_parts b _ s).inv h

/-- An offer of a frame to the consumers of a list keeps the invariant (R134). -/
theorem offerFrame_inv {cs : List Consumer} {id : Ident} {b : Payload} {s : State} {r : Payload × State} (h : Inv s)
    (ho : offerFrame cs id b s = .ok r) : Inv r.2 := by
  induction cs generalizing b s with
  | nil =>
    cases ho
    exact h
  | cons c cs ih =>
    obtain ⟨q, hq, hr⟩ := offerFrame_cons_ok ho
    have hfirst : Inv q.2.2 := by
      rcases hq with ⟨-, hq⟩ | ⟨n, -, rfl⟩
      · exact mapRx_inv h hq
      · exact extRx_inv n id b h
    rcases hr with rfl | hr
    · exact hfirst
    · exact ih hfirst hr

/-- The notification of the consumers of a list keeps the invariant (R133). -/
theorem notifyCleared_inv (cs : List Consumer) {s : State} (h : Inv s) : Inv (notifyCleared cs s) := by
  induction cs generalizing s with
  | nil => exact h
  | cons c cs ih =>
    cases c with
    | mapping => exact ih (addIdents_inv _ h)
    | ext n => exact ih (extCleared_inv n h)

/-- CLEAR_IOI's transition keeps the invariant (R133). -/
theorem clearIdents_inv {s : State} (h : Inv s) : Inv (clearIdents s) := by
  obtain ⟨hs, -, hrest⟩ := h
  exact notifyCleared_inv _ ⟨hs, ⟨List.nodup_nil, Nat.zero_le _, rfl⟩, hrest⟩

/-! ## Persistence -/

/-- The installation of a sound image keeps the invariant (R234). -/
theorem installImage_inv {s : State} (h : Inv s)
    (himage : tablesSound s.cfg (imageDe s.cfg (storedWords s.cfg s.flash)) = true) : Inv (installImage s) := by
  obtain ⟨-, hrest⟩ := h
  rw [installImage, remapPool_psNumFromId]
  exact addIdents_inv _ ⟨sound_remapped _ himage, hrest⟩

/-- SAVE_BEGIN keeps the invariant (R231). -/
theorem execSaveBegin_inv {s t : State} (h : Inv s) (he : exec .saveBegin s = .next t) : Inv t := by
  obtain ⟨hs, hb⟩ := execSaveBegin_next he
  obtain ⟨hsound, hacc, hle, hwf⟩ := remapped_inv (storeIdFromNum s.cfg) h
  have hflash := eraseIfNeeded_wf hwf
  rw [eraseIfNeeded_eq] at hflash
  obtain rfl := Host.Outcome.next.inj ((exec_saveBegin_eq hs hb).symm.trans he)
  exact ⟨hsound, hacc, hle, hflash⟩

/-- SAVE_END keeps the invariant (R233). -/
theorem execSaveEnd_inv {s t : State} (h : Inv s) (he : exec .saveEnd s = .next t) : Inv t := by
  obtain ⟨hs, hb⟩ := execSaveEnd_next he
  obtain rfl := Host.Outcome.next.inj ((exec_saveEnd_eq hs hb).symm.trans he)
  exact remapped_inv (storeNumFromId s.cfg) h

/-- LOAD keeps the invariant if the image that it installs is sound (R37). -/
theorem execLoad_inv {s t : State} (h : Inv s)
    (himage : cksumOf s.cfg (storedWords s.cfg s.flash) = storedCksum s.cfg s.flash →
      tablesSound s.cfg (imageDe s.cfg (storedWords s.cfg s.flash)) = true) (he : exec .load s = .next t) : Inv t := by
  have hread : Inv (readImage s) := (readImage_parts [] s).inv h
  obtain ⟨-, ⟨hck, rfl⟩ | rfl⟩ := execLoad_next he
  · exact installImage_inv hread (himage hck)
  · exact hread

/-! ## Operations, events, steps -/

/-- REGISTER keeps the invariant (R131). -/
theorem execRegister_inv {c : Consumer} {s t : State} (h : Inv s) (he : exec (.register c) s = .next t) : Inv t := by
  refine (execRegister_parts he).inv h (hcons := fun _ => ?_)
  obtain ⟨hs, hacc, hle, hwf⟩ := h
  obtain ⟨-, he⟩ := whenSound_next.mp he
  split at he
  · rw [finish_next.mp he]
    exact hle
  · rename_i hroom
    rw [finish_next.mp he]
    simpa using Nat.not_le.mp hroom

/-- Every operation keeps the invariant, a LOAD if the image that it installs is sound (R37). -/
theorem exec_inv {i : Instr} {s t : State} (h : Inv s)
    (himage : i = .load → cksumOf s.cfg (storedWords s.cfg s.flash) = storedCksum s.cfg s.flash →
      tablesSound s.cfg (imageDe s.cfg (storedWords s.cfg s.flash)) = true) (he : exec i s = .next t) : Inv t := by
  have hrun {k : SdoClass} {b : Payload} (he : sdoRun k b s = .next t) : Inv t := by
    obtain ⟨-, -, rfl⟩ := sdoRun_next.mp he
    exact sdoServe_inv k b h
  have hquiet (he : Frame [.store] s t) : Inv t := he.inv h
  have hsame (he : Frame [] s t) : Inv t := he.inv h
  cases i with
  | register c => exact execRegister_inv h he
  | addIoi id =>
    rw [finish_next.mp (whenSound_next.mp he).2]
    exact addIdent_inv id h
  | clearIoi =>
    rw [finish_next.mp (whenSound_next.mp he).2]
    exact clearIdents_inv h
  | dispatch id b =>
    obtain ⟨-, r, hr, rfl⟩ := execDispatch_next he
    exact offerFrame_inv h hr
  | add d p id o w g k =>
    obtain ⟨-, ⟨r, hr, rfl⟩ | ⟨e, rfl⟩⟩ := execAdd_next he
    · exact addBinding_inv h hr
    · exact h
  | remove p =>
    obtain ⟨hs, hb, -⟩ := whenSound_whenIdle_next he
    obtain ⟨-, hrest⟩ := h
    obtain ⟨-, hr⟩ := removeBindings_rechained p hs
    obtain rfl := Host.Outcome.next.inj ((exec_remove_eq p hs hb).symm.trans he)
    exact ⟨hr.sound, hrest⟩
  | findFirst | forEach | sendSweep | pack => exact hsame (exec_mayWrite he)
  | clear =>
    rw [finish_next.mp (whenSound_whenIdle_next he).2.2]
    exact clearIdents_inv (clearTables_inv h)
  | unpack b j => exact hquiet (exec_mayWrite he)
  | mapRx id b =>
    obtain ⟨-, r, hr, rfl⟩ := execMapRx_next he
    exact mapRx_inv h hr
  | mapCleared =>
    rw [finish_next.mp (whenSound_next.mp he).2]
    exact addIdents_inv _ h
  | saveBegin => exact execSaveBegin_inv h he
  | saveEnd => exact execSaveEnd_inv h he
  | load => exact execLoad_inv h (himage rfl) he
  | sdoPrmWr | sdoPrmRd | sdoPidWr | sdoPidRd | sdoMapTx | sdoMapRx | sdoEchoPrm | sdoEchoMapTx | sdoEchoMapRx
  | sdoInvIdx => exact hrun he

/-- The writing phase keeps the invariant (R232). -/
theorem saveWrite_inv {s t : State} (h : Inv s) (he : runEnv .saveWrite s = .next t) : Inv t := by
  obtain ⟨hs, he⟩ := whenSound_next.mp he
  obtain ⟨-, hacc, hle, hwf⟩ := h
  split at he
  · split at he
    · rw [finish_next.mp he]
      exact ⟨hs, hacc, hle, Memory.writeWords_wf _ _ hwf⟩
    · cases he
  · cases he

/-- Every event keeps the invariant, and a power cycle or a rebuild starts from it (R37, R282). -/
theorem runEnv_inv {e : EnvEvent} {s t : State} (h : Inv s) (he : runEnv e s = .next t) : Inv t := by
  cases e with
  | saveWrite => exact saveWrite_inv h he
  | storeChange cells =>
    cases he
    exact h
  | flashChange cells =>
    cases he
    obtain ⟨hs, hacc, hle, hwf⟩ := h
    exact ⟨hs, hacc, hle, Memory.writeAll_wf cells hwf⟩
  | powerCycle cells =>
    cases he
    obtain ⟨-, -, -, hwf⟩ := h
    exact inv_initial s.cfg cells hwf
  | rebuild c cells =>
    cases he
    obtain ⟨-, -, -, hwf⟩ := h
    exact inv_initial c cells hwf

/-- Settles O9: a step runs the oldest request, and operations and events keep the invariant. -/
theorem stepKeepsInvariant : Obligations.StepKeepsInvariant := by
  refine ⟨fun c _ => tablesSound_emptyTables c, fun s t h hload he => ?_⟩
  cases hp : s.pending with
  | nil =>
    rw [step_of_idle hp] at he
    exact Host.Outcome.next.inj he ▸ h
  | cons r rest =>
    cases r with
    | env e =>
      rw [step_of_env hp] at he
      exact runEnv_inv (s := { s with pending := rest }) h he
    | op f =>
      cases hd : decode s.cfg f with
      | error e =>
        rw [step_of_decode_error hp hd] at he
        cases he
      | ok i =>
        rw [step_of_decode_ok hp hd] at he
        exact exec_inv (s := { s with pending := rest }) h (fun hi => hload f rest hp (hi ▸ hd)) he

end Sys2Proof.Machine
end

section
/-! PROOFS. An SDO request's payload is the encoding of the operation that it decodes to (R93, R103), so that the operation
runs the class of the payload on the payload; and what the gate does (R42). -/

namespace Sys2Proof

/-! ## A payload comes back from its operation -/

/-- The number of two joined fields. -/
theorem toNat_append_eq_add {m n : Nat} (x : BitVec m) (y : BitVec n) : (x ++ y).toNat = x.toNat * 2 ^ n + y.toNat := by
  rw [BitVec.toNat_append, ← Nat.shiftLeft_add_eq_or_of_lt y.isLt, Nat.shiftLeft_eq]

/-- The number of a slice. -/
theorem toNat_extract_eq_mod {n : Nat} (x : BitVec n) (start len : Nat) :
    (x.extractLsb' start len).toNat = x.toNat / 2 ^ start % 2 ^ len := by
  rw [BitVec.extractLsb'_toNat, Nat.shiftRight_eq_div_pow]

/-- The index as a number of the low word (R93). -/
theorem Payload.index_toNat (b : Payload) : b.index.toNat = b.lo.toNat / 256 % 65536 := toNat_extract_eq_mod _ _ _

/-- A parameter index is its row's bits and index bit 0 (R97). -/
theorem Payload.index_prm {b : Payload} (h : b.index.toNat = 0x2000 ∨ b.index.toNat = 0x2001) :
    (0x1000#15 ++ b.lo.extractLsb' 8 1 : BitVec 16) = b.index := by
  refine BitVec.eq_of_toNat_eq ?_
  rw [b.index_toNat] at h ⊢
  rw [toNat_append_eq_add, toNat_extract_eq_mod, BitVec.toNat_ofNat]
  omega

/-- A send mapping index is its row's bits and index bits 0 to 11 (R98). -/
theorem Payload.index_mapTx {b : Payload} (h : 0x3000 ≤ b.index.toNat ∧ b.index.toNat ≤ 0x3FFF) :
    (0x3#4 ++ b.lo.extractLsb' 8 12 : BitVec 16) = b.index := by
  refine BitVec.eq_of_toNat_eq ?_
  rw [b.index_toNat] at h ⊢
  rw [toNat_append_eq_add, toNat_extract_eq_mod, BitVec.toNat_ofNat]
  omega

/-- Index bits 0 to 11 of a send mapping index are bit 11 and the identifier (R98). -/
theorem Payload.index_mapTx_ident {b : Payload} (h : 0x3000 ≤ b.index.toNat ∧ b.index.toNat ≤ 0x3FFF) :
    (0x3#4 ++ b.lo.extractLsb' 19 1 ++ b.mapIdent : BitVec 16) = b.index := by
  refine BitVec.eq_of_toNat_eq ?_
  rw [b.index_toNat] at h ⊢
  rw [Payload.mapIdent, toNat_append_eq_add, toNat_append_eq_add, toNat_extract_eq_mod, toNat_extract_eq_mod,
    BitVec.toNat_ofNat]
  omega

/-- A receive mapping index is its row's bits and the identifier (R98). -/
theorem Payload.index_mapRx {b : Payload} (h : 0x4000 ≤ b.index.toNat ∧ b.index.toNat ≤ 0x47FF) :
    (0x8#5 ++ b.mapIdent : BitVec 16) = b.index := by
  refine BitVec.eq_of_toNat_eq ?_
  rw [b.index_toNat] at h ⊢
  rw [Payload.mapIdent, toNat_append_eq_add, toNat_extract_eq_mod, BitVec.toNat_ofNat]
  omega

/-- The data of a mapping request is its three fields (R99). -/
theorem Payload.data_map (b : Payload) : mapData b.mapBitOff b.mapBitW b.mapGainRaw = b.data := by
  refine BitVec.eq_of_toNat_eq ?_
  rw [mapData, Payload.mapBitOff, Payload.mapBitW, Payload.mapGainRaw, toNat_append_eq_add, toNat_append_eq_add,
    toNat_extract_eq_mod, toNat_extract_eq_mod, toNat_extract_eq_mod, Payload.data]
  have := b.hi.isLt
  omega

/-- What a class says of the command and the index of its requests (R103). -/
def SdoClass.condition (b : Payload) : SdoClass → Prop
  | .prmWr => b.index = 0x2000 ∧ b.cmd = 0x40
  | .prmRd => b.index = 0x2000 ∧ b.cmd = 0x22
  | .pidWr => b.index = 0x2001 ∧ b.cmd = 0x40
  | .pidRd => b.index = 0x2001 ∧ b.cmd = 0x22
  | .mapTx => (0x3000 ≤ b.index.toNat ∧ b.index.toNat ≤ 0x3FFF) ∧ b.cmd = 0x40
  | .mapRx => (0x4000 ≤ b.index.toNat ∧ b.index.toNat ≤ 0x47FF) ∧ b.cmd = 0x40
  | .echo => (b.index.toNat = 0x2000 ∨ b.index.toNat = 0x2001) ∨
      (0x3000 ≤ b.index.toNat ∧ b.index.toNat ≤ 0x3FFF) ∨ (0x4000 ≤ b.index.toNat ∧ b.index.toNat ≤ 0x47FF)
  | .invIdx => True

/-- A request meets the condition of its class. -/
theorem sdoClass_condition (c : Cfg) (b : Payload) : (sdoClass c b).condition b := by
  unfold sdoClass
  extract_lets ok prm pid mapTx mapRx
  split_ifs with h1 h2 h3 h4 h5 h6 h7
  all_goals simp_all [SdoClass.condition, prm, pid, mapTx, mapRx]
  rcases h7 with ⟨((h | h) | h) | h, -⟩
  all_goals simp [h]

/-- A payload is the encoding of the operation that it decodes to (R93, R103). -/
theorem encode_decodeSdo (c : Cfg) (b : Payload) : encode (decodeSdo c b) = .sdo b := by
  have hb := sdoPayload_fields b
  have hc := sdoClass_condition c b
  unfold decodeSdo
  cases hk : sdoClass c b <;> rw [hk] at hc
  case prmWr | prmRd | pidWr | pidRd =>
    obtain ⟨hi, hcmd⟩ := hc
    rw [hi, hcmd] at hb
    exact congrArg Fetch.sdo hb
  case mapTx =>
    obtain ⟨hi, hcmd⟩ := hc
    rw [hcmd, ← b.data_map, ← Payload.index_mapTx_ident hi] at hb
    exact congrArg Fetch.sdo hb
  case mapRx =>
    obtain ⟨hi, hcmd⟩ := hc
    rw [hcmd, ← b.data_map, ← Payload.index_mapRx hi] at hb
    exact congrArg Fetch.sdo hb
  case echo =>
    dsimp only
    rcases hc with hi | hi | hi
    · rw [if_pos (by omega)]
      rw [← Payload.index_prm hi] at hb
      exact congrArg Fetch.sdo hb
    · rw [if_neg (by omega), if_pos (by omega)]
      rw [← Payload.index_mapTx hi] at hb
      exact congrArg Fetch.sdo hb
    · rw [if_neg (by omega), if_neg (by omega)]
      rw [← Payload.index_mapRx hi] at hb
      exact congrArg Fetch.sdo hb
  case invIdx => exact congrArg Fetch.sdo hb

/-- The request frame of the operation that a payload decodes to is the payload. -/
theorem requestPayload_decodeSdo (c : Cfg) (b : Payload) : requestPayload (decodeSdo c b) = b := by
  rw [requestPayload, encode_decodeSdo]

end Sys2Proof

namespace Sys2Proof.Machine

/-- The operation that a payload decodes to runs the payload's class on the payload (R200). -/
theorem exec_decodeSdo (c : Cfg) (b : Payload) (s : State) : exec (decodeSdo c b) s = sdoRun (sdoClass c b) b s := by
  have hclass : exec (decodeSdo c b) s = sdoRun (sdoClass c b) (requestPayload (decodeSdo c b)) s := by
    unfold decodeSdo
    cases sdoClass c b
    case echo =>
      dsimp only
      split
      · rfl
      · split <;> rfl
    all_goals rfl
  rw [hclass, requestPayload_decodeSdo]

/-! ## The gate -/

/-- Only mapping requests are blocked (R206, R211). -/
theorem sdoBlocked_of_not_map {k : SdoClass} (s : State) (htx : k ≠ .mapTx) (hrx : k ≠ .mapRx) :
    sdoBlocked k s = false := by
  simp [sdoBlocked, htx, hrx]

/-- MAP_RX of an SDO request that is not blocked serves it and claims the frame (R186). -/
theorem exec_mapRx_request {id : Ident} {b : Payload} {s : State} (hs : Sound s) (hid : id.toNat = s.cfg.requestId)
    (hk : sdoBlocked (sdoClass s.cfg b) s = false) :
    exec (.mapRx id b) s = .next
      { (sdoServe (sdoClass s.cfg b) b s).2 with result := .claimed true (sdoServe (sdoClass s.cfg b) b s).1 } := by
  have hm : mapRx id b s = .ok (true, sdoServe (sdoClass s.cfg b) b s) := by
    rw [mapRx, if_pos hid, sdoProcess, hk]
    rfl
  refine (whenSound_of_sound hs).trans ?_
  rw [hm]
  rfl

/-- An SDO request that is not blocked is served (R200). -/
theorem sdoRun_of_not_blocked {k : SdoClass} (b : Payload) {s : State} (hs : Sound s) (hk : sdoBlocked k s = false) :
    sdoRun k b s = .next { (sdoServe k b s).2 with result := .buffer (sdoServe k b s).1 } :=
  sdoRun_next.mpr ⟨hs, hk, rfl⟩

/-- MAP_RX of another frame declines while the gate is closed (R42, R186). -/
theorem exec_mapRx_busy {id : Ident} (b : Payload) {s : State} (hs : Sound s) (hb : s.busy = true)
    (hid : id.toNat ≠ s.cfg.requestId) : exec (.mapRx id b) s = .next { s with result := .claimed false b } := by
  have hm : mapRx id b s = .ok (false, b, s) := by rw [mapRx, if_neg hid, if_pos hb]
  refine (whenSound_of_sound hs).trans ?_
  rw [hm]
  rfl

/-- SEND_SWEEP sends nothing while the gate is closed (R42, R189). -/
theorem exec_sendSweep_busy {s : State} (hs : Sound s) (hb : s.busy = true) :
    exec .sendSweep s = .next { s with result := .none } :=
  (whenSound_of_sound hs).trans (congrArg (finish .none) (if_pos hb))

/-- SAVE_BEGIN closes the gate (R231). -/
theorem busy_of_exec_saveBegin {s t : State} (h : exec .saveBegin s = .next t) : t.busy = true := by
  obtain ⟨hs, hb⟩ := execSaveBegin_next h
  obtain rfl := Host.Outcome.next.inj ((exec_saveBegin_eq hs hb).symm.trans h)
  rfl

/-- SAVE_END opens the gate (R233). -/
theorem busy_of_exec_saveEnd {s t : State} (h : exec .saveEnd s = .next t) : t.busy = false := by
  obtain ⟨hs, hb⟩ := execSaveEnd_next h
  obtain rfl := Host.Outcome.next.inj ((exec_saveEnd_eq hs hb).symm.trans h)
  rfl

/-- Only SAVE_BEGIN and SAVE_END may write the gate (R42). -/
theorem busy_notMem_mayWrite {i : Instr} (hbegin : i ≠ .saveBegin) (hend : i ≠ .saveEnd) : Part.busy ∉ mayWrite i := by
  cases i
  case saveBegin => exact absurd rfl hbegin
  case saveEnd => exact absurd rfl hend
  case add d _ _ _ _ _ _ => cases d <;> simp [mayWrite]
  all_goals simp [mayWrite]

/-- Settles O11: the two phases by their equations, the other operations by their frame, and what MAP_RX and SEND_SWEEP do
behind the closed gate. -/
theorem busyGate : Obligations.BusyGate := by
  refine ⟨fun s t => busy_of_exec_saveBegin, fun s t => busy_of_exec_saveEnd, fun i s t hbegin hend h => ?_,
    fun s id b hs hb hid => exec_mapRx_busy b hs hb hid, fun s id b hs _ hid htx hrx => ?_,
    fun s hs hb => exec_sendSweep_busy hs hb, rfl⟩
  · exact (exec_mayWrite h).same .busy (busy_notMem_mayWrite hbegin hend)
  · have hk := sdoBlocked_of_not_map s htx hrx
    refine ⟨_, _, exec_mapRx_request hs hid hk, rfl, ?_⟩
    rw [exec_decodeSdo]
    exact sdoRun_of_not_blocked b hs hk

end Sys2Proof.Machine
end

section
/-! PROOFS. The bits of a field in its word and in the payload's 64-bit value (R63 to R65). -/

namespace Sys2Proof

/-- Bits 0 to 31 of the payload value are the low word, bits 32 to 63 the high word (R62, R63). -/
theorem Payload.value_getLsbD (b : Payload) (k : Nat) :
    b.value.getLsbD k = if k < 32 then b.lo.getLsbD k else b.hi.getLsbD (k - 32) := BitVec.getLsbD_append

/-- A slice of the value inside bytes 4 to 7 is a slice of the high word. -/
theorem Payload.extract_value_of_le (b : Payload) {start : Nat} (len : Nat) (h : 32 ≤ start) :
    b.value.extractLsb' start len = b.hi.extractLsb' (start - 32) len := BitVec.extractLsb'_append_eq_of_le h

end Sys2Proof

namespace Sys2Proof.Machine

/-! ## A field in its word -/

/-- The mask of a width up to 32 as a number (R65). -/
theorem fieldMask_toNat {w : Nat} (h : w ≤ 32) : (fieldMask w).toNat = 2 ^ w - 1 := by
  have hpow : 2 ^ w ≤ 2 ^ 32 := Nat.pow_le_pow_right (by decide) h
  rw [fieldMask, BitVec.toNat_ofNat, Nat.mod_eq_of_lt (by omega)]

/-- The mask of a width has exactly the bits below it (R65). -/
theorem fieldMask_getLsbD (w : Nat) {k : Nat} (hk : k < 32) : (fieldMask w).getLsbD k = decide (k < w) := by
  rw [fieldMask, BitVec.getLsbD_ofNat, decide_eq_true hk, Bool.true_and, Nat.testBit_two_pow_sub_one]

/-- Extraction is the slice of the word from the field's position (R65). -/
theorem extractField_toNat (word : Word) (sh : Nat) {w : Nat} (h : w ≤ 32) :
    (extractField word sh w).toNat = word.toNat / 2 ^ sh % 2 ^ w := by
  rw [extractField, BitVec.toNat_and, fieldMask_toNat h, Nat.and_two_pow_sub_one_eq_mod, BitVec.toNat_ushiftRight,
    Nat.shiftRight_eq_div_pow]

/-- Insertion ORs the value's low bits into the field's bits and keeps every other bit (R65). -/
theorem insertField_getLsbD (word value : Word) {sh w k : Nat} (h : sh + w ≤ 32) (hk : k < 32) :
    (insertField word sh w value).getLsbD k =
      (word.getLsbD k || (decide (sh ≤ k ∧ k < sh + w) && value.getLsbD (k - sh))) := by
  rw [insertField, BitVec.getLsbD_or, BitVec.getLsbD_shiftLeft, BitVec.getLsbD_and, fieldMask_getLsbD w (by omega)]
  by_cases hsh : sh ≤ k
  · by_cases hw : k < sh + w
    · simp [hk, hsh, hw, Nat.not_lt.mpr hsh, show k - sh < w by omega]
    · simp [hw, show ¬ k - sh < w by omega]
  · simp [hsh, show k < sh by omega]

/-- Settles O29: the mask as a number and as bits gives extraction and insertion. -/
theorem fieldMaskAndPosition : Obligations.FieldMaskAndPosition :=
  ⟨rfl, rfl, rfl, fun _ => fieldMask_toNat, fun word value sh _ h =>
    ⟨extractField_toNat word sh (by omega), fun _ => insertField_getLsbD word value h⟩⟩

/-! ## A field in the payload -/

/-- A field in the low word lies below bit 32 (R64). -/
theorem inLow_iff {b : Slot} : inLow b = true ↔ b.bitOff.toNat + b.bitW.toNat ≤ 32 := decide_eq_true_iff

/-- A field that neither straddles nor fits the low word lies in bits 32 to 63 (R64, R66). -/
theorem high_of_not_straddling {b : Slot} (h : straddling b = false) (hlow : inLow b = false) :
    32 ≤ b.bitOff.toNat ∧ b.bitOff.toNat + b.bitW.toNat ≤ 64 := by
  simpa [straddling, hlow, inHigh] using h

/-- A field that does not straddle fits its word (R64). -/
theorem fieldShift_add_bitW_le {b : Slot} (h : straddling b = false) : fieldShift b + b.bitW.toNat ≤ 32 := by
  cases hlow : inLow b with
  | true => simpa [fieldShift, hlow] using inLow_iff.mp hlow
  | false =>
    have := high_of_not_straddling h hlow
    simp only [fieldShift, hlow, Bool.false_eq_true, if_false]
    omega

/-- The slice of the payload value is the slice of the word that holds the field (R63, R64). -/
theorem payloadSlice_eq_fieldWord (p : Payload) {b : Slot} (h : straddling b = false) :
    payloadSlice p b = (fieldWord p b).toNat / 2 ^ fieldShift b % 2 ^ b.bitW.toNat := by
  rw [payloadSlice, ← toNat_extract_eq_mod, ← toNat_extract_eq_mod]
  cases hlow : inLow b with
  | true =>
    rw [Payload.extract_value_lo p (inLow_iff.mp hlow)]
    simp [fieldWord, fieldShift, hlow]
  | false =>
    rw [Payload.extract_value_of_le p _ (high_of_not_straddling h hlow).1]
    simp [fieldWord, fieldShift, hlow]

/-- The field that UNPACK extracts is the slice of the payload value (R63 to R65). -/
theorem extractField_eq_payloadSlice (p : Payload) {b : Slot} (h : straddling b = false) :
    (extractField (fieldWord p b) (fieldShift b) b.bitW.toNat).toNat = payloadSlice p b := by
  have := fieldShift_add_bitW_le h
  rw [extractField_toNat _ _ (by omega), payloadSlice_eq_fieldWord p h]

/-- PACK ORs the value's low bits into the field's bits of the frame and keeps every other bit (R63, R183). -/
theorem insertInto_getLsbD (p : Payload) (value : Word) {b : Slot} (h : straddling b = false) {k : Nat} (hk : k < 64) :
    (insertInto p b value).value.getLsbD k =
      (p.value.getLsbD k || (decide (b.bitOff.toNat ≤ k ∧ k < b.bitOff.toNat + b.bitW.toNat) &&
        value.getLsbD (k - b.bitOff.toNat))) := by
  have hfit := fieldShift_add_bitW_le h
  rw [Payload.value_getLsbD, Payload.value_getLsbD]
  cases hlow : inLow b with
  | true =>
    have hle := inLow_iff.mp hlow
    simp only [insertInto, fieldShift, hlow, if_true] at hfit ⊢
    by_cases hk32 : k < 32
    · rw [if_pos hk32, if_pos hk32, insertField_getLsbD _ _ hfit hk32]
    · simp [hk32, show ¬ k < b.bitOff.toNat + b.bitW.toNat by omega]
  | false =>
    obtain ⟨hge, -⟩ := high_of_not_straddling h hlow
    simp only [insertInto, fieldShift, hlow, Bool.false_eq_true, if_false] at hfit ⊢
    by_cases hk32 : k < 32
    · simp [hk32, show ¬ b.bitOff.toNat ≤ k by omega]
    · have hin : (b.bitOff.toNat - 32 ≤ k - 32 ∧ k - 32 < b.bitOff.toNat - 32 + b.bitW.toNat) ↔
          b.bitOff.toNat ≤ k ∧ k < b.bitOff.toNat + b.bitW.toNat := by omega
      rw [if_neg hk32, if_neg hk32, insertField_getLsbD _ _ hfit (by omega), decide_eq_decide.mpr hin,
        show k - 32 - (b.bitOff.toNat - 32) = k - b.bitOff.toNat by omega]

/-- Settles O30: the word and the shift that R64 selects are those of the payload value's slice. -/
theorem fieldIsPayloadSlice : Obligations.FieldIsPayloadSlice := fun buf _ value h =>
  ⟨extractField_eq_payloadSlice buf h, fun _ => insertInto_getLsbD buf value h⟩

end Sys2Proof.Machine
end

section
/-! PROOFS. UNPACK and PACK as equations (R182, R183), and what they leave unchanged (R60). -/

namespace Sys2Proof.Machine

/-! ## UNPACK -/

/-- UNPACK of a pool index that exists (R182). -/
theorem exec_unpack_eq (buf : Payload) {j : Word} {s : State} (hs : Sound s) (hj : j.toNat < s.cfg.maxItems) :
    exec (.unpack buf j) s = .next { unpackAt buf j.toNat s with result := .none } :=
  (whenSound_of_sound hs).trans (if_pos hj)

/-- UNPACK of a pool index that does not exist stops (R60). -/
theorem exec_unpack_noSuchSlot (buf : Payload) {j : Word} {s : State} (hs : Sound s) (hj : s.cfg.maxItems ≤ j.toNat) :
    exec (.unpack buf j) s = .fault .noSuchSlot := (whenSound_of_sound hs).trans (if_neg (Nat.not_lt.mpr hj))

/-- UNPACK's value for a field in one word is the scaled slice of the payload value (R63, R182). -/
theorem unpackValue_eq_scaledField (buf : Payload) {b : Slot} (h : straddling b = false) :
    unpackValue b buf = scaledField buf b := by
  rw [unpackValue, extractField_eq_payloadSlice buf h, scaledField]

/-- The store knows the kind of a declared parameter (R267). -/
theorem storeKind_of_declared {c : Cfg} {p : Nat} {decl : ParamDecl} (h : c.params[p]? = some decl) :
    storeKind c p = some decl.kind := by
  simp only [storeKind, h]

/-- UNPACK of a field in one word writes the scaled slice through the path of the parameter's kind (R182). -/
theorem unpackSlot_one_word (buf : Payload) {b : Slot} {s : State} {k : ParamKind} (hb : straddling b = false)
    (hk : storeKind s.cfg b.param = some k) :
    unpackSlot buf b s =
      { s with store := setCells k s.cfg s.store b.param (scaledField buf b)
               out := s.out ++ [.psKind b.param, setCall k b.param (scaledField buf b)] } := by
  rw [unpackSlot, hb, if_neg (by decide), unpackValue_eq_scaledField buf hb, psSetFromFloat_some _ hk]

/-- UNPACK of a straddling field writes a draw through the path of the parameter's kind (R66, R182). -/
theorem unpackSlot_straddling (buf : Payload) {b : Slot} {s : State} {k : ParamKind} (hb : straddling b = true)
    (hk : storeKind s.cfg b.param = some k) :
    unpackSlot buf b s =
      { s with store := setCells k s.cfg s.store b.param (Config.freeWord s.draws)
               draws := s.draws + 1
               out := s.out ++ [.psKind b.param, setCall k b.param (Config.freeWord s.draws)] } := by
  rw [unpackSlot, hb, if_pos rfl]
  exact psSetFromFloat_some (s := { s with draws := s.draws + 1 }) _ hk

/-- UNPACK of a used slot is UNPACK of its binding. -/
theorem unpackAt_used (buf : Payload) {j : Nat} {s : State} (h : slotUsed (slotAt s.tables j) = true) :
    unpackAt buf j s = unpackSlot buf (slotAt s.tables j) s := by
  rw [unpackAt, readSlot_used h]

/-- Settles O31: a used slot is read as it is, and its field lies in one word or straddles. -/
theorem unpackWritesScaledField : Obligations.UnpackWritesScaledField := by
  intro buf j s decl hs hj b hused hdecl
  have hk := storeKind_of_declared hdecl
  rw [exec_unpack_eq buf hs hj, unpackAt_used buf hused]
  cases hb : straddling b with
  | false => exact ⟨scaledField buf b, s.draws, fun _ => ⟨rfl, rfl⟩, by rw [unpackSlot_one_word buf hb hk]⟩
  | true => exact ⟨Config.freeWord s.draws, s.draws + 1, nofun, by rw [unpackSlot_straddling buf hb hk]⟩

/-- Settles O32: UNPACK of any slot writes the store, the draws and the port calls only. -/
theorem unpackWritesNoBlockState : Obligations.UnpackWritesNoBlockState := by
  refine fun buf j s hs => ⟨fun hj => ⟨_, exec_unpack_eq buf hs hj, ?_, rfl⟩, exec_unpack_noSuchSlot buf hs⟩
  obtain ⟨cells, n, calls, -, -, h⟩ := unpackAt_frame buf j.toNat s
  rw [h]
  exact ⟨rfl, rfl, rfl, rfl, rfl, rfl, rfl, rfl⟩

/-! ## PACK -/

/-- PACK of a pool index that exists (R183). -/
theorem exec_pack_eq (t0 : Payload) {j : Word} {s : State} (hs : Sound s) (hj : j.toNat < s.cfg.maxItems) :
    exec (.pack t0 j) s = .next { (packAt t0 j.toNat s).2 with result := .frame (packAt t0 j.toNat s).1 } :=
  (whenSound_of_sound hs).trans (if_pos hj)

/-- PACK of a pool index that does not exist stops (R60). -/
theorem exec_pack_noSuchSlot (t0 : Payload) {j : Word} {s : State} (hs : Sound s) (hj : s.cfg.maxItems ≤ j.toNat) :
    exec (.pack t0 j) s = .fault .noSuchSlot := (whenSound_of_sound hs).trans (if_neg (Nat.not_lt.mpr hj))

/-- The frames of joined port calls. -/
theorem framesOf_append (calls more : List PortCall) : framesOf (calls ++ more) = framesOf calls ++ framesOf more :=
  List.filterMap_append

/-- `PS.getFloat` of a parameter whose value is known (R267). -/
theorem psGetFloat_some {p : Nat} {s : State} {v : F32} (h : storeGetFloat s.cfg s.store p = some v) :
    psGetFloat p s = (v, { s with out := s.out ++ [.psGetFloat p] }) := by
  rw [psGetFloat, h, wordOrDraw_some, emit_eq]

/-- PACK of a field in one word whose scaled value truncates ORs the integer into the frame after one read (R183). -/
theorem packSlot_one_word (t0 : Payload) {b : Slot} {s : State} {v : F32} {n : Word} (hb : straddling b = false)
    (hv : storeGetFloat s.cfg s.store b.param = some v) (hn : f32TruncI32 (packScaled b v) = some n) :
    packSlot t0 b s = (insertInto t0 b n, { s with out := s.out ++ [.psGetFloat b.param] }) := by
  simp only [packSlot, hb, Bool.false_eq_true, if_false, psGetFloat_some hv, hn, wordOrDraw_some]

/-- PACK of a straddling field ORs a draw into each word of the frame and reads no parameter (R66, R183). -/
theorem packSlot_straddling (t0 : Payload) {b : Slot} (s : State) (hb : straddling b = true) :
    packSlot t0 b s =
      (⟨t0.lo ||| Config.freeWord s.draws, t0.hi ||| Config.freeWord (s.draws + 1)⟩, { s with draws := s.draws + 2 }) := by
  rw [packSlot, if_pos hb]
  rfl

/-- PACK of a used slot is PACK of its binding. -/
theorem packAt_used (t0 : Payload) {j : Nat} {s : State} (h : slotUsed (slotAt s.tables j) = true) :
    packAt t0 j s = packSlot t0 (slotAt s.tables j) s := by
  rw [packAt, readSlot_used h]

/-- Settles O33: a used slot is read as it is, and its field lies in one word or straddles. -/
theorem packInsertsTruncatedValue : Obligations.PackInsertsTruncatedValue := by
  intro t0 j s hs hj b hused
  rw [exec_pack_eq t0 hs hj, packAt_used t0 hused]
  constructor
  · intro v n hb hv hn
    rw [packSlot_one_word t0 hb hv hn]
  · intro hb
    exact ⟨_, _, by rw [packSlot_straddling t0 s hb]⟩

/-- Settles O35: PACK of any slot writes the draws and the port calls only, and none of them is a frame. -/
theorem packWritesNoState : Obligations.PackWritesNoState := by
  refine fun t0 j s hs => ⟨fun hj => ⟨_, exec_pack_eq t0 hs hj, ?_⟩, exec_pack_noSuchSlot t0 hs⟩
  obtain ⟨n, calls, -, hcalls, h⟩ := packAt_frame t0 j.toNat s
  rw [h]
  refine ⟨⟨rfl, rfl, rfl, rfl, rfl, rfl, rfl, rfl⟩, rfl, ?_⟩
  rw [framesOf_append, hcalls, List.append_nil]

end Sys2Proof.Machine
end

section
/-! PROOFS. The decoder of SDO requests reads back what the encoder writes (R93, R98, R99, R103): the fields of a payload
that is made of fields, and for each class of R103 exactly when a request is of that class. -/

namespace Sys2Proof

/-! ## Fields of a payload made of fields -/

/-- The command byte of a payload made of fields (R93). -/
@[simp] theorem sdoPayload_cmd (cmd : Byte) (index : BitVec 16) (sub : Byte) (data : Word) :
    (sdoPayload cmd index sub data).cmd = cmd := BitVec.extractLsb'_append_eq_right

/-- The index of a payload made of fields (R93). -/
@[simp] theorem sdoPayload_index (cmd : Byte) (index : BitVec 16) (sub : Byte) (data : Word) :
    (sdoPayload cmd index sub data).index = index :=
  (BitVec.extractLsb'_append_eq_of_le le_rfl).trans BitVec.extractLsb'_append_eq_right

/-- The sub-index of a payload made of fields (R93). -/
@[simp] theorem sdoPayload_sub (cmd : Byte) (index : BitVec 16) (sub : Byte) (data : Word) :
    (sdoPayload cmd index sub data).sub = sub :=
  (BitVec.extractLsb'_append_eq_of_le (by decide)).trans BitVec.extractLsb'_append_eq_left

/-- The data of a payload made of fields (R93). -/
@[simp] theorem sdoPayload_data (cmd : Byte) (index : BitVec 16) (sub : Byte) (data : Word) :
    (sdoPayload cmd index sub data).data = data := rfl

/-- A slice of the low word inside bytes 1 and 2 is a slice of the index (R93). -/
theorem Payload.extract_index (b : Payload) {start len : Nat} (h : start + len ≤ 16) :
    b.index.extractLsb' start len = b.lo.extractLsb' (8 + start) len := by
  refine BitVec.eq_of_getLsbD_eq fun k hk => ?_
  simp only [Payload.index, BitVec.getLsbD_extractLsb', Nat.add_assoc, decide_eq_true (show start + k < 16 by omega),
    Bool.true_and]

/-- The identifier of a mapping request is `index[10:0]` (R98). -/
theorem Payload.mapIdent_eq_index (b : Payload) : b.mapIdent = b.index.extractLsb' 0 11 :=
  (b.extract_index (start := 0) (len := 11) (by decide)).symm

/-- The bit offset in a mapping request's data (R99). -/
@[simp] theorem sdoPayload_mapBitOff (cmd : Byte) (index : BitVec 16) (sub o w : Byte) (g : BitVec 16) :
    (sdoPayload cmd index sub (mapData o w g)).mapBitOff = o := BitVec.extractLsb'_append_eq_right

/-- The bit width in a mapping request's data (R99). -/
@[simp] theorem sdoPayload_mapBitW (cmd : Byte) (index : BitVec 16) (sub o w : Byte) (g : BitVec 16) :
    (sdoPayload cmd index sub (mapData o w g)).mapBitW = w :=
  (BitVec.extractLsb'_append_eq_of_le le_rfl).trans BitVec.extractLsb'_append_eq_right

/-- The raw gain in a mapping request's data (R99). -/
@[simp] theorem sdoPayload_mapGainRaw (cmd : Byte) (index : BitVec 16) (sub o w : Byte) (g : BitVec 16) :
    (sdoPayload cmd index sub (mapData o w g)).mapGainRaw = g :=
  (BitVec.extractLsb'_append_eq_of_le (by decide)).trans BitVec.extractLsb'_append_eq_left

/-! ## Fields of an object index (R97, R98) -/

/-- The indices of the parameter row. -/
theorem prmIndex_cases (pid : BitVec 1) :
    (0x1000#15 ++ pid : BitVec 16) = 0x2000#16 ∨ (0x1000#15 ++ pid : BitVec 16) = 0x2001#16 := by
  rw [← BitVec.toNat_inj, ← BitVec.toNat_inj, toNat_append_eq_add, BitVec.toNat_ofNat, BitVec.toNat_ofNat,
    BitVec.toNat_ofNat]
  omega

/-- The indices of the parameter row lie below the mapping rows. -/
theorem prmIndex_lt (pid : BitVec 1) : (0x1000#15 ++ pid : BitVec 16).toNat < 0x3000 := by
  rcases prmIndex_cases pid with h | h
  · rw [h]
    decide
  · rw [h]
    decide

/-- The indices of the send mapping row. -/
theorem mapTxIndex_bounds (low : BitVec 12) :
    0x3000 ≤ (0x3#4 ++ low : BitVec 16).toNat ∧ (0x3#4 ++ low : BitVec 16).toNat ≤ 0x3FFF := by
  rw [toNat_append_eq_add, BitVec.toNat_ofNat]
  omega

/-- The indices of the send mapping row, from bit 11 and the identifier. -/
theorem mapTxIdentIndex_bounds (second : BitVec 1) (ident : BitVec 11) :
    0x3000 ≤ (0x3#4 ++ second ++ ident : BitVec 16).toNat ∧ (0x3#4 ++ second ++ ident : BitVec 16).toNat ≤ 0x3FFF := by
  have h := mapTxIndex_bounds (second ++ ident)
  rwa [BitVec.append_assoc, BitVec.toNat_cast]

/-- The indices of the receive mapping row. -/
theorem mapRxIndex_bounds (low : BitVec 11) :
    0x4000 ≤ (0x8#5 ++ low : BitVec 16).toNat ∧ (0x8#5 ++ low : BitVec 16).toNat ≤ 0x47FF := by
  rw [toNat_append_eq_add, BitVec.toNat_ofNat]
  omega

/-- Bit 0 of a parameter index. -/
@[simp] theorem prmIndex_low (pid : BitVec 1) : (0x1000#15 ++ pid : BitVec 16).extractLsb' 0 1 = pid :=
  BitVec.extractLsb'_append_eq_right

/-- Bits 0 to 11 of a send mapping index. -/
@[simp] theorem mapTxIndex_low (low : BitVec 12) : (0x3#4 ++ low : BitVec 16).extractLsb' 0 12 = low :=
  BitVec.extractLsb'_append_eq_right

/-- The identifier of a send mapping index. -/
@[simp] theorem mapTxIndex_ident (second : BitVec 1) (ident : BitVec 11) :
    (0x3#4 ++ second ++ ident : BitVec 16).extractLsb' 0 11 = ident := BitVec.extractLsb'_append_eq_right

/-- Bit 11 of a send mapping index. -/
@[simp] theorem mapTxIndex_second (second : BitVec 1) (ident : BitVec 11) :
    (0x3#4 ++ second ++ ident : BitVec 16).extractLsb' 11 1 = second :=
  (BitVec.extractLsb'_append_eq_of_le le_rfl).trans BitVec.extractLsb'_append_eq_right

/-- Bits 0 to 10 of a receive mapping index. -/
@[simp] theorem mapRxIndex_low (low : BitVec 11) : (0x8#5 ++ low : BitVec 16).extractLsb' 0 11 = low :=
  BitVec.extractLsb'_append_eq_right

/-! ## When a request is of a class -/

/-- A request is of a class: the class's row of R103 fits, with SUBOK for rows 1 to 7, and no row before it does. -/
def SdoClass.Fits (c : Cfg) (b : Payload) : SdoClass → Prop
  | .prmWr => subOk c b.sub = true ∧ b.index = 0x2000#16 ∧ b.cmd = 0x40#8
  | .prmRd => subOk c b.sub = true ∧ b.index = 0x2000#16 ∧ b.cmd = 0x22#8
  | .pidWr => subOk c b.sub = true ∧ b.index = 0x2001#16 ∧ b.cmd = 0x40#8
  | .pidRd => subOk c b.sub = true ∧ b.index = 0x2001#16 ∧ b.cmd = 0x22#8
  | .mapTx => subOk c b.sub = true ∧ (0x3000 ≤ b.index.toNat ∧ b.index.toNat ≤ 0x3FFF) ∧ b.cmd = 0x40#8
  | .mapRx => subOk c b.sub = true ∧ (0x4000 ≤ b.index.toNat ∧ b.index.toNat ≤ 0x47FF) ∧ b.cmd = 0x40#8
  | .echo => subOk c b.sub = true ∧ b.cmd ≠ 0x40#8 ∧
      ((b.index = 0x2000#16 ∨ b.index = 0x2001#16) ∧ b.cmd ≠ 0x22#8 ∨
        0x3000 ≤ b.index.toNat ∧ b.index.toNat ≤ 0x47FF)
  | .invIdx => (objectIndex b.index && subOk c b.sub) = false

/-- The object indices are the two parameter rows and the mapping rows (R97). -/
theorem objectIndex_iff {i : BitVec 16} :
    objectIndex i = true ↔ (i = 0x2000#16 ∨ i = 0x2001#16) ∨
      (0x3000 ≤ i.toNat ∧ i.toNat ≤ 0x3FFF) ∨ (0x4000 ≤ i.toNat ∧ i.toNat ≤ 0x47FF) := by
  have hmap : (0x3000 ≤ i.toNat ∧ i.toNat ≤ 0x47FF) ↔
      (0x3000 ≤ i.toNat ∧ i.toNat ≤ 0x3FFF) ∨ (0x4000 ≤ i.toNat ∧ i.toNat ≤ 0x47FF) := by omega
  rw [← hmap]
  simp [objectIndex]

/-- A mapping index is no parameter index (R97). -/
theorem index_ne_prm_of_map {i : BitVec 16} (h : 0x3000 ≤ i.toNat) : i ≠ 0x2000#16 ∧ i ≠ 0x2001#16 := by
  rw [Ne, Ne, ← BitVec.toNat_inj, ← BitVec.toNat_inj, BitVec.toNat_ofNat, BitVec.toNat_ofNat]
  omega

/-- The class is the one whose condition the request meets (R103). -/
theorem sdoClass_of_fits {c : Cfg} {b : Payload} {k : SdoClass} (h : k.Fits c b) : sdoClass c b = k := by
  unfold sdoClass
  cases k
  case prmWr | prmRd | pidWr | pidRd =>
    obtain ⟨hsub, hi, hcmd⟩ := h
    simp [hsub, hi, hcmd]
  case mapTx =>
    obtain ⟨hsub, hi, hcmd⟩ := h
    simp [hsub, hcmd, hi, index_ne_prm_of_map hi.1]
  case mapRx =>
    obtain ⟨hsub, hi, hcmd⟩ := h
    simp [hsub, hcmd, hi, index_ne_prm_of_map (i := b.index) (by omega), show ¬ b.index.toNat ≤ 0x3FFF by omega]
  case echo =>
    obtain ⟨hsub, hcmd, ⟨hi | hi, hrd⟩ | hi⟩ := h
    · simp [hsub, hi, hcmd, hrd]
    · simp [hsub, hi, hcmd, hrd]
    · have hmap : (0x3000 ≤ b.index.toNat ∧ b.index.toNat ≤ 0x3FFF) ∨
          (0x4000 ≤ b.index.toNat ∧ b.index.toNat ≤ 0x47FF) := by omega
      simp [hsub, hcmd, index_ne_prm_of_map hi.1, hmap]
  case invIdx =>
    rcases Bool.and_eq_false_iff.mp h with hobj | hsub
    · rw [← Bool.not_eq_true, objectIndex_iff, not_or, not_or, not_or] at hobj
      simp [hobj]
    · simp [hsub]

/-- Every request meets the condition of its class. -/
theorem sdoClass_fits (c : Cfg) (b : Payload) : (sdoClass c b).Fits c b := by
  unfold sdoClass
  cases hsub : subOk c b.sub with
  | false => simp [SdoClass.Fits, hsub]
  | true =>
    simp only [Bool.and_true, Bool.and_eq_true, Bool.or_eq_true, beq_iff_eq, decide_eq_true_eq]
    split_ifs with h1 h2 h3 h4 h5 h6 h7
    · exact ⟨hsub, h1⟩
    · exact ⟨hsub, h2⟩
    · exact ⟨hsub, h3⟩
    · exact ⟨hsub, h4⟩
    · exact ⟨hsub, h5⟩
    · exact ⟨hsub, h6⟩
    · rcases h7 with ((hi | hi) | hi) | hi
      · rw [and_iff_right hi] at h1 h2
        exact ⟨hsub, h1, .inl ⟨.inl hi, h2⟩⟩
      · rw [and_iff_right hi] at h3 h4
        exact ⟨hsub, h3, .inl ⟨.inr hi, h4⟩⟩
      · rw [and_iff_right hi] at h5
        exact ⟨hsub, h5, .inr (by omega)⟩
      · rw [and_iff_right hi] at h6
        exact ⟨hsub, h6, .inr (by omega)⟩
    · refine Bool.and_eq_false_iff.mpr (.inl (Bool.eq_false_iff.mpr fun hobj => ?_))
      rcases objectIndex_iff.mp hobj with hi | hi | hi
      · exact h7 (.inl (.inl hi))
      · exact h7 (.inl (.inr hi))
      · exact h7 (.inr hi)

/-! ## What a request of a class decodes to -/

section
variable {c : Cfg} {b : Payload}

/-- A parameter write by number (R203). -/
theorem decodeSdo_prmWr (h : SdoClass.prmWr.Fits c b) : decodeSdo c b = .sdoPrmWr b.sub b.data := by
  rw [decodeSdo, sdoClass_of_fits h]

/-- A parameter read by number (R202). -/
theorem decodeSdo_prmRd (h : SdoClass.prmRd.Fits c b) : decodeSdo c b = .sdoPrmRd b.sub b.data := by
  rw [decodeSdo, sdoClass_of_fits h]

/-- A parameter write by persistent identifier (R205). -/
theorem decodeSdo_pidWr (h : SdoClass.pidWr.Fits c b) : decodeSdo c b = .sdoPidWr b.sub b.data := by
  rw [decodeSdo, sdoClass_of_fits h]

/-- A parameter read by persistent identifier (R204). -/
theorem decodeSdo_pidRd (h : SdoClass.pidRd.Fits c b) : decodeSdo c b = .sdoPidRd b.sub b.data := by
  rw [decodeSdo, sdoClass_of_fits h]

/-- A send mapping request, with its identifier and bit 11 from the index (R98, R206). -/
theorem decodeSdo_mapTx (h : SdoClass.mapTx.Fits c b) :
    decodeSdo c b = .sdoMapTx (b.index.extractLsb' 11 1) (b.index.extractLsb' 0 11) b.sub b.mapBitOff b.mapBitW
      b.mapGainRaw := by
  rw [decodeSdo, sdoClass_of_fits h, b.extract_index (by decide), b.extract_index (by decide)]
  rfl

/-- A receive mapping request, with its identifier from the index (R98, R207). -/
theorem decodeSdo_mapRx (h : SdoClass.mapRx.Fits c b) :
    decodeSdo c b = .sdoMapRx (b.index.extractLsb' 0 11) b.sub b.mapBitOff b.mapBitW b.mapGainRaw := by
  rw [decodeSdo, sdoClass_of_fits h, b.extract_index (by decide)]
  rfl

/-- An echo on a parameter index (R208). -/
theorem decodeSdo_echoPrm (h : SdoClass.echo.Fits c b) (hi : b.index.toNat < 0x3000) :
    decodeSdo c b = .sdoEchoPrm (b.index.extractLsb' 0 1) b.cmd b.sub b.data := by
  rw [decodeSdo, sdoClass_of_fits h, b.extract_index (by decide)]
  exact if_pos hi

/-- An echo on a send mapping index (R208). -/
theorem decodeSdo_echoMapTx (h : SdoClass.echo.Fits c b) (hi : 0x3000 ≤ b.index.toNat ∧ b.index.toNat ≤ 0x3FFF) :
    decodeSdo c b = .sdoEchoMapTx (b.index.extractLsb' 0 12) b.cmd b.sub b.data := by
  rw [decodeSdo, sdoClass_of_fits h, b.extract_index (by decide)]
  exact (if_neg (by omega)).trans (if_pos (by omega))

/-- An echo on a receive mapping index (R208). -/
theorem decodeSdo_echoMapRx (h : SdoClass.echo.Fits c b) (hi : 0x4000 ≤ b.index.toNat) :
    decodeSdo c b = .sdoEchoMapRx (b.index.extractLsb' 0 11) b.cmd b.sub b.data := by
  rw [decodeSdo, sdoClass_of_fits h, b.extract_index (by decide)]
  exact (if_neg (by omega)).trans (if_neg (by omega))

/-- A request with no object, or with no parameter (R209). -/
theorem decodeSdo_invIdx (h : SdoClass.invIdx.Fits c b) :
    decodeSdo c b = .sdoInvIdx b.cmd b.index b.sub b.data := by
  rw [decodeSdo, sdoClass_of_fits h]

end

/-! ## Both ways -/

/-- The operation that a payload decodes to is well-formed (R103). -/
theorem wellFormed_decodeSdo (c : Cfg) (b : Payload) : (decodeSdo c b).wellFormed c = true := by
  have h := sdoClass_fits c b
  unfold decodeSdo
  cases hk : sdoClass c b <;> rw [hk] at h
  case prmWr | prmRd | pidWr | pidRd | mapTx | mapRx => exact h.1
  case echo =>
    obtain ⟨hsub, hcmd, ⟨hi, hrd⟩ | hi⟩ := h
    · have hlt : b.index.toNat < 0x3000 := by rcases hi with hi | hi <;> simp [hi]
      simp [Instr.wellFormed, hlt, hsub, hcmd, hrd]
    · dsimp only
      rw [if_neg (by omega)]
      split <;> simp [Instr.wellFormed, hsub, hcmd]
  case invIdx => exact (Bool.not_eq_true' _).mpr h

/-- Settles O6: the class's condition gives well-formedness, and no field of the payload is lost. -/
theorem encodeDecodeSdoAgree : Obligations.EncodeDecodeSdoAgree := fun c b =>
  ⟨wellFormed_decodeSdo c b, encode_decodeSdo c b⟩

/-- The handle of a consumer that fits names it. -/
theorem consumerOfWord_word {h : Consumer} (hfits : h.fits = true) : consumerOfWord h.word = h := by
  cases h with
  | mapping => rfl
  | ext n =>
    have hn : n + 1 < 2 ^ 32 := of_decide_eq_true hfits
    have hnum : (BitVec.ofNat 32 (n + 1)).toNat = n + 1 := BitVec.toNat_ofNat .. |>.trans (Nat.mod_eq_of_lt hn)
    have hne : BitVec.ofNat 32 (n + 1) ≠ 0 := fun h0 => by simp [h0] at hnum
    rw [Consumer.word, consumerOfWord, if_neg hne, hnum, Nat.add_sub_cancel]

/-- The number of a direction names it (R107). -/
theorem dirOfBit_bit (d : Dir) : dirOfBit d.bit = d := by cases d <;> rfl

/-- A `param` operand that fits is read (R107). -/
theorem decodeParam_of_fits {c : Cfg} {p : Nat} {k : Nat → Instr} {i : Instr} (h : paramRefFits c p = true)
    (hk : k p = i) : decodeParam c p k = .ok i := hk ▸ if_pos h

/-- The operation that a payload made of an SDO operation's fields decodes to is that operation (R93, R98, R99, R103). -/
theorem decodeSdo_encode {c : Cfg} {i : Instr} {b : Payload} (hb : encode i = .sdo b) (h : i.wellFormed c = true) :
    decodeSdo c b = i := by
  cases i <;> cases hb <;> rw [Instr.wellFormed] at h
  case sdoPrmWr sub data => exact (decodeSdo_prmWr ⟨by simpa, by simp, by simp⟩).trans (by simp)
  case sdoPrmRd sub data => exact (decodeSdo_prmRd ⟨by simpa, by simp, by simp⟩).trans (by simp)
  case sdoPidWr sub data => exact (decodeSdo_pidWr ⟨by simpa, by simp, by simp⟩).trans (by simp)
  case sdoPidRd sub data => exact (decodeSdo_pidRd ⟨by simpa, by simp, by simp⟩).trans (by simp)
  case sdoMapTx second ident sub o w g =>
    exact (decodeSdo_mapTx ⟨by simpa, by simpa using mapTxIdentIndex_bounds second ident, by simp⟩).trans (by simp)
  case sdoMapRx ident sub o w g =>
    exact (decodeSdo_mapRx ⟨by simpa, by simpa using mapRxIndex_bounds ident, by simp⟩).trans (by simp)
  case sdoEchoPrm pid cmd sub data =>
    have ⟨hsub, hwr, hrd⟩ : subOk c sub = true ∧ cmd ≠ 0x40#8 ∧ cmd ≠ 0x22#8 := by simpa [and_assoc] using h
    exact (decodeSdo_echoPrm ⟨by simpa, by simpa, .inl ⟨by simpa using prmIndex_cases pid, by simpa⟩⟩
      (by simpa using prmIndex_lt pid)).trans (by simp)
  case sdoEchoMapTx low cmd sub data =>
    have ⟨hsub, hwr⟩ : subOk c sub = true ∧ cmd ≠ 0x40#8 := by simpa using h
    have ⟨hlo, hhi⟩ := mapTxIndex_bounds low
    exact (decodeSdo_echoMapTx ⟨by simpa, by simpa, .inr (by rw [sdoPayload_index]; omega)⟩
      (by rw [sdoPayload_index]; omega)).trans (by simp)
  case sdoEchoMapRx low cmd sub data =>
    have ⟨hsub, hwr⟩ : subOk c sub = true ∧ cmd ≠ 0x40#8 := by simpa using h
    have ⟨hlo, hhi⟩ := mapRxIndex_bounds low
    exact (decodeSdo_echoMapRx ⟨by simpa, by simpa, .inr (by rw [sdoPayload_index]; omega)⟩
      (by simpa)).trans (by simp)
  case sdoInvIdx cmd index sub data =>
    have hno : (objectIndex index && subOk c sub) = false := (Bool.not_eq_true' _).mp h
    exact (decodeSdo_invIdx (by simpa only [SdoClass.Fits, sdoPayload_index, sdoPayload_sub])).trans (by simp)

/-- Every well-formed operation of the command port comes back (R105 to R107). -/
theorem decodeCmd_encode {c : Cfg} {i : Instr} {p : CmdPort} (hp : encode i = .cmd p) (h : i.wellFormed c = true) :
    decodeCmd c p = .ok i := by
  cases i
  all_goals cases hp
  case register c => exact congrArg (fun c => Except.ok (Instr.register c)) (consumerOfWord_word h)
  case add d p id o w g k =>
    exact decodeParam_of_fits (k := fun n => .add (dirOfBit d.bit) n id o w g k) h (by simp only [dirOfBit_bit])
  case remove | findFirst => exact decodeParam_of_fits h rfl
  all_goals rfl

/-- Settles O5: format by format. -/
theorem decodeEncodeAgree : Obligations.DecodeEncodeAgree := by
  intro c i h
  cases hf : encode i with
  | cmd p => exact decodeCmd_encode hf h
  | sdo b => exact congrArg Except.ok (decodeSdo_encode hf h)

end Sys2Proof
end

section
/-! PROOFS. The class of a request from the mask and match columns of R103, and words of the opcode table. -/

namespace Sys2Proof

/-- Two joined words agree exactly if their parts do. -/
theorem append_eq_append_iff {m n : Nat} {x x' : BitVec m} {y y' : BitVec n} :
    x ++ y = x' ++ y' ↔ x = x' ∧ y = y' := by
  refine ⟨fun h => ⟨?_, ?_⟩, fun ⟨hx, hy⟩ => hx ▸ hy ▸ rfl⟩
  · simpa only [BitVec.extractLsb'_append_eq_left] using congrArg (BitVec.extractLsb' n m) h
  · simpa only [BitVec.extractLsb'_append_eq_right] using congrArg (BitVec.extractLsb' 0 n) h

/-- Under a mask of `V` that covers bits of the index and of the command byte only, a match of `V` is one of the index and
one of the command byte (R93, R103). -/
theorem value_and_mask_eq_iff (b : Payload) (mi vi : BitVec 16) (mc vc : Byte) :
    b.value &&& (0#32 ++ (0#8 ++ mi ++ mc)) = 0#32 ++ (0#8 ++ vi ++ vc) ↔ b.index &&& mi = vi ∧ b.cmd &&& mc = vc := by
  conv_lhs => rw [← sdoPayload_fields b]
  simp only [sdoPayload, Payload.value]
  rw [BitVec.and_append, BitVec.and_append, BitVec.and_append, append_eq_append_iff, append_eq_append_iff,
    append_eq_append_iff]
  simp

/-- Under a mask of its upper bits a word matches exactly if its number has those upper bits. -/
theorem and_upper_eq_iff {m n : Nat} (x : BitVec (m + n)) (v : BitVec m) :
    x &&& (BitVec.allOnes m ++ 0#n) = v ++ 0#n ↔ x.toNat / 2 ^ n = v.toNat := by
  have hx : x.extractLsb' n m ++ x.extractLsb' 0 n = x :=
    (BitVec.extractLsb'_append_extractLsb'_eq_extractLsb' (by omega)).trans BitVec.extractLsb'_eq_self
  have hdiv : (x.extractLsb' n m).toNat = x.toNat / 2 ^ n := by
    rw [toNat_extract_eq_mod]
    refine Nat.mod_eq_of_lt (Nat.div_lt_of_lt_mul ?_)
    rw [← Nat.pow_add, Nat.add_comm n m]
    exact x.isLt
  conv_lhs => rw [← hx, BitVec.and_append, append_eq_append_iff, BitVec.and_allOnes, BitVec.and_zero]
  rw [← hdiv, BitVec.toNat_inj, and_iff_left rfl]

/-- The mask of the send mapping indices (R97). -/
theorem index_mapTx_iff (i : BitVec 16) :
    i &&& 0xF000#16 = 0x3000#16 ↔ 0x3000 ≤ i.toNat ∧ i.toNat ≤ 0x3FFF := by
  refine (and_upper_eq_iff (m := 4) (n := 12) i 0x3#4).trans ?_
  rw [BitVec.toNat_ofNat]
  omega

/-- The mask of the receive mapping indices (R97). -/
theorem index_mapRx_iff (i : BitVec 16) :
    i &&& 0xF800#16 = 0x4000#16 ↔ 0x4000 ≤ i.toNat ∧ i.toNat ≤ 0x47FF := by
  refine (and_upper_eq_iff (m := 5) (n := 11) i 0x8#5).trans ?_
  rw [BitVec.toNat_ofNat]
  omega

/-- The mask of the parameter indices (R97). -/
theorem index_prm_iff (i : BitVec 16) : i &&& 0xFFFE#16 = 0x2000#16 ↔ i = 0x2000#16 ∨ i = 0x2001#16 := by
  refine (and_upper_eq_iff (m := 15) (n := 1) i 0x1000#15).trans ?_
  rw [← BitVec.toNat_inj, ← BitVec.toNat_inj, BitVec.toNat_ofNat, BitVec.toNat_ofNat, BitVec.toNat_ofNat]
  omega

/-- A row of R103 fits a request: `V & mask = match`, and SUBOK. -/
def rowFits (c : Cfg) (b : Payload) (mask value : BitVec 64) : Bool := (b.value &&& mask) == value && subOk c b.sub

section
variable {c : Cfg} {b : Payload}

/-- A row fits exactly if its masks of the index and of the command byte do, and SUBOK holds. -/
theorem rowFits_iff {mi vi : BitVec 16} {mc vc : Byte} {P Q : Prop} (hi : b.index &&& mi = vi ↔ P)
    (hc : b.cmd &&& mc = vc ↔ Q) :
    rowFits c b (0#32 ++ (0#8 ++ mi ++ mc)) (0#32 ++ (0#8 ++ vi ++ vc)) = true ↔ subOk c b.sub = true ∧ P ∧ Q := by
  rw [rowFits, Bool.and_eq_true, beq_iff_eq, value_and_mask_eq_iff, hi, hc, and_comm]

/-- A mask of all bits fits one word. -/
theorem and_allOnes_eq_iff {n : Nat} (x v : BitVec n) : x &&& BitVec.allOnes n = v ↔ x = v := by
  rw [BitVec.and_allOnes]

/-- A mask of no bits fits every word. -/
theorem and_zero_eq_iff {n : Nat} (x : BitVec n) : x &&& 0#n = 0#n ↔ True := by
  rw [BitVec.and_zero, eq_self_iff_true]

/-- Row 1 fits exactly the requests of its class. -/
theorem rowFits_prmWr : rowFits c b 0x0000000000FFFFFF 0x0000000000200040 = true ↔ SdoClass.prmWr.Fits c b :=
  rowFits_iff (and_allOnes_eq_iff _ 0x2000#16) (and_allOnes_eq_iff _ 0x40#8)

/-- Row 2 fits exactly the requests of its class. -/
theorem rowFits_prmRd : rowFits c b 0x0000000000FFFFFF 0x0000000000200022 = true ↔ SdoClass.prmRd.Fits c b :=
  rowFits_iff (and_allOnes_eq_iff _ 0x2000#16) (and_allOnes_eq_iff _ 0x22#8)

/-- Row 3 fits exactly the requests of its class. -/
theorem rowFits_pidWr : rowFits c b 0x0000000000FFFFFF 0x0000000000200140 = true ↔ SdoClass.pidWr.Fits c b :=
  rowFits_iff (and_allOnes_eq_iff _ 0x2001#16) (and_allOnes_eq_iff _ 0x40#8)

/-- Row 4 fits exactly the requests of its class. -/
theorem rowFits_pidRd : rowFits c b 0x0000000000FFFFFF 0x0000000000200122 = true ↔ SdoClass.pidRd.Fits c b :=
  rowFits_iff (and_allOnes_eq_iff _ 0x2001#16) (and_allOnes_eq_iff _ 0x22#8)

/-- Row 5 fits exactly the requests of its class. -/
theorem rowFits_mapTx : rowFits c b 0x0000000000F000FF 0x0000000000300040 = true ↔ SdoClass.mapTx.Fits c b :=
  rowFits_iff (index_mapTx_iff _) (and_allOnes_eq_iff _ 0x40#8)

/-- Row 6 fits exactly the requests of its class. -/
theorem rowFits_mapRx : rowFits c b 0x0000000000F800FF 0x0000000000400040 = true ↔ SdoClass.mapRx.Fits c b :=
  rowFits_iff (index_mapRx_iff _) (and_allOnes_eq_iff _ 0x40#8)

/-- The first pattern of row 7 fits the parameter indices, under SUBOK. -/
theorem rowFits_echoPrm : rowFits c b 0x0000000000FFFE00 0x0000000000200000 = true ↔
    subOk c b.sub = true ∧ (b.index = 0x2000#16 ∨ b.index = 0x2001#16) ∧ True :=
  rowFits_iff (index_prm_iff _) (and_zero_eq_iff _)

/-- The second pattern of row 7 fits the send mapping indices, under SUBOK. -/
theorem rowFits_echoMapTx : rowFits c b 0x0000000000F00000 0x0000000000300000 = true ↔
    subOk c b.sub = true ∧ (0x3000 ≤ b.index.toNat ∧ b.index.toNat ≤ 0x3FFF) ∧ True :=
  rowFits_iff (index_mapTx_iff _) (and_zero_eq_iff _)

/-- The third pattern of row 7 fits the receive mapping indices, under SUBOK. -/
theorem rowFits_echoMapRx : rowFits c b 0x0000000000F80000 0x0000000000400000 = true ↔
    subOk c b.sub = true ∧ (0x4000 ≤ b.index.toNat ∧ b.index.toNat ≤ 0x47FF) ∧ True :=
  rowFits_iff (index_mapRx_iff _) (and_zero_eq_iff _)

end

/-- Settles O7: where a row fits and none before it does, the request meets the condition of the row's class. -/
theorem classIsFirstMatchingRow : Obligations.ClassIsFirstMatchingRow := by
  intro c b fits
  split_ifs with h1 h2 h3 h4 h5 h6 h7 h8 h9
  · exact sdoClass_of_fits (rowFits_prmWr.mp h1)
  · exact sdoClass_of_fits (rowFits_prmRd.mp h2)
  · exact sdoClass_of_fits (rowFits_pidWr.mp h3)
  · exact sdoClass_of_fits (rowFits_pidRd.mp h4)
  · exact sdoClass_of_fits (rowFits_mapTx.mp h5)
  · exact sdoClass_of_fits (rowFits_mapRx.mp h6)
  · obtain ⟨hsub, hi, -⟩ := rowFits_echoPrm.mp h7
    refine sdoClass_of_fits ⟨hsub, fun hcmd => ?_, .inl ⟨hi, fun hcmd => ?_⟩⟩
    · exact hi.elim (fun hi => h1 (rowFits_prmWr.mpr ⟨hsub, hi, hcmd⟩))
        fun hi => h3 (rowFits_pidWr.mpr ⟨hsub, hi, hcmd⟩)
    · exact hi.elim (fun hi => h2 (rowFits_prmRd.mpr ⟨hsub, hi, hcmd⟩))
        fun hi => h4 (rowFits_pidRd.mpr ⟨hsub, hi, hcmd⟩)
  · obtain ⟨hsub, hi, -⟩ := rowFits_echoMapTx.mp h8
    exact sdoClass_of_fits ⟨hsub, fun hcmd => h5 (rowFits_mapTx.mpr ⟨hsub, hi, hcmd⟩), .inr (by omega)⟩
  · obtain ⟨hsub, hi, -⟩ := rowFits_echoMapRx.mp h9
    exact sdoClass_of_fits ⟨hsub, fun hcmd => h6 (rowFits_mapRx.mpr ⟨hsub, hi, hcmd⟩), .inr (by omega)⟩
  · refine sdoClass_of_fits (k := .invIdx) (Bool.eq_false_iff.mpr fun h => ?_)
    obtain ⟨hobj, hsub⟩ := Bool.and_eq_true_iff.mp h
    rcases objectIndex_iff.mp hobj with hi | hi | hi
    · exact h7 (rowFits_echoPrm.mpr ⟨hsub, hi, trivial⟩)
    · exact h8 (rowFits_echoMapTx.mpr ⟨hsub, hi, trivial⟩)
    · exact h9 (rowFits_echoMapRx.mpr ⟨hsub, hi, trivial⟩)

/-- Settles O4: the decoder runs on each word. -/
theorem tableWordsDecode : Obligations.TableWordsDecode := ⟨rfl, rfl, rfl, rfl, rfl⟩

end Sys2Proof
end

section
/-! PROOFS. Where a scaled integer is a binary32 number, the conversion to it is exact (R101, R180). -/

namespace Sys2Proof.Machine

/-! ## The fields of a value made of sign and magnitude -/

/-- The number of a bit pattern made of a sign and a magnitude. -/
theorem f32OfMag_toNat {neg : Bool} {mag : Nat} (h : mag < 2 ^ 31) :
    (f32OfMag neg mag).toNat = if neg then mag + 2 ^ 31 else mag := by
  rw [f32OfMag, BitVec.toNat_ofNat, Nat.mod_eq_of_lt]
  split <;> omega

/-- The sign of a value made of sign and magnitude. -/
theorem f32Neg_f32OfMag (neg : Bool) {mag : Nat} (h : mag < 2 ^ 31) : f32Neg (f32OfMag neg mag) = neg := by
  rw [f32Neg, ← BitVec.msb_eq_getLsbD_last (f32OfMag neg mag), BitVec.msb_eq_decide, f32OfMag_toNat h]
  cases neg
  · simpa using h
  · simp

/-- The exponent field of a value made of sign and magnitude. -/
theorem f32Exp_f32OfMag (neg : Bool) {mag : Nat} (h : mag < 2 ^ 31) : f32Exp (f32OfMag neg mag) = mag / 2 ^ 23 := by
  rw [f32Exp, toNat_extract_eq_mod, f32OfMag_toNat h]
  split <;> omega

/-- The fraction field of a value made of sign and magnitude. -/
theorem f32Frac_f32OfMag (neg : Bool) {mag : Nat} (h : mag < 2 ^ 31) : f32Frac (f32OfMag neg mag) = mag % 2 ^ 23 := by
  rw [f32Frac, toNat_extract_eq_mod, f32OfMag_toNat h]
  split <;> omega

/-- The value of a normal number from its significand and its scale. -/
theorem f32Value_normal (neg : Bool) {n e : Nat} (hlo : 2 ^ 23 ≤ n) (hhi : n < 2 ^ 24) (he : e < 254) :
    f32Value (f32OfMag neg (n + e * 2 ^ 23)) = (if neg then -1 else 1) * (n : ℚ) * 2 ^ ((e : Int) - 149) := by
  have hmag : n + e * 2 ^ 23 < 2 ^ 31 := by omega
  have hexp : f32Exp (f32OfMag neg (n + e * 2 ^ 23)) = e + 1 := by
    rw [f32Exp_f32OfMag neg hmag]
    omega
  have hfrac : f32Frac (f32OfMag neg (n + e * 2 ^ 23)) = n - 2 ^ 23 := by
    rw [f32Frac_f32OfMag neg hmag]
    omega
  have hsig : f32Sig (f32OfMag neg (n + e * 2 ^ 23)) = n := by
    rw [f32Sig, hexp, hfrac, if_neg (Nat.succ_ne_zero e), Nat.sub_add_cancel hlo]
  have hscale : f32Scale (f32OfMag neg (n + e * 2 ^ 23)) = (e : Int) - 149 := by
    rw [f32Scale, hexp, if_neg (Nat.succ_ne_zero e)]
    omega
  rw [f32Value, f32Neg_f32OfMag neg hmag, hsig, hscale]

/-- The value of zero. -/
theorem f32Value_zero (neg : Bool) : f32Value (f32OfMag neg 0) = 0 := by
  have hsig : f32Sig (f32OfMag neg 0) = 0 := by
    rw [f32Sig, f32Exp_f32OfMag neg (by decide), f32Frac_f32OfMag neg (by decide)]
    rfl
  rw [f32Value, hsig, Nat.cast_zero, mul_zero, zero_mul]

/-! ## Exact conversion -/

/-- Shifting a number of at most 24 bits up makes it a significand. -/
theorem significand_bounds {m : Nat} (hm : m ≠ 0) (hbits : m < 2 ^ 24) :
    2 ^ 23 ≤ m * 2 ^ (23 - m.log2) ∧ m * 2 ^ (23 - m.log2) < 2 ^ 24 := by
  have hlog : m.log2 < 24 := (Nat.log2_lt hm).mpr hbits
  constructor
  · calc 2 ^ 23 = 2 ^ m.log2 * 2 ^ (23 - m.log2) := by rw [← Nat.pow_add, Nat.add_sub_cancel' (by omega)]
      _ ≤ m * 2 ^ (23 - m.log2) := Nat.mul_le_mul_right _ (Nat.log2_self_le hm)
  · calc m * 2 ^ (23 - m.log2) < 2 ^ (m.log2 + 1) * 2 ^ (23 - m.log2) :=
          Nat.mul_lt_mul_of_pos_right Nat.lt_log2_self (Nat.two_pow_pos _)
      _ = 2 ^ 24 := by rw [← Nat.pow_add, show m.log2 + 1 + (23 - m.log2) = 24 by omega]

/-- A number of at most 24 bits, at a scale inside the range of normal numbers, is shifted up and not rounded. -/
theorem f32RoundMag_exact {m : Nat} {e : Int} (hm : m ≠ 0) (hbits : m < 2 ^ 24) (hlo : -126 ≤ e) (hhi : e ≤ 104) :
    f32RoundMag m e = m * 2 ^ (23 - m.log2) + (m.log2 + e + 126).toNat * 2 ^ 23 := by
  have hlog : m.log2 < 24 := (Nat.log2_lt hm).mpr hbits
  obtain ⟨-, hsig⟩ := significand_bounds hm hbits
  have hq : max ((m.log2 : Int) + e - 23) (-149) = m.log2 + e - 23 := max_eq_left (by omega)
  have hshift : (e - ((m.log2 : Int) + e - 23)).toNat = 23 - m.log2 := by omega
  have hexp : ((m.log2 : Int) + e - 23 + 149).toNat = (m.log2 + e + 126).toNat := by omega
  rw [f32RoundMag, if_neg hm]
  simp only [hq, hshift, hexp]
  rw [if_pos (by omega), Nat.min_eq_left (by omega)]

/-- An integer of at most 24 bits, at a scale inside the range of normal numbers, converts exactly (R180). -/
theorem f32Value_f32OfScaled {k e : Int} (hbits : k.natAbs < 2 ^ 24) (hlo : -126 ≤ e) (hhi : e ≤ 104) :
    f32Value (f32OfScaled k e) = k * 2 ^ e := by
  by_cases hk : k = 0
  · subst hk
    simpa [f32OfScaled, f32RoundMag] using f32Value_zero false
  have hm : k.natAbs ≠ 0 := Int.natAbs_ne_zero.mpr hk
  have hlog : k.natAbs.log2 < 24 := (Nat.log2_lt hm).mpr hbits
  obtain ⟨hsig, hsig'⟩ := significand_bounds hm hbits
  have hscale : (2 : ℚ) ^ (23 - k.natAbs.log2) *
      2 ^ ((((k.natAbs.log2 + e + 126).toNat : Nat) : Int) - 149) = 2 ^ e := by
    rw [← zpow_natCast, ← zpow_add₀ two_ne_zero]
    congr 1
    omega
  have hsign : (if decide (k < 0) then -1 else 1) * (k.natAbs : ℚ) = k := by
    rw [Nat.cast_natAbs]
    rcases lt_or_ge k 0 with h | h
    · simp [h, abs_of_neg h]
    · simp [Int.not_lt.mpr h, abs_of_nonneg h]
  rw [f32OfScaled, f32RoundMag_exact hm hbits hlo hhi, f32Value_normal _ hsig hsig' (by omega), Nat.cast_mul, Nat.cast_pow,
    ← mul_assoc, hsign, mul_assoc]
  exact congrArg _ hscale

/-- A 16-bit raw gain has at most 24 bits. -/
theorem rawGain_natAbs_lt (signed : Bool) (raw : BitVec 16) :
    (if signed then raw.toInt else (raw.toNat : Int)).natAbs < 2 ^ 24 := by
  have := raw.isLt
  have := raw.toInt_lt
  have := raw.le_toInt
  split <;> omega

/-- Settles O42: the raw gain and its scale are inside the range of exact conversion. -/
theorem gainConversionExact : Obligations.GainConversionExact := by
  intro c raw hfrac
  rw [gainOf, f32Value_f32OfScaled (rawGain_natAbs_lt _ _) (by omega) (by omega), zpow_neg, zpow_natCast, div_eq_mul_inv]
  cases c.gainSigned <;> rfl

end Sys2Proof.Machine
end

section
/-! PROOFS. What ADD leaves of the tables, binding by binding (R155, R159): the message of the identifier shows the new
binding after its old ones, every other message is as before. -/

namespace Sys2Proof.Machine

/-! ## When ADD finds room -/

/-- An entry can take the identifier exactly if FIND_ENTRY or FREE_ENTRY finds one (R150, R151). -/
theorem entryAvailable_iff {t : Tables} {d : Dir} {id : Ident} :
    EntryAvailable t d id ↔ (findEntry t d id).isSome = true ∨ (freeEntry t d).isSome = true := by
  simp [EntryAvailable, findEntry, freeEntry, List.findIdx?_isSome]

/-- A slot is free exactly if FREE_SLOT finds one (R152). -/
theorem slotAvailable_iff {t : Tables} : SlotAvailable t ↔ (freeSlot t).isSome = true := by
  simp [SlotAvailable, freeSlot, List.findIdx?_isSome]

/-- With an entry and a slot to be had the binding is linked (R155). -/
theorem linkBinding_of_available {t : Tables} {d : Dir} {id : Ident} (b : Slot) (he : EntryAvailable t d id)
    (hs : SlotAvailable t) : ∃ u, linkBinding t d id b = .ok u := by
  obtain ⟨j, hj⟩ := Option.isSome_iff_exists.mp (slotAvailable_iff.mp hs)
  rw [entryAvailable_iff] at he
  unfold linkBinding
  cases hf : findEntry t d id with
  | some e => cases ht : tailOf t d e <;> simp [hj, ht]
  | none =>
    obtain ⟨e, hfree⟩ := Option.isSome_iff_exists.mp (he.resolve_left (by simp [hf]))
    simp [hj, hfree]

/-- With no entry or no slot to be had nothing is linked, and the error is one of capacity (R155). -/
theorem linkBinding_of_not_available {t : Tables} {d : Dir} {id : Ident} (b : Slot)
    (h : ¬ EntryAvailable t d id ∨ ¬ SlotAvailable t) :
    linkBinding t d id b = .error .maxMessages ∨ linkBinding t d id b = .error .maxItems := by
  rw [entryAvailable_iff, slotAvailable_iff] at h
  unfold linkBinding
  cases hslot : freeSlot t with
  | none =>
    cases findEntry t d id with
    | some e => exact .inr rfl
    | none => cases freeEntry t d <;> simp
  | some j =>
    have hnone : findEntry t d id = none ∧ freeEntry t d = none := by simpa [hslot] using h
    simp [hnone]

/-! ## The tables with a binding added -/

/-- The tables `u` are `t` with slot `j` holding the binding `b` at the end of the chain of entry `tab[d][i]`, which is that
of the identifier and was so before, unless it had no slots. -/
structure BindingAdded (c : Cfg) (t u : Tables) (d : Dir) (i j : Nat) (id : Ident) (b : Slot) : Prop where
  lt : i < c.maxMessages
  chains : ∀ d', ∀ i' < c.maxMessages, chainOf u d' i' = withChain (chainOf t) d i (chainOf t d i ++ [j]) d' i'
  fresh : ∀ d', ∀ i' < c.maxMessages, j ∉ chainOf t d' i'
  newId : (entryAt u d i).id = id
  oldId : (entryAt t d i).id = id ∨ chainOf t d i = []
  ids : ∀ d' i', ¬ (d' = d ∧ i' = i) → (entryAt u d' i').id = (entryAt t d' i').id
  newSlot : { slotAt u j with next := Link.freeMark } = { b with next := .freeMark }
  slots : ∀ k, k ≠ j → { slotAt u k with next := Link.freeMark } = { slotAt t k with next := .freeMark }

/-- A free slot stands in no chain. -/
theorem notMem_chainOf_of_free {t : Tables} {j : Nat} (d : Dir) (i : Nat) (h : slotUsed (slotAt t j) = false) :
    j ∉ chainOf t d i := fun hj => by simp [(chain_visits j hj).2] at h

/-- The binding behind the tail of an entry that has the identifier. -/
theorem bindingAdded_append {c : Cfg} {t : Tables} {d : Dir} {i j q : Nat} {id : Ident} {b : Slot}
    (hs : tablesSound c t = true) (hfind : findEntry t d id = some i) (hslot : freeSlot t = some j)
    (htail : tailOf t d i = some q) (hb : b.next = .endMark) :
    BindingAdded c t (putNext (putSlot t j b) q (.slot j)) d i j id b := by
  have hC := chainsAre_of_sound hs
  have hlen := entriesOf_length_of_sound hs
  obtain ⟨hi, -, hid⟩ := findEntry_some hfind
  obtain ⟨hj, hfree⟩ := freeSlot_some hslot
  obtain ⟨ks, hks⟩ := List.getLast?_eq_some_iff.mp htail
  have hedit := chainEdit_append hC hi hj hfree hb hks
  have hentries (d' : Dir) : entriesOf (putNext (putSlot t j b) q (.slot j)) d' = entriesOf t d' := by simp
  have hqj : q ≠ j := by
    rintro rfl
    exact notMem_chainOf_of_free d i hfree (by rw [chainOf, hks]; simp)
  refine ⟨hlen d ▸ hi, fun d' i' hi' => (hedit.chainsAre hC hi).chainOf_eq ?_,
    fun d' i' _ => notMem_chainOf_of_free d' i' hfree, ?_, .inl hid, fun d' i' _ => ?_, ?_, fun k hk => ?_⟩
  · rwa [hentries, hlen]
  · rwa [entryAt_of_entries (hentries d)]
  · rw [entryAt_of_entries (hentries d')]
  · simp [slotAt_putNext, slotAt_putSlot, hqj.symm, hj]
  · rw [slotAt_putNext]
    split
    · rename_i hkq
      obtain ⟨rfl, -⟩ := hkq
      rw [slotAt_putSlot, if_neg fun h => hqj h.1]
    · rw [slotAt_putSlot, if_neg fun h => hk h.1]

/-- The binding in a new entry. -/
theorem bindingAdded_new {c : Cfg} {t : Tables} {d : Dir} {i j : Nat} {id : Ident} {b : Slot}
    (hs : tablesSound c t = true) (hentry : freeEntry t d = some i) (hslot : freeSlot t = some j)
    (hb : b.next = .endMark) :
    BindingAdded c t (putEntry (putSlot t j b) d i { id := id, head := .slot j }) d i j id b := by
  have hC := chainsAre_of_sound hs
  have hlen := entriesOf_length_of_sound hs
  obtain ⟨hi, hunused⟩ := freeEntry_some hentry
  obtain ⟨hj, hfree⟩ := freeSlot_some hslot
  have hnil : chainOf t d i = [] := chainOf_eq_nil hunused
  have hedit := chainEdit_new (id := id) hC hi hunused hj hfree hb
  have hslots (k : Nat) : slotAt (putEntry (putSlot t j b) d i { id := id, head := .slot j }) k =
      slotAt (putSlot t j b) k := slotAt_of_pool (putEntry_pool _ _ _ _) k
  refine ⟨hlen d ▸ hi, fun d' i' hi' => ?_, fun d' i' _ => notMem_chainOf_of_free d' i' hfree,
    ?_, .inr hnil, fun d' i' hne => ?_, ?_, fun k hk => ?_⟩
  · rw [hnil, List.nil_append]
    refine (hedit.chainsAre hC hi).chainOf_eq ?_
    rwa [hedit.entries, hlen]
  · rw [entryAt_putEntry, if_pos ⟨rfl, rfl, by simpa using hi⟩]
  · rw [entryAt_putEntry, if_neg fun h => hne ⟨h.1, h.2.1⟩, entryAt_of_entries (entriesOf_putSlot t j b d')]
  · rw [hslots, slotAt_putSlot, if_pos ⟨rfl, hj⟩]
  · rw [hslots, slotAt_putSlot, if_neg fun h => hk h.1]

/-- ADD's writes add the binding to an entry of the identifier (R155). -/
theorem linkBinding_added {c : Cfg} {t u : Tables} {d : Dir} {id : Ident} {b : Slot} (hs : tablesSound c t = true)
    (hb : b.next = .endMark) (h : linkBinding t d id b = .ok u) : ∃ i j, BindingAdded c t u d i j id b := by
  obtain ⟨i, j, hslot, ⟨hfind, q, htail, rfl⟩ | ⟨-, hentry, rfl⟩⟩ := linkBinding_ok hs h
  · exact ⟨i, j, bindingAdded_append hs hfind hslot htail hb⟩
  · exact ⟨i, j, bindingAdded_new hs hentry hslot hb⟩

/-! ## The bindings shown, message by message -/

/-- The bindings of entry `tab[d][i]` that are shown for an identifier. -/
def shownFor (t : Tables) (d : Dir) (id : Ident) (i : Nat) : List (Dir × Ident × Nat × Byte × Byte × F32 × Word) :=
  if (entryAt t d i).id = id then shownOf t d i else []

/-- Of what is shown of one entry, what belongs to a message. -/
theorem filter_shownOf (t : Tables) (d d' : Dir) (id : Ident) (i : Nat) :
    ((shownOf t d' i).filter fun x => x.1 == d && x.2.1 == id) = if d' = d then shownFor t d id i else [] := by
  have hall (x) (hx : x ∈ shownOf t d' i) : x.1 = d' ∧ x.2.1 = (entryAt t d' i).id := by
    obtain ⟨j, -, rfl⟩ := List.mem_map.mp hx
    exact ⟨rfl, rfl⟩
  split
  · rename_i hd
    subst hd
    rw [shownFor]
    split
    · rename_i hid
      exact List.filter_eq_self.mpr fun x hx => by simp [hall x hx, hid]
    · rename_i hid
      exact List.filter_eq_nil_iff.mpr fun x hx => by simp [hall x hx, hid]
  · rename_i hd
    exact List.filter_eq_nil_iff.mpr fun x hx => by simp [hall x hx, hd]

/-- What is shown of a message, entry by entry (R159). -/
theorem shownMessage_eq_shownFor {c : Cfg} {t : Tables} (hs : tablesSound c t = true) (d : Dir) (id : Ident) :
    shownMessage t d id = (List.range c.maxMessages).flatMap (shownFor t d id) := by
  rw [shownMessage, shownTable_eq_shownOf hs, List.filter_append, List.filter_flatMap, List.filter_flatMap]
  simp only [filter_shownOf]
  cases d <;> simp

/-- A list joined from parts of which one alone is not empty is that part. -/
theorem flatMap_eq_of_unique {α β : Type} {f : α → List β} {l : List α} {a : α} (hnd : l.Nodup) (ha : a ∈ l)
    (h : ∀ x ∈ l, x ≠ a → f x = []) : l.flatMap f = f a := by
  obtain ⟨as, bs, rfl⟩ := List.append_of_mem ha
  have hout := (List.nodup_middle.mp hnd).notMem
  have hnil {xs : List α} (hxs : xs ⊆ as ++ bs) : xs.flatMap f = [] :=
    List.flatMap_eq_nil_iff.mpr fun x hx => h x (List.perm_middle.mem_iff.mpr (.tail _ (hxs hx)))
      fun e => hout (e ▸ hxs hx)
  rw [List.flatMap_append, List.flatMap_cons, hnil (List.subset_append_left _ _), hnil (List.subset_append_right _ _),
    List.nil_append, List.append_nil]

section
variable {c : Cfg} {t u : Tables} {d : Dir} {i j : Nat} {id : Ident} {b : Slot}

/-- Another entry shows what it did. -/
theorem BindingAdded.shownFor_other (h : BindingAdded c t u d i j id b) {d' : Dir} {i' : Nat} (id' : Ident)
    (hi' : i' < c.maxMessages) (hne : ¬ (d' = d ∧ i' = i)) : shownFor u d' id' i' = shownFor t d' id' i' := by
  have hchain : chainOf u d' i' = chainOf t d' i' := (h.chains d' i' hi').trans (withChain_other _ _ hne)
  have hshown (id : Ident) : (chainOf t d' i').map (fun k => shown (d', id, slotAt u k)) =
      (chainOf t d' i').map fun k => shown (d', id, slotAt t k) :=
    List.map_congr_left fun k hk => shown_of_fields (h.slots k fun e => h.fresh d' i' hi' (e ▸ hk))
  rw [shownFor, shownFor, shownOf, shownOf, hchain, h.ids d' i' hne, hshown]

/-- The entry shows the new binding after its old ones, under the identifier. -/
theorem BindingAdded.shownFor_same (h : BindingAdded c t u d i j id b) :
    shownFor u d id i = shownFor t d id i ++ [shown (d, id, b)] := by
  have hold : shownFor t d id i = (chainOf t d i).map fun k => shown (d, id, slotAt t k) := by
    rw [shownFor, shownOf]
    rcases h.oldId with hid | hnil
    · rw [if_pos hid, hid]
    · rw [hnil, List.map_nil, List.map_nil, ite_self]
  rw [hold, shownFor, if_pos h.newId, shownOf, h.chains d i h.lt, withChain_same, List.map_append, h.newId]
  refine congrArg₂ _ (List.map_congr_left fun k hk => shown_of_fields (h.slots k ?_))
    (congrArg (fun x => [x]) (shown_of_fields h.newSlot))
  rintro rfl
  exact h.fresh d i h.lt hk

/-- The entry shows nothing under another identifier, before and after. -/
theorem BindingAdded.shownFor_other_id (h : BindingAdded c t u d i j id b) {id' : Ident} (hne : id' ≠ id) :
    shownFor u d id' i = shownFor t d id' i := by
  rw [shownFor, shownFor, if_neg (h.newId ▸ hne.symm)]
  rcases h.oldId with hid | hnil
  · rw [if_neg (hid ▸ hne.symm)]
  · rw [shownOf, hnil, List.map_nil, ite_self]

/-- No other entry of the direction shows the identifier (INV1). -/
theorem BindingAdded.shownFor_eq_nil (h : BindingAdded c t u d i j id b) (hu : tablesSound c u = true) {i' : Nat}
    (hi' : i' < c.maxMessages) (hne : i' ≠ i) : shownFor u d id i' = [] := by
  obtain ⟨hlen, -, hids, -, -⟩ := tablesSound_iff_chains.mp hu
  have hused : entryUsed (entryAt u d i) = true := by
    by_contra hunused
    have hnil := chainOf_eq_nil (Bool.eq_false_iff.mpr hunused)
    rw [h.chains d i h.lt, withChain_same] at hnil
    simp at hnil
  rw [shownFor, shownOf]
  by_cases hused' : entryUsed (entryAt u d i') = true
  · rw [if_neg]
    exact fun hid => hne (hids d i' (hlen d ▸ hi') i (hlen d ▸ h.lt) hused' hused (hid.trans h.newId.symm))
  · rw [chainOf_eq_nil (Bool.eq_false_iff.mpr hused'), List.map_nil, ite_self]

/-- The message of the identifier shows the new binding after its old ones, every other message is as before. -/
theorem BindingAdded.shownMessage_eq (h : BindingAdded c t u d i j id b) (ht : tablesSound c t = true)
    (hu : tablesSound c u = true) (d' : Dir) (id' : Ident) :
    shownMessage u d' id' =
      if d' = d ∧ id' = id then shownMessage t d id ++ [shown (d, id, b)] else shownMessage t d' id' := by
  rw [shownMessage_eq_shownFor hu, shownMessage_eq_shownFor ht, shownMessage_eq_shownFor ht]
  split
  · rename_i hm
    obtain ⟨rfl, rfl⟩ := hm
    have hnil (k) (hk : k ∈ List.range c.maxMessages) (hne : k ≠ i) := h.shownFor_eq_nil hu (List.mem_range.mp hk) hne
    rw [flatMap_eq_of_unique List.nodup_range (List.mem_range.mpr h.lt) hnil,
      flatMap_eq_of_unique List.nodup_range (List.mem_range.mpr h.lt) fun k hk hne => ?_, h.shownFor_same]
    rw [← h.shownFor_other _ (List.mem_range.mp hk) fun e => hne e.2, hnil k hk hne]
  · rename_i hm
    refine List.flatMap_congr fun k hk => ?_
    by_cases hki : d' = d ∧ k = i
    · obtain ⟨rfl, rfl⟩ := hki
      exact h.shownFor_other_id fun e => hm ⟨rfl, e⟩
    · exact h.shownFor_other _ (List.mem_range.mp hk) hki

end

end Sys2Proof.Machine
end

section
/-! PROOFS. The mapping requests of the Remote Configuration Protocol: ADD with offset 0, and one reply (R98, R99, R206,
R207). -/

namespace Sys2Proof.Machine

/-! ## ADD inside a request -/

/-- ADD's transition where its checks pass and the binding is linked: the new tables, and the registration of a receive
identifier that is new and fits (R132, R155). -/
theorem addBinding_of_linked {d : Dir} {p : Nat} {id : Ident} {o w : Byte} {g : F32} {k : Word} {s : State} {t : Tables}
    (hid : id.toNat ≤ 0x1FFFFFFF) (ho : o.toNat ≤ 63) (hw : w.toNat ≤ 32)
    (ht : linkBinding s.tables d id (newBinding s.cfg p o w g k) = .ok t) :
    addBinding d p id o w g k s = .ok (usedCount t d,
      if d = .recv ∧ id ∉ s.ioi ∧ s.ioi.length < s.cfg.maxIoi then
        { s with tables := t, ioi := s.ioi ++ [id], filter := s.ioi ++ [id],
                 out := s.out ++ [.btConfigureFilter (s.ioi ++ [id])] }
      else { s with tables := t }) := by
  rw [addBinding, if_neg (by omega), if_neg (by omega), if_neg (by omega), ht]
  cases d with
  | send => rfl
  | recv =>
    simp only [addIdent_eq, State.setTables, true_and]
    split
    · rfl
    · rfl

/-- ADD's transition where the field does not fit, or there is no entry or no slot to be had: an error that becomes the one
abort code of R251. -/
theorem addBinding_error {d : Dir} {p : Nat} {id : Ident} {o w : Byte} {g : F32} {k : Word} {s : State}
    (hid : id.toNat ≤ 0x1FFFFFFF)
    (h : 63 < o.toNat ∨ 32 < w.toNat ∨ ¬ EntryAvailable s.tables d id ∨ ¬ SlotAvailable s.tables) :
    ∃ e, addBinding d p id o w g k s = .error e ∧ abortCode e = 0x06090030 := by
  rw [addBinding, if_neg (by omega)]
  by_cases ho : 63 < o.toNat
  · exact ⟨.invalidOffset, if_pos ho, rfl⟩
  rw [if_neg ho]
  by_cases hw : 32 < w.toNat
  · exact ⟨.invalidLength, if_pos hw, rfl⟩
  rw [if_neg hw]
  rcases linkBinding_of_not_available (newBinding s.cfg p o w g k) ((h.resolve_left ho).resolve_left hw) with hl | hl
  · exact ⟨.maxMessages, by rw [hl], rfl⟩
  · exact ⟨.maxItems, by rw [hl], rfl⟩

/-! ## Replies -/

/-- A write-reply is the request with the command byte replaced (R203). -/
theorem sdoWriteReply_eq (b : Payload) : sdoWriteReply b = sdoPayload 0x23 b.index b.sub b.data := memWrite_cmd b 0x23

/-- An abort is the request's index and sub-index with an abort code (R251). -/
theorem sdoAbort_eq (b : Payload) {e : ErrCode} {w : Word} (h : abortCode e = w.toNat) :
    sdoAbort e b = sdoPayload 0x80 b.index b.sub w := by
  have hcmd : memWrite b 0 1 0x80 = sdoPayload 0x80 b.index b.sub b.data := memWrite_cmd b 0x80
  rw [sdoAbort, h, hcmd, memWrite_data, sdoPayload_cmd, sdoPayload_index, sdoPayload_sub]

/-! ## Mapping requests -/

/-- The class of a direction's mapping requests (R206, R207). -/
def mappingClass : Dir → SdoClass
  | .send => .mapTx
  | .recv => .mapRx

/-- The class's action is ADD in its direction. -/
theorem sdoAct_mappingClass (d : Dir) : sdoAct (mappingClass d) = sdoMap d := by cases d <;> rfl

/-- A mapping request runs its class on its payload (R206, R207). -/
theorem exec_mappingRequest (d : Dir) (x : BitVec 1) (n : BitVec 11) (u o w : Byte) (g : BitVec 16) (s : State) :
    exec (mappingRequest d x n u o w g) s =
      sdoRun (mappingClass d) (requestPayload (mappingRequest d x n u o w g)) s := by cases d <;> rfl

/-- While the gate is open a mapping request is served. -/
theorem sdoBlocked_of_idle {s : State} (k : SdoClass) (h : s.busy = false) : sdoBlocked k s = false := by
  rw [sdoBlocked, h, Bool.and_false]

/-- The fields of a mapping request's payload are its operands (R98, R99). -/
theorem mappingRequest_fields (d : Dir) (x : BitVec 1) (n : BitVec 11) (u o w : Byte) (g : BitVec 16) :
    let b := requestPayload (mappingRequest d x n u o w g)
    b.sub = u ∧ b.mapIdent = n ∧ b.mapBitOff = o ∧ b.mapBitW = w ∧ b.mapGainRaw = g := by
  cases d <;> simp [requestPayload, mappingRequest, encode, Payload.mapIdent_eq_index]

section
variable {d : Dir} {n : BitVec 11} {u o w : Byte} {g : BitVec 16} {s : State}

/-- A mapping request whose ADD succeeds is answered by a write-reply (R206). -/
theorem sdoMap_of_ok (x : BitVec 1) {r : Nat × State}
    (h : addBinding d u.toNat (n.zeroExtend 32) o w (gainOf s.cfg g) 0 s = .ok r) :
    sdoMap d (requestPayload (mappingRequest d x n u o w g)) s =
      (sdoWriteReply (requestPayload (mappingRequest d x n u o w g)), r.2) := by
  obtain ⟨hu, hn, ho, hw, hg⟩ := mappingRequest_fields d x n u o w g
  rw [sdoMap, hu, hn, ho, hw, hg, h]

/-- A mapping request whose ADD fails is answered by an abort (R206). -/
theorem sdoMap_of_error (x : BitVec 1) {e : ErrCode}
    (h : addBinding d u.toNat (n.zeroExtend 32) o w (gainOf s.cfg g) 0 s = .error e) :
    sdoMap d (requestPayload (mappingRequest d x n u o w g)) s =
      (sdoAbort e (requestPayload (mappingRequest d x n u o w g)), s) := by
  obtain ⟨hu, hn, ho, hw, hg⟩ := mappingRequest_fields d x n u o w g
  rw [sdoMap, hu, hn, ho, hw, hg, h]

end

/-- An 11-bit identifier is one that ADD takes (R90, R98). -/
theorem ident11_le (n : BitVec 11) : (n.zeroExtend 32 : Ident).toNat ≤ 0x1FFFFFFF := by
  have := n.isLt
  rw [BitVec.toNat_setWidth]
  omega

/-- A request to a mapping object decodes to the mapping request of its fields (R98, R99, R103). -/
theorem decodeSdo_mapping {c : Cfg} {d : Dir} {b : Payload} (hcmd : b.cmd = 0x40) (hsub : b.sub.toNat < c.paramCount)
    (hsend : d = .send → 0x3000 ≤ b.index.toNat ∧ b.index.toNat ≤ 0x3FFF)
    (hrecv : d = .recv → 0x4000 ≤ b.index.toNat ∧ b.index.toNat ≤ 0x47FF) :
    decodeSdo c b = mappingRequest d (b.index.extractLsb' 11 1) (b.index.extractLsb' 0 11) b.sub b.mapBitOff b.mapBitW
      b.mapGainRaw := by
  have hok : subOk c b.sub = true := decide_eq_true hsub
  cases d with
  | send => exact decodeSdo_mapTx ⟨hok, hsend rfl, hcmd⟩
  | recv => exact decodeSdo_mapRx ⟨hok, hrecv rfl, hcmd⟩

/-- A mapping request whose binding is linked: the new tables, the registration of a receive identifier that is new and fits,
and the write-reply (R206, R207). -/
theorem exec_mappingRequest_linked {d : Dir} {x : BitVec 1} {n : BitVec 11} {u o w : Byte} {g : BitVec 16} {s : State}
    {t : Tables} (hs : Sound s) (hb : s.busy = false) (ho : o.toNat ≤ 63) (hw : w.toNat ≤ 32)
    (ht : linkBinding s.tables d (n.zeroExtend 32) (newBinding s.cfg u.toNat o w (gainOf s.cfg g) 0) = .ok t) :
    let id : Ident := n.zeroExtend 32
    let b := requestPayload (mappingRequest d x n u o w g)
    let done := sdoPayload 0x23 b.index b.sub b.data
    let sent : PortCall := .btSend (BitVec.ofNat 32 s.cfg.replyId) done.lo done.hi
    exec (mappingRequest d x n u o w g) s = .next
      (if d = .recv ∧ id ∉ s.ioi ∧ s.ioi.length < s.cfg.maxIoi then
        { s with tables := t, result := .buffer done, ioi := s.ioi ++ [id], filter := s.ioi ++ [id],
                 out := s.out ++ [.btConfigureFilter (s.ioi ++ [id]), sent] }
      else { s with tables := t, result := .buffer done, out := s.out ++ [sent] }) := by
  extract_lets id b done sent
  have hadd := addBinding_of_linked (ident11_le n) ho hw ht
  rw [exec_mappingRequest, sdoRun_of_not_blocked _ hs (sdoBlocked_of_idle _ hb), sdoServe, sdoAct_mappingClass,
    sdoMap_of_ok x hadd, sdoWriteReply_eq]
  refine congrArg Host.Outcome.next ?_
  split
  · simp only [btSend_eq, List.append_assoc]
    rfl
  · rfl

/-- A mapping request that ADD rejects: the abort and nothing else (R206, R207). -/
theorem exec_mappingRequest_rejected {d : Dir} {x : BitVec 1} {n : BitVec 11} {u o w : Byte} {g : BitVec 16} {s : State}
    (hs : Sound s) (hb : s.busy = false)
    (h : 63 < o.toNat ∨ 32 < w.toNat ∨ ¬ EntryAvailable s.tables d (n.zeroExtend 32) ∨ ¬ SlotAvailable s.tables) :
    let b := requestPayload (mappingRequest d x n u o w g)
    let abort := sdoPayload 0x80 b.index b.sub 0x06090030
    exec (mappingRequest d x n u o w g) s = .next
      { s with out := s.out ++ [.btSend (BitVec.ofNat 32 s.cfg.replyId) abort.lo abort.hi], result := .buffer abort } := by
  extract_lets b abort
  obtain ⟨e, he, hcode⟩ := addBinding_error (p := u.toNat) (g := gainOf s.cfg g) (k := 0) (ident11_le n) h
  rw [exec_mappingRequest, sdoRun_of_not_blocked _ hs (sdoBlocked_of_idle _ hb), sdoServe, sdoAct_mappingClass,
    sdoMap_of_error x he, sdoAbort_eq _ (w := 0x06090030) hcode]
  rfl

/-- Settles O48: a request decodes by its class, and ADD links the binding or rejects it. -/
theorem mappingRequestsInstallBinding : Obligations.MappingRequestsInstallBinding := by
  refine ⟨fun c d b => decodeSdo_mapping, fun d x n u o w g s hs hb => ?_⟩
  refine ⟨fun hsub hcount ho hw hentry hslot => ?_, fun _ => exec_mappingRequest_rejected hs hb⟩
  obtain ⟨t, ht⟩ := linkBinding_of_available (newBinding s.cfg u.toNat o w (gainOf s.cfg g) 0) hentry hslot
  obtain ⟨i, j, hadded⟩ := linkBinding_added hs rfl ht
  have hsound := linkBinding_sound hs (slotFits_newBinding s.cfg u.toNat (gainOf s.cfg g) 0 ho hw) rfl ht
  have hshown : shown (d, n.zeroExtend 32, newBinding s.cfg u.toNat o w (gainOf s.cfg g) 0) =
      (d, n.zeroExtend 32, u.toNat, o, w, gainOf s.cfg g, 0) := by
    rw [shown, newBinding, cutRef_of_lt (Nat.lt_of_lt_of_le hsub hcount)]
  refine ⟨_, exec_mappingRequest_linked hs hb ho hw ht, fun d' id' => ?_, ?_⟩
  · have hmsg := hadded.shownMessage_eq hs hsound d' id'
    rw [hshown] at hmsg
    split
    · exact hmsg
    · exact hmsg
  · split
    · rfl
    · rfl

end Sys2Proof.Machine
end

section
/-! PROOFS. The consumers and the acceptance list (R131 to R133): REGISTER, ADD_IOI, CLEAR_IOI, and the two operations that end
in registrations, CLEAR (R160) and LOAD (R234). -/

namespace Sys2Proof.Machine

/-! ## REGISTER and ADD_IOI -/

/-- Settles O14: the two cases of the capacity test. -/
theorem registerAppendsConsumer : Obligations.RegisterAppendsConsumer := by
  intro h s hs
  refine (whenSound_of_sound hs).trans ?_
  by_cases hroom : s.cons.length < s.cfg.maxConsumers
  · rw [if_neg (Nat.not_le.mpr hroom), if_pos hroom]
    rfl
  · rw [if_pos (Nat.le_of_not_lt hroom), if_neg hroom]
    rfl

/-- Settles O15: the two cases of `addIdent_eq`. -/
theorem addIoiAppendsIdentifier : Obligations.AddIoiAppendsIdentifier := by
  intro id s hs
  have e : exec (.addIoi id) s = finish (.bool (addIdent id s).1) (addIdent id s).2 := whenSound_of_sound hs
  rw [e, addIdent_eq]
  split
  · rfl
  · rfl

/-! ## Lists of registrations -/

/-- Distinct identifiers for which there is room are all appended, in order (R132). -/
theorem registered_of_nodup {m : Nat} {l ids : List Ident} (hnd : (l ++ ids).Nodup) (hfit : (l ++ ids).length ≤ m) :
    registered m l ids = l ++ ids := by
  induction ids generalizing l with
  | nil => exact (List.append_nil l).symm
  | cons id ids ih =>
    have hnew : id ∉ l := fun hmem => (List.nodup_append.mp hnd).2.2 id hmem id List.mem_cons_self rfl
    have hroom : l.length < m := by
      simp only [List.length_append, List.length_cons] at hfit
      omega
    rw [List.append_cons l id ids] at hnd hfit ⊢
    rw [registered, if_pos ⟨hnew, hroom⟩, ih hnd hfit]

/-- The calls of registrations continue the calls that give the filter every list on the way to the present one (R132). -/
theorem registrationCalls_inits (m : Nat) (l ids : List Ident) :
    l.inits.map PortCall.btConfigureFilter ++ registrationCalls m l ids =
      (registered m l ids).inits.map .btConfigureFilter := by
  induction ids generalizing l with
  | nil => exact List.append_nil _
  | cons id ids ih =>
    rw [registrationCalls, registered]
    split
    · rw [← ih, List.inits_append]
      simp
    · exact ih l

/-! ## Notification -/

/-- Notifying the consumers of a list is notifying one after another (R133). -/
theorem notifyCleared_eq (cs : List Consumer) (s : State) : notifyCleared cs s = cs.foldl notified s := by
  induction cs generalizing s with
  | nil => rfl
  | cons c cs ih =>
    cases c with
    | mapping =>
      rw [notifyCleared, ih, mapCleared, addIdents_eq]
      rfl
    | ext n =>
      rw [notifyCleared, ih, extCleared_notified]
      rfl

/-- Notification keeps the acceptance list's invariant. -/
theorem notifyCleared_acceptance (cs : List Consumer) {s : State} (h : AcceptanceOk s) :
    AcceptanceOk (notifyCleared cs s) := by
  induction cs generalizing s with
  | nil => exact h
  | cons c cs ih =>
    cases c with
    | mapping => exact ih (addIdents_acceptance _ s h)
    | ext n => exact ih (extCleared_acceptance n s h)

/-- Notification of consumers that are not external writes nothing outside the block and takes no draw. -/
theorem foldl_notified_inside {cs : List Consumer} (s : State) (h : ∀ n, Consumer.ext n ∉ cs) :
    (cs.foldl notified s).store = s.store ∧ (cs.foldl notified s).flash = s.flash ∧
      (cs.foldl notified s).draws = s.draws := by
  induction cs generalizing s with
  | nil => exact ⟨rfl, rfl, rfl⟩
  | cons c cs ih =>
    cases c with
    | mapping => exact ih (notified s .mapping) fun n hn => h n (List.mem_cons_of_mem _ hn)
    | ext n => exact absurd List.mem_cons_self (h n)

/-- The list-cleared calls among some port calls and more. -/
theorem clearedCalls_append (calls more : List PortCall) :
    clearedCalls (calls ++ more) = clearedCalls calls ++ clearedCalls more := List.filterMap_append

/-- Registrations call no list-cleared handler. -/
theorem clearedCalls_registrationCalls (m : Nat) (l ids : List Ident) : clearedCalls (registrationCalls m l ids) = [] := by
  induction ids generalizing l with
  | nil => rfl
  | cons id ids ih =>
    rw [registrationCalls]
    split
    · exact ih _
    · exact ih l

/-- Notification of one consumer calls its list-cleared handler if it is external, and the transport. -/
theorem notified_calls (s : State) (c : Consumer) :
    ∃ calls, (notified s c).out = s.out ++ calls ∧ clearedCalls calls = externals [c] := by
  cases c with
  | mapping => exact ⟨_, rfl, clearedCalls_registrationCalls _ _ _⟩
  | ext n => exact ⟨_, List.append_assoc _ _ _, congrArg (n :: ·) (clearedCalls_registrationCalls _ _ _)⟩

/-- Notification calls the external consumers of the list, in its order (R133). -/
theorem foldl_notified_calls (cs : List Consumer) (s : State) :
    ∃ calls, (cs.foldl notified s).out = s.out ++ calls ∧ clearedCalls calls = externals cs := by
  induction cs generalizing s with
  | nil => exact ⟨[], (List.append_nil _).symm, rfl⟩
  | cons c cs ih =>
    obtain ⟨first, hfirst, hext⟩ := notified_calls s c
    obtain ⟨rest, hrest, hexts⟩ := ih (notified s c)
    refine ⟨first ++ rest, ?_, ?_⟩
    · rw [List.foldl_cons, hrest, hfirst, List.append_assoc]
    · rw [clearedCalls_append, hext, hexts]
      exact (List.filterMap_append (l := [c])).symm

/-! ## CLEAR_IOI -/

/-- CLEAR_IOI's transition: the empty list, and then the notification of one consumer after another (R133). -/
theorem clearIdents_eq (s : State) :
    clearIdents s =
      s.cons.foldl notified { s with ioi := [], filter := [], out := s.out ++ [.btConfigureFilter []] } :=
  notifyCleared_eq _ _

/-- CLEAR_IOI runs from sound tables, gate open or closed. -/
theorem exec_clearIoi_eq {s : State} (hs : Sound s) :
    exec .clearIoi s = .next { clearIdents s with result := .none } := whenSound_of_sound hs

/-- CLEAR_IOI leaves a good acceptance list, whatever the list was. -/
theorem clearIdents_acceptance (s : State) : AcceptanceOk (clearIdents s) :=
  notifyCleared_acceptance _ ⟨List.nodup_nil, Nat.zero_le _, rfl⟩

/-- CLEAR_IOI's transition writes the list, the filter, the port calls, and through external consumers the store, the flash
and the draws. -/
theorem clearIdents_frame (s : State) :
    { clearIdents s with result := .none } =
      { s with ioi := (clearIdents s).ioi, filter := (clearIdents s).ioi, store := (clearIdents s).store,
               flash := (clearIdents s).flash, draws := (clearIdents s).draws, out := (clearIdents s).out,
               result := .none } := by
  obtain ⟨-, -, hfilter⟩ := clearIdents_acceptance s
  have hf : Frame [.ioi, .store, .flash] s (clearIdents s) :=
    clearIdents_parts s List.mem_cons_self fun _ _ => List.Subset.refl _
  have hcons : (clearIdents s).cons = s.cons := hf.same .cons (by simp)
  have htables : (clearIdents s).tables = s.tables := hf.same .tables (by simp)
  have hbusy : (clearIdents s).busy = s.busy := hf.same .busy (by simp)
  rw [← hf.cfg, ← hf.pending, ← hcons, ← htables, ← hbusy]
  exact congrArg (fun f => { clearIdents s with filter := f, result := .none }) hfilter

/-- With the mapping consumer alone CLEAR_IOI's transition registers its identifiers, and the filter is given every list on the
way, the empty one first (R133, R187). -/
theorem clearIdents_mapping {s : State} (hcons : s.cons = [.mapping]) :
    (clearIdents s).ioi = registered s.cfg.maxIoi [] (BitVec.ofNat 32 s.cfg.requestId :: recvIds s.tables) ∧
      (clearIdents s).out = s.out ++ (clearIdents s).ioi.inits.map .btConfigureFilter := by
  rw [clearIdents_eq, hcons]
  refine ⟨rfl, ?_⟩
  exact (List.append_assoc _ _ _).trans (congrArg (s.out ++ ·) (registrationCalls_inits _ [] _))

/-- Settles O16: CLEAR_IOI's transition is the notification of one consumer after another from the empty list. -/
theorem clearIoiReregisters : Obligations.ClearIoiReregisters := by
  intro s hs
  have heq := clearIdents_eq s
  refine ⟨_, exec_clearIoi_eq hs, clearIdents_acceptance s, clearIdents_frame s, fun hno => ?_, by rw [heq], ?_,
    fun hcons => ?_⟩
  · rw [heq]
    exact foldl_notified_inside _ hno
  · obtain ⟨calls, hout, hcalls⟩ := foldl_notified_calls s.cons
      { s with ioi := [], filter := [], out := s.out ++ [.btConfigureFilter []] }
    rw [heq]
    exact ⟨calls, hout.trans (List.append_assoc _ _ _), hcalls⟩
  · obtain ⟨hioi, hout⟩ := clearIdents_mapping hcons
    exact ⟨hioi, hout, fun hnd hfit => hioi.trans (registered_of_nodup hnd hfit)⟩

/-! ## CLEAR -/

/-- After CLEAR every entry and every slot is free (R160). -/
theorem tablesEmpty_clearTables (t : Tables) : tablesEmpty (clearTables t) = true := by
  simp [tablesEmpty, clearTables, entryUsed, slotUsed]

/-- Tables without a used slot show no binding. -/
theorem shownTable_of_tablesEmpty {t : Tables} (h : tablesEmpty t = true) : shownTable t = [] := by
  obtain ⟨-, hpool⟩ := Bool.and_eq_true_iff.mp h
  have hnone : allBindings t = [] := List.eq_nil_iff_forall_not_mem.mpr fun x hx => by
    obtain ⟨hmem, hu⟩ := used_of_mem_allBindings hx
    simpa [hu] using List.all_eq_true.mp hpool _ hmem
  rw [shownTable, hnone, List.map_nil]

/-- Tables without a used entry have no receive identifier. -/
theorem recvIds_of_tablesEmpty {t : Tables} (h : tablesEmpty t = true) : recvIds t = [] := by
  obtain ⟨hentries, -⟩ := Bool.and_eq_true_iff.mp h
  have hnone : t.recv.filter entryUsed = [] := List.filter_eq_nil_iff.mpr fun e he => by
    simpa using List.all_eq_true.mp hentries e (List.mem_append_right _ he)
  rw [recvIds, hnone, List.map_nil]

/-- CLEAR while the gate is open is CLEAR_IOI from the freed tables (R160). -/
theorem exec_clear_eq {s : State} (hs : Sound s) (hb : s.busy = false) :
    exec .clear s = exec .clearIoi { s with tables := clearTables s.tables } :=
  calc exec .clear s
      = finish .none (clearIdents { s with tables := clearTables s.tables }) :=
        (whenSound_of_sound hs).trans (whenIdle_of_idle hb)
    _ = exec .clearIoi { s with tables := clearTables s.tables } :=
        (exec_clearIoi_eq (s := { s with tables := clearTables s.tables }) (clearTables_sound hs)).symm

/-- Settles O28: CLEAR is CLEAR_IOI from the freed tables, which have no receive identifier. -/
theorem clearFreesEverything : Obligations.ClearFreesEverything := by
  intro s hs hb
  have hempty := tablesEmpty_clearTables s.tables
  have hsound := clearTables_sound hs
  obtain ⟨t, hexec, hacc, hframe, hinside, -, -, hmapping⟩ :=
    clearIoiReregisters { s with tables := clearTables s.tables } hsound
  have htables : t.tables = clearTables s.tables := (congrArg State.tables hframe :)
  have hcfg : t.cfg = s.cfg := (congrArg State.cfg hframe :)
  refine ⟨t, (exec_clear_eq hs hb).trans hexec, ?_⟩
  rw [Sound, htables, hcfg]
  refine ⟨hempty, hsound, hacc, shownTable_of_tablesEmpty hempty, hframe, hexec, hinside, fun hcons hroom => ?_⟩
  obtain ⟨-, hout, hioi⟩ := hmapping hcons
  rw [recvIds_of_tablesEmpty hempty] at hioi
  have hids := hioi (List.nodup_singleton _) hroom
  rw [hids] at hout
  exact ⟨hids, hout⟩

/-! ## LOAD -/

/-- Settles O58: the equation of a successful LOAD, part by part. -/
theorem loadMatchInstallsImage : Obligations.LoadMatchInstallsImage := fun _ hs hb hempty hfit hck =>
  ⟨_, exec_load_match hs hb hempty hfit hck, rfl, rfl, rfl, rfl, rfl, rfl⟩

end Sys2Proof.Machine
end

section
/-! PROOFS. DISPATCH (R134): its loop one consumer at a time, when it completes, and what a frame that is no SDO request
leaves. -/

namespace Sys2Proof.Machine

/-! ## DISPATCH and its loop -/

/-- DISPATCH where the loop answers. -/
theorem exec_dispatch_ok {id : Ident} {b : Payload} {s : State} {r : Payload × State} (hs : Sound s)
    (h : offerFrame s.cons id b s = .ok r) : exec (.dispatch id b) s = .next { r.2 with result := .buffer r.1 } := by
  refine (whenSound_of_sound hs).trans ?_
  rw [h]
  rfl

/-- DISPATCH where the loop is refused. -/
theorem exec_dispatch_error {id : Ident} {b : Payload} {s : State} {e : Refusal} (hs : Sound s)
    (h : offerFrame s.cons id b s = .error e) : exec (.dispatch id b) s = .refused e := by
  refine (whenSound_of_sound hs).trans ?_
  rw [h]

/-- The loop at the mapping consumer: it ends if MAP_RX claims the frame, and goes on otherwise. -/
theorem offerFrame_mapping {cs : List Consumer} {id : Ident} {b : Payload} {s : State} {q : Bool × Payload × State}
    (h : mapRx id b s = .ok q) :
    offerFrame (.mapping :: cs) id b s = if q.1 then .ok q.2 else offerFrame cs id q.2.1 q.2.2 := by
  obtain ⟨claimed, b1, s1⟩ := q
  rw [offerFrame, h]
  cases claimed <;> rfl

/-- The loop where MAP_RX is refused. -/
theorem offerFrame_mapping_error {cs : List Consumer} {id : Ident} {b : Payload} {s : State} {e : Refusal}
    (h : mapRx id b s = .error e) : offerFrame (.mapping :: cs) id b s = .error e := by
  rw [offerFrame, h]

/-- The loop at an external consumer: it ends if the consumer claims the frame, and goes on otherwise. -/
theorem offerFrame_ext (n : Nat) (cs : List Consumer) (id : Ident) (b : Payload) (s : State) :
    offerFrame (.ext n :: cs) id b s =
      if (extRx n id b s).1 then .ok (extRx n id b s).2
      else offerFrame cs id (extRx n id b s).2.1 (extRx n id b s).2.2 := by
  rw [offerFrame]
  generalize extRx n id b s = q
  obtain ⟨claimed, b1, s1⟩ := q
  cases claimed <;> rfl

/-! ## When DISPATCH completes -/

/-- MAP_RX of an SDO request that is not blocked (R186, R200). -/
theorem mapRx_request {id : Ident} {b : Payload} {s : State} (hid : id.toNat = s.cfg.requestId)
    (hk : sdoBlocked (sdoClass s.cfg b) s = false) : mapRx id b s = .ok (true, sdoServe (sdoClass s.cfg b) b s) := by
  rw [mapRx, if_pos hid, sdoProcess, hk]
  rfl

/-- MAP_RX answers while the gate is open, and every frame that is no SDO request (R186, R235). -/
theorem mapRx_isOk {id : Ident} {s : State} (b : Payload) (h : s.busy = true → id.toNat ≠ s.cfg.requestId) :
    ∃ q, mapRx id b s = .ok q := by
  by_cases hid : id.toNat = s.cfg.requestId
  · have hidle : s.busy = false := by simpa using fun hb => h hb hid
    exact ⟨_, mapRx_request hid (sdoBlocked_of_idle _ hidle)⟩
  · rw [mapRx, if_neg hid]
    split
    · exact ⟨_, rfl⟩
    · split <;> exact ⟨_, rfl⟩

/-- The loop answers while the gate is open, and every frame that is no SDO request: no handler moves the gate. -/
theorem offerFrame_isOk {cs : List Consumer} {id : Ident} {b : Payload} {s : State}
    (h : s.busy = true → id.toNat ≠ s.cfg.requestId) : ∃ r, offerFrame cs id b s = .ok r := by
  induction cs generalizing b s with
  | nil => exact ⟨_, rfl⟩
  | cons c cs ih =>
    have later {ps : List Part} {t : State} (hf : Frame ps s t) (hp : Part.busy ∉ ps) :
        t.busy = true → id.toNat ≠ t.cfg.requestId := by
      have hbusy : t.busy = s.busy := hf.same .busy hp
      rwa [hbusy, hf.cfg]
    cases c with
    | mapping =>
      obtain ⟨q, hq⟩ := mapRx_isOk b h
      rw [offerFrame_mapping hq]
      split
      · exact ⟨_, rfl⟩
      · exact ih (later (mapRx_parts hq) (by simp))
    | ext n =>
      rw [offerFrame_ext]
      split
      · exact ⟨_, rfl⟩
      · exact ih (later (extRx_parts n id b s) (by simp))

/-- Without external consumers the loop answers an SDO request of any class but a mapping one, during a save too: the mapping
consumer serves it (R211, R235). -/
theorem offerFrame_isOk_of_request {cs : List Consumer} {id : Ident} {b : Payload} {s : State}
    (hno : ∀ n, Consumer.ext n ∉ cs) (hid : id.toNat = s.cfg.requestId)
    (hk : sdoBlocked (sdoClass s.cfg b) s = false) : ∃ r, offerFrame cs id b s = .ok r := by
  cases cs with
  | nil => exact ⟨_, rfl⟩
  | cons c cs =>
    cases c with
    | mapping => exact ⟨_, offerFrame_mapping (mapRx_request hid hk)⟩
    | ext n => exact absurd List.mem_cons_self (hno n)

/-! ## A frame that is no SDO request -/

/-- MAP_RX of a frame that is no SDO request writes the store only (R182, R186). -/
theorem mapRx_parts_of_ne {id : Ident} {b : Payload} {s : State} {q : Bool × Payload × State}
    (hid : id.toNat ≠ s.cfg.requestId) (h : mapRx id b s = .ok q) : Frame [.store] s q.2.2 := by
  rcases mapRx_ok h with ⟨hreq, -⟩ | ⟨-, rfl⟩ | ⟨-, -, e, -, rfl⟩
  · exact absurd hreq hid
  · exact Frame.refl _ s
  · exact unpackChain_parts b _ s

/-- The loop with a frame that is no SDO request writes nothing of the block (R134, R135, R186). -/
theorem offerFrame_parts_of_ne {cs : List Consumer} {id : Ident} {b : Payload} {s : State} {r : Payload × State}
    (hid : id.toNat ≠ s.cfg.requestId) (h : offerFrame cs id b s = .ok r) : Frame [.store, .flash] s r.2 := by
  induction cs generalizing b s with
  | nil =>
    cases h
    exact Frame.refl _ s
  | cons c cs ih =>
    obtain ⟨q, hq, hr⟩ := offerFrame_cons_ok h
    have hfirst : Frame [.store, .flash] s q.2.2 := by
      rcases hq with ⟨-, hq⟩ | ⟨n, -, rfl⟩
      · exact (mapRx_parts_of_ne hid hq).mono (by simp)
      · exact extRx_parts n id b s
    rcases hr with rfl | hr
    · exact hfirst
    · exact hfirst.trans (ih (hfirst.cfg ▸ hid) hr)

/-- Settles O18: the loop answers in each of the cases asked for, and the frames of DISPATCH say what it leaves. -/
theorem dispatchCompletes : Obligations.DispatchCompletes := by
  intro id b s hs hsave
  have hok : ∃ r, offerFrame s.cons id b s = .ok r := by
    by_cases h : s.busy = true ∧ id.toNat = s.cfg.requestId
    · obtain ⟨hb, hid⟩ := h
      obtain ⟨hno, htx, hrx⟩ := hsave hb hid
      exact offerFrame_isOk_of_request hno hid (sdoBlocked_of_not_map s htx hrx)
    · exact offerFrame_isOk fun hb hid => h ⟨hb, hid⟩
  obtain ⟨r, hr⟩ := hok
  have hexec := exec_dispatch_ok hs hr
  have hf : Frame (mayWrite (.dispatch id b)) s { r.2 with result := .buffer r.1 } := exec_mayWrite hexec
  have hcons : r.2.cons = s.cons := hf.same .cons (by simp [mayWrite])
  refine ⟨_, r.1, hexec, rfl, hf.cfg, hcons, hf.same .busy (by simp [mayWrite]), hf.pending, fun hno => ?_, fun hid => ?_⟩
  · have hown : Frame (ownWrites (.dispatch id b)) s { r.2 with result := .buffer r.1 } :=
      exec_parts (List.Subset.refl _) (fun n hn => absurd hn (hno n)) hexec
    exact hown.same .flash (flash_notMem_ownWrites (by simp))
  · have hout := offerFrame_parts_of_ne hid hr
    obtain ⟨hioi, hfilter⟩ := hout.same .ioi (by simp)
    exact ⟨hout.cfg, hcons, hioi, hout.same .tables (by simp), hout.same .busy (by simp), hfilter, rfl, hout.pending⟩

/-! ## A frame that nobody claims -/

/-- MAP_RX declines a frame that is no SDO request while the gate is closed, or where no used receive entry has its
identifier (R186). -/
theorem mapRx_declines {id : Ident} {s : State} (b : Payload) (hid : id.toNat ≠ s.cfg.requestId)
    (h : s.busy = true ∨ ∀ e ∈ s.tables.recv, entryUsed e = true → e.id ≠ id) :
    mapRx id b s = .ok (false, b, s) := by
  rw [mapRx, if_neg hid]
  split
  · rfl
  · rename_i hb
    have hnone : findEntry s.tables .recv id = none := by
      simpa [findEntry, entriesOf, List.findIdx?_eq_none_iff] using h.resolve_left hb
    rw [hnone]

/-- The loop passes over consumers that all decline. -/
theorem offerFrame_declines {cs : List Consumer} {id : Ident} {b : Payload} {s : State}
    (hall : ∀ c ∈ cs, c = .mapping) (h : mapRx id b s = .ok (false, b, s)) : offerFrame cs id b s = .ok (b, s) := by
  induction cs with
  | nil => rfl
  | cons c cs ih =>
    obtain ⟨rfl, hrest⟩ := List.forall_mem_cons.mp hall
    exact (offerFrame_mapping h).trans (ih hrest)

/-- Settles O20: with no consumer the loop ends at once, and otherwise each consumer declines. -/
theorem unclaimedFrameDropped : Obligations.UnclaimedFrameDropped := by
  intro id b s hs hall hid h
  refine exec_dispatch_ok (r := (b, s)) hs ?_
  rcases h with hnil | hdecline
  · rw [hnil]
    rfl
  · exact offerFrame_declines hall (mapRx_declines b hid hdecline)

end Sys2Proof.Machine
end

section
/-! PROOFS. DISPATCH goes on from a consumer that declines exactly as a DISPATCH to the consumers after it (R134): no handler
reads the list of consumers or the last result, so each commutes with a rewriting of these two. -/

namespace Sys2Proof.Machine

/-- The state with another list of consumers and another last result. -/
def State.relabel (cs : List Consumer) (x : Result) (s : State) : State := { s with cons := cs, result := x }

/-! ## SDO requests by persistent identifier (R204, R205) -/

/-- SDO_PID_WR of an identifier that the store knows. -/
theorem sdoPidWr_found {b : Payload} {s : State} (h : storeNumFromId s.cfg (memRead b 3 1) < s.cfg.paramCount) :
    sdoPidWr b s = sdoWriteRaw (storeNumFromId s.cfg (memRead b 3 1)) b
      { s with out := s.out ++ [.psNumFromId (memRead b 3 1)] } := if_pos h

/-- SDO_PID_WR of an identifier that the store does not know. -/
theorem sdoPidWr_missing {b : Payload} {s : State} (h : ¬ storeNumFromId s.cfg (memRead b 3 1) < s.cfg.paramCount) :
    sdoPidWr b s = (sdoAbort .invalidIndex b, { s with out := s.out ++ [.psNumFromId (memRead b 3 1)] }) := if_neg h

/-- SDO_PID_RD of an identifier that the store knows. -/
theorem sdoPidRd_found {b : Payload} {s : State} (h : storeNumFromId s.cfg (memRead b 3 1) < s.cfg.paramCount) :
    sdoPidRd b s =
      (sdoReadReply b (storeGetRaw s.cfg s.store (storeNumFromId s.cfg (memRead b 3 1))),
        { s with out := s.out ++ [.psNumFromId (memRead b 3 1)] ++
                   [.psGetRaw (storeNumFromId s.cfg (memRead b 3 1))] }) := if_pos h

/-- SDO_PID_RD of an identifier that the store does not know. -/
theorem sdoPidRd_missing {b : Payload} {s : State} (h : ¬ storeNumFromId s.cfg (memRead b 3 1) < s.cfg.paramCount) :
    sdoPidRd b s = (sdoAbort .invalidIndex b, { s with out := s.out ++ [.psNumFromId (memRead b 3 1)] }) := if_neg h

section
variable (cs : List Consumer) (x : Result)

/-! ## UNPACK -/

/-- `PS.kind` reads neither the consumers nor the result. -/
theorem psKind_relabel (p : Nat) (s : State) :
    psKind p (s.relabel cs x) = Prod.map id (State.relabel cs x) (psKind p s) := by
  have hcfg : (s.relabel cs x).cfg = s.cfg := rfl
  rw [psKind, psKind, hcfg]
  cases storeKind s.cfg p <;> rfl

/-- `PS.setFromFloat` reads neither the consumers nor the result. -/
theorem psSetFromFloat_relabel (p : Nat) (f : F32) (s : State) :
    psSetFromFloat p f (s.relabel cs x) = (psSetFromFloat p f s).relabel cs x := by
  rw [psSetFromFloat, psSetFromFloat, psKind_relabel]
  obtain ⟨k, u⟩ := psKind p s
  cases k <;> rfl

/-- Reading a slot reads neither the consumers nor the result. -/
theorem readSlot_relabel (j : Nat) (s : State) :
    readSlot j (s.relabel cs x) = Prod.map id (State.relabel cs x) (readSlot j s) := by
  have htables : (s.relabel cs x).tables = s.tables := rfl
  rw [readSlot, readSlot, htables]
  split <;> rfl

/-- UNPACK of a binding reads neither the consumers nor the result. -/
theorem unpackSlot_relabel (buf : Payload) (b : Slot) (s : State) :
    unpackSlot buf b (s.relabel cs x) = (unpackSlot buf b s).relabel cs x := by
  rw [unpackSlot, unpackSlot]
  split
  · exact psSetFromFloat_relabel cs x b.param (drawWord s).1 (drawWord s).2
  · exact psSetFromFloat_relabel cs x b.param (unpackValue b buf) s

/-- UNPACK of a slot reads neither the consumers nor the result. -/
theorem unpackAt_relabel (buf : Payload) (j : Nat) (s : State) :
    unpackAt buf j (s.relabel cs x) = (unpackAt buf j s).relabel cs x := by
  rw [unpackAt, unpackAt, readSlot_relabel]
  exact unpackSlot_relabel cs x buf (readSlot j s).1 (readSlot j s).2

/-- UNPACK of a chain reads neither the consumers nor the result. -/
theorem unpackChain_relabel (buf : Payload) (js : List Nat) (s : State) :
    unpackChain buf js (s.relabel cs x) = (unpackChain buf js s).relabel cs x := by
  induction js generalizing s with
  | nil => rfl
  | cons j js ih => rw [unpackChain, unpackAt_relabel, ih, unpackChain]

/-! ## SDO requests -/

/-- ADD_IOI reads neither the consumers nor the result. -/
theorem addIdent_relabel (i : Ident) (s : State) :
    addIdent i (s.relabel cs x) = Prod.map id (State.relabel cs x) (addIdent i s) := by
  simp only [addIdent_eq, State.relabel]
  split <;> rfl

/-- ADD's transition reads neither the consumers nor the result. -/
theorem addBinding_relabel (d : Dir) (p : Nat) (i : Ident) (o w : Byte) (g : F32) (k : Word) (s : State) :
    addBinding d p i o w g k (s.relabel cs x) =
      (addBinding d p i o w g k s).map (Prod.map id (State.relabel cs x)) := by
  have hcfg : (s.relabel cs x).cfg = s.cfg := rfl
  have htables : (s.relabel cs x).tables = s.tables := rfl
  rw [addBinding, addBinding, hcfg, htables]
  split
  · rfl
  split
  · rfl
  split
  · rfl
  cases linkBinding s.tables d i (newBinding s.cfg p o w g k) with
  | error e => rfl
  | ok t =>
    cases d with
    | send => rfl
    | recv =>
      have hadd := congrArg Prod.snd (addIdent_relabel cs x i (s.setTables t))
      exact congrArg (fun u => Except.ok (usedCount t .recv, u)) hadd

/-- A mapping request reads neither the consumers nor the result. -/
theorem sdoMap_relabel (d : Dir) (b : Payload) (s : State) :
    sdoMap d b (s.relabel cs x) = Prod.map id (State.relabel cs x) (sdoMap d b s) := by
  have hcfg : (s.relabel cs x).cfg = s.cfg := rfl
  rw [sdoMap, sdoMap, hcfg, addBinding_relabel]
  cases addBinding d b.sub.toNat (b.mapIdent.zeroExtend 32) b.mapBitOff b.mapBitW (gainOf s.cfg b.mapGainRaw) 0 s <;> rfl

/-- A validated raw write reads neither the consumers nor the result. -/
theorem sdoWriteRaw_relabel (p : Nat) (b : Payload) (s : State) :
    sdoWriteRaw p b (s.relabel cs x) = Prod.map id (State.relabel cs x) (sdoWriteRaw p b s) := by
  rw [sdoWriteRaw, sdoWriteRaw, psSetRaw_eq, psSetRaw_eq]
  rfl

/-- A served request reads neither the consumers nor the result. -/
theorem sdoServe_relabel (k : SdoClass) (b : Payload) (s : State) :
    sdoServe k b (s.relabel cs x) = Prod.map id (State.relabel cs x) (sdoServe k b s) := by
  have hact : sdoAct k b (s.relabel cs x) = Prod.map id (State.relabel cs x) (sdoAct k b s) := by
    cases k with
    | prmWr => exact sdoWriteRaw_relabel cs x _ b s
    | prmRd => rfl
    | pidWr =>
      by_cases hp : storeNumFromId s.cfg (memRead b 3 1) < s.cfg.paramCount
      · rw [sdoAct, sdoPidWr_found hp, sdoPidWr_found (s := s.relabel cs x) hp]
        exact sdoWriteRaw_relabel cs x _ b { s with out := s.out ++ [.psNumFromId (memRead b 3 1)] }
      · rw [sdoAct, sdoPidWr_missing hp, sdoPidWr_missing (s := s.relabel cs x) hp]
        rfl
    | pidRd =>
      by_cases hp : storeNumFromId s.cfg (memRead b 3 1) < s.cfg.paramCount
      · rw [sdoAct, sdoPidRd_found hp, sdoPidRd_found (s := s.relabel cs x) hp]
        rfl
      · rw [sdoAct, sdoPidRd_missing hp, sdoPidRd_missing (s := s.relabel cs x) hp]
        rfl
    | mapTx => exact sdoMap_relabel cs x .send b s
    | mapRx => exact sdoMap_relabel cs x .recv b s
    | echo => rfl
    | invIdx => rfl
  rw [sdoServe, sdoServe, hact]
  rfl

/-! ## The handlers and the loop -/

/-- MAP_RX reads neither the consumers nor the result. -/
theorem mapRx_relabel (i : Ident) (b : Payload) (s : State) :
    mapRx i b (s.relabel cs x) = (mapRx i b s).map (Prod.map id (Prod.map id (State.relabel cs x))) := by
  have hcfg : (s.relabel cs x).cfg = s.cfg := rfl
  have hbusy : (s.relabel cs x).busy = s.busy := rfl
  have htables : (s.relabel cs x).tables = s.tables := rfl
  rw [mapRx, mapRx, hcfg, hbusy, htables, sdoProcess, sdoProcess, hcfg, sdoServe_relabel, sdoBlocked, hbusy, ← sdoBlocked]
  split
  · cases sdoBlocked (sdoClass s.cfg b) s <;> rfl
  split
  · rfl
  cases findEntry s.tables .recv i with
  | none => rfl
  | some e =>
    dsimp only
    rw [unpackChain_relabel]
    rfl

/-- An external receive handler reads neither the consumers nor the result. -/
theorem extRx_relabel (n : Nat) (i : Ident) (b : Payload) (s : State) :
    extRx n i b (s.relabel cs x) = Prod.map id (Prod.map id (State.relabel cs x)) (extRx n i b s) := rfl

/-- The loop of DISPATCH reads neither the state's list of consumers nor the result. -/
theorem offerFrame_relabel (l : List Consumer) (i : Ident) (b : Payload) (s : State) :
    offerFrame l i b (s.relabel cs x) = (offerFrame l i b s).map (Prod.map id (State.relabel cs x)) := by
  induction l generalizing b s with
  | nil => rfl
  | cons c l ih =>
    cases c with
    | mapping =>
      have hm := mapRx_relabel cs x i b s
      cases hq : mapRx i b s with
      | error e =>
        rw [hq] at hm
        rw [offerFrame_mapping_error hm, offerFrame_mapping_error hq]
        rfl
      | ok q =>
        rw [hq] at hm
        rw [offerFrame_mapping hm, offerFrame_mapping hq]
        obtain ⟨claimed, b1, s1⟩ := q
        cases claimed with
        | true => rfl
        | false => exact ih b1 s1
    | ext n =>
      rw [offerFrame_ext, offerFrame_ext, extRx_relabel]
      obtain ⟨claimed, b1, s1⟩ := extRx n i b s
      cases claimed with
      | true => rfl
      | false => exact ih b1 s1

end

/-! ## DISPATCH to the remaining consumers -/

/-- No handler writes the list of consumers. -/
theorem offerFrame_cons {l : List Consumer} {id : Ident} {b : Payload} {s : State} {r : Payload × State}
    (h : offerFrame l id b s = .ok r) : r.2.cons = s.cons :=
  (offerFrame_parts (ps := [.ioi, .tables, .store, .flash]) (by simp) (fun _ _ => by simp) h).same .cons (by simp)

/-- Where the loop goes on with the consumers `rest` from `u`, DISPATCH is the DISPATCH to these consumers from `u`, whatever
the result there, refusals included. -/
theorem exec_dispatch_continues {id : Ident} {b b' : Payload} {s u : State} {rest : List Consumer} (x : Result)
    (hs : Sound s) (hu : Sound u) (hcons : u.cons = s.cons)
    (h : offerFrame s.cons id b s = offerFrame rest id b' u) :
    exec (.dispatch id b) s =
      mapNext (fun v => { v with cons := s.cons }) (exec (.dispatch id b') (u.relabel rest x)) := by
  have hrest := offerFrame_relabel rest x rest id b' u
  have hu' : Sound (u.relabel rest x) := hu
  cases ho : offerFrame rest id b' u with
  | error e =>
    rw [ho] at h hrest
    rw [exec_dispatch_error hs h, exec_dispatch_error hu' hrest]
    rfl
  | ok r =>
    rw [ho] at h hrest
    rw [exec_dispatch_ok hs h, exec_dispatch_ok hu' hrest, ← hcons, ← offerFrame_cons ho]
    rfl

/-- Settles O19: the loop at the first consumer, and what each of the two kinds leaves where it declines. -/
theorem firstClaimantWins : Obligations.FirstClaimantWins := by
  intro id b s hs
  refine ⟨fun hnil => ?_, fun rest hcons => ⟨fun b' t hrx hres => ?_, fun b' t hrx hres => ?_⟩, fun n rest hcons => ?_⟩
  · exact exec_dispatch_ok (r := (b, s)) hs (by rw [hnil]; rfl)
  · obtain ⟨-, ⟨claimed, b1, s1⟩, hq, rfl⟩ := execMapRx_next hrx
    obtain ⟨rfl, rfl⟩ := Result.claimed.inj hres
    exact exec_dispatch_ok (r := (b1, s1)) hs (by rw [hcons, offerFrame_mapping hq]; rfl)
  · obtain ⟨-, ⟨claimed, b1, s1⟩, hq, rfl⟩ := execMapRx_next hrx
    obtain ⟨rfl, rfl⟩ := Result.claimed.inj hres
    obtain ⟨rfl, rfl⟩ : b = b1 ∧ s = s1 := by
      rcases mapRx_ok hq with ⟨-, -, h⟩ | ⟨-, h⟩ | ⟨-, -, e, -, h⟩
      · cases h
      · cases h
        exact ⟨rfl, rfl⟩
      · cases h
    exact exec_dispatch_continues (u := s) (.claimed false b) hs hs rfl (by rw [hcons, offerFrame_mapping hq]; rfl)
  · have hstate := extRx_state n id b s
    have hloop := offerFrame_ext n rest id b s
    rw [← hcons] at hloop
    dsimp only
    refine ⟨by rw [hstate], ?_⟩
    split
    · rename_i hclaimed
      rw [if_pos hclaimed] at hloop
      exact exec_dispatch_ok hs hloop
    · rename_i hdeclined
      rw [if_neg hdeclined] at hloop
      have hsound : Sound (extRx n id b s).2.2 := by rw [hstate]; exact hs
      have hkept : (extRx n id b s).2.2.cons = s.cons := by rw [hstate]
      exact exec_dispatch_continues _ hs hsound hkept hloop

end Sys2Proof.Machine
end

section
/-! PROOFS. FIND_FIRST and FOR_EACH: what they answer is a function of the table as it is shown (R157 to R159). -/

namespace Sys2Proof.Machine

/-! ## FOR_EACH -/

/-- Settles O27: a visitor's call carries exactly what is shown of the binding. -/
theorem forEachVisitsInOrder : Obligations.ForEachVisitsInOrder := by
  intro v s hs hb
  have hrun : exec (.forEach v) s =
      .next { s with out := s.out ++ (allBindings s.tables).map (visitCall v), result := .none } :=
    (whenSound_of_sound hs).trans (whenIdle_of_idle hb)
  rw [hrun, shownTable, List.map_map]
  rfl

/-! ## FIND_FIRST -/

/-- FIND_FIRST's answer for the binding found, as it is shown, or for none (R158). -/
def foundResult : Option (Dir × Ident × Nat × Byte × Byte × F32 × Word) → Result
  | some (d, id, _, o, w, g, _) => .found id o w g d
  | none => .notFound

/-- FIND_FIRST while the gate is open answers the first binding of the parameter in the table as it is shown (R158). -/
theorem exec_findFirst_eq {s : State} (p : Nat) (hs : Sound s) (hb : s.busy = false) :
    exec (.findFirst p) s = .next
      { s with result := foundResult ((shownTable s.tables).find? fun x => x.2.2.1 == p) } := by
  have hfind : ((shownTable s.tables).find? fun x => x.2.2.1 == p) =
      ((allBindings s.tables).find? fun x => x.2.2.param == p).map shown := List.find?_map
  refine ((whenSound_of_sound hs).trans (whenIdle_of_idle hb)).trans ?_
  rw [hfind]
  cases (allBindings s.tables).find? fun x => x.2.2.param == p with
  | none => rfl
  | some x => rfl

/-- FIND_FIRST of a parameter that no shown binding has (R158). -/
theorem exec_findFirst_of_not_shown {p : Nat} {s : State} (hs : Sound s) (hb : s.busy = false)
    (h : ∀ x ∈ shownTable s.tables, x.2.2.1 ≠ p) : exec (.findFirst p) s = .next { s with result := .notFound } := by
  have hnone : ((shownTable s.tables).find? fun x => x.2.2.1 == p) = none :=
    List.find?_eq_none.mpr fun x hx => by simpa using h x hx
  rw [exec_findFirst_eq p hs hb, hnone]
  rfl

/-- Settles O26: the first match in the table as it is shown, or none. -/
theorem findFirstSearchesInOrder : Obligations.FindFirstSearchesInOrder := by
  refine fun p s hs hb => ⟨fun pre d id o w g k post htable hpre => ?_, exec_findFirst_of_not_shown hs hb⟩
  have hfound : ((shownTable s.tables).find? fun x => x.2.2.1 == p) = some (d, id, p, o, w, g, k) :=
    List.find?_eq_some_iff_append.mpr ⟨by simp, pre, post, htable, fun x hx => by simpa using hpre x hx⟩
  rw [exec_findFirst_eq p hs hb, hfound]
  rfl

/-- Settles O25: REMOVE leaves sound tables that show no binding of the parameter. -/
theorem removedParameterNotFound : Obligations.RemovedParameterNotFound := by
  intro p s t h
  obtain ⟨hs, hidle⟩ := whenSound_next.mp h
  obtain ⟨hb, -⟩ := whenIdle_next.mp hidle
  obtain ⟨-, hr⟩ := removeBindings_rechained p hs
  rw [exec_remove_eq p hs hb] at h
  cases h
  refine exec_findFirst_of_not_shown hr.sound hb fun x hx => ?_
  rw [shownTable_rechained hs hr] at hx
  simpa using (List.mem_filter.mp hx).2

end Sys2Proof.Machine
end

section
/-! PROOFS. ADD as an operation (R155): which test it reports, what it writes where all of them pass, and how many entries of
the direction are then in use. -/

namespace Sys2Proof.Machine

/-! ## The errors of ADD -/

section
variable {d : Dir} {p : Nat} {id : Ident} {o w : Byte} {g : F32} {k : Word} {s : State}

/-- ADD while the gate is open is its transition, with the count or the error as the result (R155, R258). -/
theorem exec_add_eq (hs : Sound s) (hb : s.busy = false) :
    exec (.add d p id o w g k) s =
      match addBinding d p id o w g k s with
      | .ok r => .next { r.2 with result := .count r.1 }
      | .error e => .next { s with result := .error e } := by
  refine ((whenSound_of_sound hs).trans (whenIdle_of_idle hb)).trans ?_
  cases addBinding d p id o w g k s with
  | ok r => rfl
  | error e => rfl

/-- An ADD that fails reports its error and changes nothing else (R258). -/
theorem exec_add_error {e : ErrCode} (hs : Sound s) (hb : s.busy = false) (h : addBinding d p id o w g k s = .error e) :
    exec (.add d p id o w g k) s = .next { s with result := .error e } := by
  rw [exec_add_eq hs hb, h]

/-- Where the operands pass their tests, an error of the allocations is ADD's (R155, R256). -/
theorem addBinding_of_link_error {e : ErrCode} (hid : id.toNat ≤ 0x1FFFFFFF) (ho : o.toNat ≤ 63) (hw : w.toNat ≤ 32)
    (h : linkBinding s.tables d id (newBinding s.cfg p o w g k) = .error e) :
    addBinding d p id o w g k s = .error e := by
  rw [addBinding, if_neg (by omega), if_neg (by omega), if_neg (by omega), h]

end

/-- Without an entry for the identifier ADD's allocations report that first (R155). -/
theorem linkBinding_of_no_entry {t : Tables} {d : Dir} {id : Ident} (b : Slot) (h : ¬ EntryAvailable t d id) :
    linkBinding t d id b = .error .maxMessages := by
  rw [entryAvailable_iff, not_or, Option.not_isSome_iff_eq_none, Option.not_isSome_iff_eq_none] at h
  obtain ⟨hfind, hfree⟩ := h
  simp only [linkBinding, hfind, hfree]

/-- With an entry but no slot they report the full pool (R155). -/
theorem linkBinding_of_no_slot {t : Tables} {d : Dir} {id : Ident} (b : Slot) (he : EntryAvailable t d id)
    (h : ¬ SlotAvailable t) : linkBinding t d id b = .error .maxItems := by
  rw [slotAvailable_iff, Option.not_isSome_iff_eq_none] at h
  rw [entryAvailable_iff] at he
  cases hfind : findEntry t d id with
  | some e => simp only [linkBinding, hfind, h]
  | none =>
    obtain ⟨e, hfree⟩ := Option.isSome_iff_exists.mp (he.resolve_left (by simp [hfind]))
    simp only [linkBinding, hfind, hfree, h]

/-- Settles O21: ADD's chain of tests, one after another. -/
theorem addReportsFirstFailure : Obligations.AddReportsFirstFailure := by
  intro d p id o w g k s hs hb fails
  have report {e : ErrCode} : addBinding d p id o w g k s = .error e → fails e := exec_add_error hs hb
  refine ⟨fun hid => report ?_, fun hid => ⟨fun ho => report ?_, fun ho => ⟨fun hw => report ?_, fun hw =>
    ⟨fun he => report ?_, fun he hslot => report ?_⟩⟩⟩⟩
  · rw [addBinding, if_pos hid]
  · rw [addBinding, if_neg (by omega), if_pos ho]
  · rw [addBinding, if_neg (by omega), if_neg (by omega), if_pos hw]
  · exact addBinding_of_link_error hid ho hw (linkBinding_of_no_entry _ he)
  · exact addBinding_of_link_error hid ho hw (linkBinding_of_no_slot _ he hslot)

/-! ## ADD where its tests pass -/

/-- The binding of operands that fit is stored as given (R30, R155). -/
theorem newBinding_of_fits {c : Cfg} {p : Nat} (o w : Byte) (g : F32) (k : Word) (h : paramRefFits c p = true) :
    newBinding c p o w g k = ⟨p, k, g, o, w, .endMark⟩ := by
  rw [newBinding, cutRef_of_lt (of_decide_eq_true h)]

/-- ADD whose binding is linked: the new tables, the count of the direction's entries, the registration of a receive identifier
that is new and fits, and nothing else (R132, R155). -/
theorem exec_add_linked {d : Dir} {p : Nat} {id : Ident} {o w : Byte} {g : F32} {k : Word} {s : State} {u : Tables}
    (hs : Sound s) (hb : s.busy = false) (hid : id.toNat ≤ 0x1FFFFFFF) (ho : o.toNat ≤ 63) (hw : w.toNat ≤ 32)
    (hu : linkBinding s.tables d id (newBinding s.cfg p o w g k) = .ok u) :
    ∃ t, exec (.add d p id o w g k) s = .next t ∧ t.tables = u ∧ t.result = .count (usedCount u d) ∧
      if d = .recv ∧ id ∉ s.ioi ∧ s.ioi.length < s.cfg.maxIoi then
        t = { s with tables := t.tables, result := t.result, ioi := s.ioi ++ [id], filter := s.ioi ++ [id],
                     out := s.out ++ [.btConfigureFilter (s.ioi ++ [id])] }
      else t = { s with tables := t.tables, result := t.result } := by
  refine ⟨_, by rw [exec_add_eq hs hb, addBinding_of_linked hid ho hw hu], ?_, rfl, ?_⟩
  · split
    · rfl
    · rfl
  · split
    · rfl
    · rfl

/-! ## How many entries are in use -/

/-- FIND_ENTRY finds nothing exactly if no used entry has the identifier (R150). -/
theorem findEntry_eq_none_iff {t : Tables} {d : Dir} {id : Ident} :
    findEntry t d id = none ↔ ¬ ∃ e ∈ entriesOf t d, entryUsed e = true ∧ e.id = id := by
  simp [findEntry, List.findIdx?_eq_none_iff]

/-- A used entry written over a free one is one more (R16). -/
theorem usedCount_putEntry {t : Tables} {d : Dir} {i : Nat} {e : Entry} (hi : i < (entriesOf t d).length)
    (hfree : entryUsed (entryAt t d i) = false) (hused : entryUsed e = true) :
    usedCount (putEntry t d i e) d = usedCount t d + 1 := by
  rw [entryAt, List.getD_eq_getElem _ _ hi] at hfree
  rw [usedCount, usedCount, putEntry, entriesOf_setEntries_same, List.countP_set hi]
  simp [hfree, hused]

/-- ADD leaves one used entry more, exactly if the identifier had none (R155). -/
theorem usedCount_linkBinding {c : Cfg} {t u : Tables} {d : Dir} {id : Ident} {b : Slot} (hs : tablesSound c t = true)
    (h : linkBinding t d id b = .ok u) :
    usedCount u d = usedCount t d + if ∃ e ∈ entriesOf t d, entryUsed e = true ∧ e.id = id then 0 else 1 := by
  obtain ⟨i, j, -, ⟨hfind, q, -, rfl⟩ | ⟨hfind, hentry, rfl⟩⟩ := linkBinding_ok hs h
  · have hold : ∃ e ∈ entriesOf t d, entryUsed e = true ∧ e.id = id := by
      by_contra hnone
      simp [findEntry_eq_none_iff.mpr hnone] at hfind
    rw [if_pos hold, usedCount, entriesOf_putNext, entriesOf_putSlot]
    rfl
  · obtain ⟨hi, hunused⟩ := freeEntry_some hentry
    have hentries := entriesOf_putSlot t j b d
    rw [if_neg (findEntry_eq_none_iff.mp hfind), usedCount_putEntry (hentries ▸ hi)
      (by rwa [entryAt_of_entries hentries]) rfl, usedCount, hentries]
    rfl

/-- After ADD at least one entry is in use, and no more than there are (R24, R155). -/
theorem usedCount_linkBinding_bounds {c : Cfg} {t u : Tables} {d : Dir} {id : Ident} {b : Slot}
    (hs : tablesSound c t = true) (hu : tablesSound c u = true) (h : linkBinding t d id b = .ok u) :
    1 ≤ usedCount u d ∧ usedCount u d ≤ c.maxMessages := by
  refine ⟨?_, entriesOf_length_of_sound hu d ▸ List.countP_le_length⟩
  rw [usedCount_linkBinding hs h]
  split
  · rename_i hold
    obtain ⟨e, he, hused, -⟩ := hold
    exact Nat.le_add_right_of_le (List.countP_pos_iff.mpr ⟨e, he, hused⟩)
  · exact Nat.le_add_left _ _

/-- Settles O22: the tables are the old ones with one binding added to the entry of the identifier. -/
theorem addAppendsBinding : Obligations.AddAppendsBinding := by
  intro d p id o w g k s hs hb hp hid ho hw hentry hslot
  obtain ⟨u, hu⟩ := linkBinding_of_available (newBinding s.cfg p o w g k) hentry hslot
  obtain ⟨i, j, hadded⟩ := linkBinding_added hs rfl hu
  have hsound := linkBinding_sound hs (slotFits_newBinding s.cfg p g k ho hw) rfl hu
  obtain ⟨hpos, hle⟩ := usedCount_linkBinding_bounds hs hsound hu
  obtain ⟨t, hrun, rfl, hresult, hframe⟩ := exec_add_linked hs hb hid ho hw hu
  refine ⟨t, hrun, hresult, hpos, hle, usedCount_linkBinding hs hu, fun d' id' => ?_, hframe⟩
  have hmsg := hadded.shownMessage_eq hs hsound d' id'
  rwa [newBinding_of_fits o w g k hp] at hmsg

/-! ## Which slot and which entry ADD takes -/

/-- What a search for the first index finds is the lowest index. -/
theorem lowestWith_of_findIdx? {α : Type} {l : List α} {q : α → Bool} {i : Nat} (h : l.findIdx? q = some i) :
    LowestWith l q i := by
  obtain ⟨hi, hq, hlow⟩ := List.findIdx?_eq_some_iff_getElem.mp h
  exact ⟨⟨hi, hq⟩, fun n _ hn => Bool.eq_false_iff.mpr (hlow n hn)⟩

/-- What linking the free slot `j` behind the tail `q` leaves of the slots: the binding in `j`, the link in `q`, the others as
they were (R153, R155). -/
theorem slotAt_append {t : Tables} {d : Dir} {i j q : Nat} (b : Slot) (hslot : freeSlot t = some j)
    (htail : tailOf t d i = some q) :
    slotAt (putNext (putSlot t j b) q (.slot j)) j = b ∧
      slotAt (putNext (putSlot t j b) q (.slot j)) q = { slotAt t q with next := .slot j } ∧
      ∀ n, n ≠ j → n ≠ q → slotAt (putNext (putSlot t j b) q (.slot j)) n = slotAt t n := by
  obtain ⟨hj, hfree⟩ := freeSlot_some hslot
  obtain ⟨hq, hused⟩ := chain_visits q (List.mem_of_getLast? htail)
  have hqj : q ≠ j := by
    rintro rfl
    simp [hused] at hfree
  refine ⟨?_, ?_, fun n hnj hnq => ?_⟩
  · simp [slotAt_putNext, slotAt_putSlot, hqj.symm, hj]
  · simp [slotAt_putNext, slotAt_putSlot, hqj, hq]
  · simp [slotAt_putNext, slotAt_putSlot, hnj, hnq]

/-- Settles O23: the two ways in which a binding is linked. -/
theorem addTakesLowestFree : Obligations.AddTakesLowestFree := by
  intro d p id o w g k s hs hb hp hid ho hw hentry hslot
  obtain ⟨u, hu⟩ := linkBinding_of_available (newBinding s.cfg p o w g k) hentry hslot
  obtain ⟨t, hrun, htables, -⟩ := exec_add_linked hs hb hid ho hw hu
  rw [newBinding_of_fits o w g k hp] at hu
  obtain ⟨i, j, hfree, hcase⟩ := linkBinding_ok hs hu
  refine ⟨t, j, hrun, lowestWith_of_findIdx? hfree, ?_⟩
  rw [htables]
  rcases hcase with ⟨hfind, q, htail, rfl⟩ | ⟨hfind, hnew, rfl⟩
  · obtain ⟨hat, hlink, hother⟩ := slotAt_append ⟨p, k, g, o, w, .endMark⟩ hfree htail
    refine ⟨hat, fun d' _ => by simp, fun e he => ?_, fun hnone => by simp [hfind] at hnone⟩
    obtain rfl := Option.some.inj (hfind.symm.trans he)
    exact ⟨by simp, q, htail, hlink, hother⟩
  · obtain ⟨hj, -⟩ := freeSlot_some hfree
    have slots (n : Nat) := slotAt_of_pool (putEntry_pool (putSlot s.tables j ⟨p, k, g, o, w, .endMark⟩) d i
      { id := id, head := .slot j }) n
    refine ⟨?_, fun d' hd => ?_, fun e he => by simp [hfind] at he, fun _ => ⟨fun n hn => ?_, i,
      lowestWith_of_findIdx? hnew, by simp [putEntry]⟩⟩
    · rw [slots, slotAt_putSlot, if_pos ⟨rfl, hj⟩]
    · rw [putEntry, entriesOf_setEntries_other _ _ _ _ hd, entriesOf_putSlot]
    · rw [slots, slotAt_putSlot, if_neg fun h => hn h.1]

end Sys2Proof.Machine
end

section
/-! PROOFS. The mapping consumer's handlers (R186, R187): which identifiers MAP_CLEARED registers, which frames MAP_RX claims,
and the store calls that it makes for them, one binding of the chain after another. -/

namespace Sys2Proof.Machine

/-! ## MAP_CLEARED -/

/-- MAP_CLEARED is the registration of the SDO request identifier and then of the receive identifiers (R187). -/
theorem exec_mapCleared_eq {s : State} (hs : Sound s) :
    exec .mapCleared s = .next
      { withRegistered (BitVec.ofNat 32 s.cfg.requestId :: recvIds s.tables) s with result := .none } := by
  refine (whenSound_of_sound hs).trans ?_
  rw [mapCleared, addIdents_eq, finish_eq]

/-- Registration keeps the acceptance list's invariant (R22, R23). -/
theorem withRegistered_acceptance (ids : List Ident) {s : State} (h : AcceptanceOk s) :
    AcceptanceOk (withRegistered ids s) :=
  addIdents_eq ids s ▸ addIdents_acceptance ids s h

/-- Settles O17: MAP_CLEARED is one registration. -/
theorem mapClearedRegisters : Obligations.MapClearedRegisters := fun _ hs hok =>
  ⟨_, exec_mapCleared_eq hs, withRegistered_acceptance _ hok, rfl, rfl⟩

/-! ## Which frames MAP_RX claims -/

/-- MAP_RX as an operation answers what its transition answers (R186). -/
theorem exec_mapRx_ok {id : Ident} {b : Payload} {s : State} {q : Bool × Payload × State} (hs : Sound s)
    (h : mapRx id b s = .ok q) : exec (.mapRx id b) s = .next { q.2.2 with result := .claimed q.1 q.2.1 } := by
  refine (whenSound_of_sound hs).trans ?_
  rw [h]
  rfl

/-- FIND_ENTRY finds the used entry of an identifier: sound tables hold no other one (INV1, R150). -/
theorem findEntry_of_mem {c : Cfg} {t : Tables} {d : Dir} {e : Entry} (hs : tablesSound c t = true)
    (he : e ∈ entriesOf t d) (hu : entryUsed e = true) : ∃ i, findEntry t d e.id = some i ∧ entryAt t d i = e := by
  obtain ⟨k, hk, rfl⟩ := List.getElem_of_mem he
  have hat : entryAt t d k = (entriesOf t d)[k] := List.getD_eq_getElem _ _ hk
  rw [← hat] at hu ⊢
  cases hf : findEntry t d (entryAt t d k).id with
  | none => exact absurd rfl (findEntry_none hf k hk hu)
  | some i =>
    obtain ⟨hi, hui, hid⟩ := findEntry_some hf
    obtain ⟨-, hinv1, -⟩ := tablesSound_iff.mp hs
    exact ⟨i, rfl, by rw [inv1_iff.mp hinv1 d i hi k hk hui hu hid]⟩

/-- MAP_RX of a frame with a used receive entry, while the gate is open: the entry's chain is unpacked (R186). -/
theorem exec_mapRx_mapped {s : State} {e : Entry} (buf : Payload) (hs : Sound s) (hb : s.busy = false)
    (hid : e.id.toNat ≠ s.cfg.requestId) (he : e ∈ s.tables.recv) (hu : entryUsed e = true) :
    exec (.mapRx e.id buf) s = .next
      { unpackChain buf (chain s.tables e.head) s with result := .claimed true buf } := by
  obtain ⟨i, hi, rfl⟩ := findEntry_of_mem (d := .recv) hs he hu
  refine exec_mapRx_ok (q := (true, buf, _)) hs ?_
  rw [mapRx, if_neg hid, hb, hi]
  rfl

/-- Settles O37: a used receive entry's chain is unpacked, and without such an entry MAP_RX declines. -/
theorem mapRxClaimsMappedFrames : Obligations.MapRxClaimsMappedFrames := by
  refine fun id buf s hs hb hid => ⟨?_, fun hno => exec_mapRx_ok hs (mapRx_declines buf hid (.inr hno))⟩
  rintro ⟨e, he, hu, rfl⟩
  refine ⟨_, exec_mapRx_mapped buf hs hb hid he hu, ?_, rfl⟩
  obtain ⟨cells, n, calls, -, -, h⟩ := unpackChain_frame buf (chain s.tables e.head) s
  rw [h]
  exact ⟨rfl, rfl, rfl, rfl, rfl, rfl, rfl, rfl⟩

/-! ## UNPACK of a chain -/

/-- The store knows the kind of every parameter of the enumeration (R267). -/
theorem storeKind_of_lt {c : Cfg} {p : Nat} (h : p < c.paramCount) : storeKind c p = some (declaredKind c p) := by
  have hdecl : c.params[p]? = some c.params[p] := List.getElem?_eq_getElem h
  rw [storeKind_of_declared hdecl, declaredKind, hdecl]
  rfl

/-- The store calls of UNPACK for a slot: the kind query, and the write of the scaled field (R182, R267). -/
def unpackCalls (c : Cfg) (t : Tables) (buf : Payload) (j : Nat) : List PortCall :=
  let b := slotAt t j
  [.psKind b.param, setCall (declaredKind c b.param) b.param (scaledField buf b)]

/-- UNPACK of a list of used slots with fields in one word and declared parameters, in order (R182, R186). -/
theorem unpackChain_one_word (buf : Payload) {js : List Nat} {s : State}
    (hused : ∀ j ∈ js, slotUsed (slotAt s.tables j) = true)
    (hparam : ∀ j ∈ js, (slotAt s.tables j).param < s.cfg.paramCount)
    (hword : ∀ j ∈ js, straddling (slotAt s.tables j) = false) :
    unpackChain buf js s =
      { s with store := unpackedCells s.cfg s.tables buf js s.store
               out := s.out ++ js.flatMap (unpackCalls s.cfg s.tables buf) } := by
  induction js generalizing s with
  | nil => simp [unpackChain, unpackedCells]
  | cons j js ih =>
    obtain ⟨hu, hus⟩ := List.forall_mem_cons.mp hused
    obtain ⟨hp, hps⟩ := List.forall_mem_cons.mp hparam
    obtain ⟨hw, hws⟩ := List.forall_mem_cons.mp hword
    rw [unpackChain, unpackAt_used buf hu, unpackSlot_one_word buf hw (storeKind_of_lt hp), ih (by exact hus) (by exact hps)
      (by exact hws), List.flatMap_cons, ← List.append_assoc]
    rfl

/-- The slots of a chain refer to declared parameters where every used slot does. -/
theorem param_lt_of_mem_chain {c : Cfg} {t : Tables} (h : ParamsValid c t) {l : Link} {j : Nat} (hj : j ∈ chain t l) :
    (slotAt t j).param < c.paramCount := by
  obtain ⟨hlt, hu⟩ := chain_visits j hj
  refine h _ ?_ hu
  rw [slotAt, List.getD_eq_getElem _ _ hlt]
  exact List.getElem_mem hlt

/-- Settles O36: MAP_RX unpacks the chain of the identifier's entry, slot by slot. -/
theorem mapRxUnpacksChain : Obligations.MapRxUnpacksChain := by
  rintro id buf s e hs hb hid he hu rfl hvalid hword
  rw [exec_mapRx_mapped buf hs hb hid he hu,
    unpackChain_one_word buf (fun j hj => (chain_visits j hj).2) (fun j => param_lt_of_mem_chain hvalid) hword]
  rfl

end Sys2Proof.Machine
end

section
/-! PROOFS. PACK of one binding and of a chain (R183, R184): which bits of the frame it can set, and the frame and the draws
where every integer is known; and the send sweep (R189), one frame for each used entry. -/

namespace Sys2Proof.Machine

/-! ## PACK of one slot -/

/-- A state after some port calls and up to a count of draws. -/
def State.afterCalls (s : State) (d : Nat) (calls : List PortCall) : State := { s with draws := d, out := s.out ++ calls }

/-- Draws without port calls. -/
theorem State.afterCalls_nil (s : State) (d : Nat) : s.afterCalls d [] = { s with draws := d } := by
  rw [State.afterCalls, List.append_nil]

/-- Port calls after port calls. -/
theorem State.afterCalls_afterCalls (s : State) (d d' : Nat) (calls calls' : List PortCall) :
    (s.afterCalls d calls).afterCalls d' calls' = s.afterCalls d' (calls ++ calls') := by
  simp only [State.afterCalls, List.append_assoc]

/-- The slot's integer ORed into a frame, where it is known (R183). -/
def insertKnown (c : Cfg) (cells : List Word) (t : Tables) (p : Payload) (j : Nat) : Payload :=
  insertInto p (slotAt t j) ((sentInteger c cells (slotAt t j)).getD 0)

/-- The frame of a chain is built by one insertion after another (R184, R189). -/
theorem sentFrame_eq_foldl (c : Cfg) (cells : List Word) (t : Tables) (js : List Nat) :
    sentFrame c cells t js = js.foldl (insertKnown c cells t) ⟨0, 0⟩ := rfl

/-- The reads of the store that PACK of a list of slots makes: one for each binding that does not straddle (R66, R183). -/
def readCalls (t : Tables) (js : List Nat) : List PortCall :=
  (js.filter fun j => !straddling (slotAt t j)).map fun j => .psGetFloat (slotAt t j).param

/-- PACK of a straddling binding reads nothing (R66). -/
theorem readCalls_straddling {t : Tables} {j : Nat} (h : straddling (slotAt t j) = true) : readCalls t [j] = [] := by
  simp [readCalls, h]

/-- PACK of a field in one word reads its parameter (R183). -/
theorem readCalls_one_word {t : Tables} {j : Nat} (h : straddling (slotAt t j) = false) :
    readCalls t [j] = [.psGetFloat (slotAt t j).param] := by
  simp [readCalls, h]

/-- The reads of one list of slots after another. -/
theorem readCalls_append (t : Tables) (js ks : List Nat) : readCalls t (js ++ ks) = readCalls t js ++ readCalls t ks := by
  rw [readCalls, List.filter_append, List.map_append, readCalls, readCalls]

/-- The integer of every slot of a list is known (R183). -/
def IntegersKnown (c : Cfg) (cells : List Word) (t : Tables) (js : List Nat) : Prop :=
  ∀ j ∈ js, (sentInteger c cells (slotAt t j)).isSome = true

/-- A bit of the payload lies in a field of one of the slots, or one of them straddles. -/
def Reachable (t : Tables) (js : List Nat) (k : Nat) : Prop :=
  ∃ j ∈ js, straddling (slotAt t j) = true ∨ covers (slotAt t j) k

/-- PACK of a field in one word inserts some integer after one read of the store, and the known one, without a draw, where the
integer is known (R183, U7). -/
theorem packSlot_inserts (p : Payload) {b : Slot} (s : State) (hb : straddling b = false) :
    ∃ n d, packSlot p b s = (insertInto p b n, s.afterCalls d [.psGetFloat b.param]) ∧
      ∀ v, sentInteger s.cfg s.store b = some v → n = v ∧ d = s.draws := by
  cases hv : sentInteger s.cfg s.store b with
  | none =>
    obtain ⟨d₁, -, hread⟩ := psGetFloat_frame b.param s
    obtain ⟨d₂, -, hdraw⟩ := wordOrDraw_snd (f32TruncI32 (packScaled b (psGetFloat b.param s).1)) (psGetFloat b.param s).2
    rw [packSlot, if_neg (by simp [hb])]
    dsimp only
    rw [hdraw, hread]
    exact ⟨_, d₂, rfl, nofun⟩
  | some n =>
    simp only [sentInteger, hb, Bool.false_eq_true, if_false, Option.bind_eq_some_iff] at hv
    obtain ⟨v, hv, hn⟩ := hv
    exact ⟨n, s.draws, packSlot_one_word p hb hv hn, fun _ h => ⟨Option.some.inj h, rfl⟩⟩

/-- PACK keeps every bit that is set, and every bit outside the binding's field (R183, U7). -/
theorem insertInto_keeps (p : Payload) (n : Word) {b : Slot} (hb : straddling b = false) {k : Nat} (hk : k < 64) :
    (p.value.getLsbD k = true → (insertInto p b n).value.getLsbD k = true) ∧
      (¬ covers b k → (insertInto p b n).value.getLsbD k = p.value.getLsbD k) := by
  rw [insertInto_getLsbD p n hb hk]
  refine ⟨fun h => by rw [h, Bool.true_or], fun h => ?_⟩
  rw [covers] at h
  rw [decide_eq_false h, Bool.false_and, Bool.or_false]

/-- Settles O34: whatever the integer is, it is inserted into the field. -/
theorem packKeepsBitsOutsideField : Obligations.PackKeepsBitsOutsideField := by
  intro t0 j s hs hj b hused hb
  obtain ⟨n, d, h, -⟩ := packSlot_inserts t0 s hb
  refine ⟨_, insertInto t0 b n, exec_pack_eq t0 hs hj, ?_, fun k hk => insertInto_keeps t0 n hb hk⟩
  rw [packAt_used t0 hused, h]

/-! ## PACK of a chain -/

/-- What PACK of a list of slots makes of a frame `p` from a state `s`, with the count of draws that it leaves (R183, R184). -/
structure Packed (s : State) (js : List Nat) (p p' : Payload) (d : Nat) : Prop where
  bits : ∀ k, k < 64 → p'.value.getLsbD k = true → p.value.getLsbD k = true ∨ Reachable s.tables js k
  known : IntegersKnown s.cfg s.store s.tables js → p' = js.foldl (insertKnown s.cfg s.store s.tables) p ∧ d = s.draws

/-- PACK of one used slot. -/
theorem packAt_packed (p : Payload) {j : Nat} {s : State} (hu : slotUsed (slotAt s.tables j) = true) :
    ∃ p' d, packAt p j s = (p', s.afterCalls d (readCalls s.tables [j])) ∧ Packed s [j] p p' d := by
  have hmem : j ∈ [j] := List.mem_singleton_self j
  rw [packAt_used p hu]
  cases hb : straddling (slotAt s.tables j) with
  | true =>
    rw [packSlot_straddling p s hb, readCalls_straddling hb, ← State.afterCalls_nil]
    refine ⟨_, s.draws + 2, rfl, fun k _ _ => .inr ⟨j, hmem, .inl hb⟩, fun h => ?_⟩
    simpa [sentInteger, hb] using h j hmem
  | false =>
    obtain ⟨n, d, h, hknown⟩ := packSlot_inserts p s hb
    rw [h, readCalls_one_word hb]
    refine ⟨_, d, rfl, fun k hk hbit => ?_, fun hk => ?_⟩
    · by_cases hc : covers (slotAt s.tables j) k
      · exact .inr ⟨j, hmem, .inr hc⟩
      · exact .inl (((insertInto_keeps p n hb hk).2 hc).symm.trans hbit)
    · obtain ⟨v, hv⟩ := Option.isSome_iff_exists.mp (hk j hmem)
      obtain ⟨rfl, rfl⟩ := hknown v hv
      exact ⟨by rw [List.foldl_cons, List.foldl_nil, insertKnown, hv, Option.getD_some], rfl⟩

/-- PACK of one list of slots after another. -/
theorem Packed.append {s : State} {js ks : List Nat} {p q r : Payload} {d d' : Nat} {calls : List PortCall}
    (h : Packed s js p q d) (h' : Packed (s.afterCalls d calls) ks q r d') : Packed s (js ++ ks) p r d' where
  bits k hk hbit := by
    rcases h'.bits k hk hbit with hbit | ⟨j, hj, hreach⟩
    · exact (h.bits k hk hbit).imp_right fun ⟨j, hj, hreach⟩ => ⟨j, List.mem_append_left _ hj, hreach⟩
    · exact .inr ⟨j, List.mem_append_right _ hj, hreach⟩
  known hk := by
    obtain ⟨hq, hd⟩ := h.known fun j hj => hk j (List.mem_append_left _ hj)
    obtain ⟨hr, hd'⟩ := h'.known fun j hj => hk j (List.mem_append_right _ hj)
    exact ⟨by rw [List.foldl_append, ← hq]; exact hr, hd'.trans hd⟩

/-- PACK of a list of used slots. -/
theorem packChain_packed {js : List Nat} (p : Payload) {s : State} (hu : ∀ j ∈ js, slotUsed (slotAt s.tables j) = true) :
    ∃ p' d, packChain js p s = (p', s.afterCalls d (readCalls s.tables js)) ∧ Packed s js p p' d := by
  induction js generalizing p s with
  | nil => exact ⟨p, s.draws, by simp [packChain, readCalls, State.afterCalls], fun _ _ => .inl, fun _ => ⟨rfl, rfl⟩⟩
  | cons j js ih =>
    obtain ⟨hj, hjs⟩ := List.forall_mem_cons.mp hu
    obtain ⟨q, d, hfirst, hpacked⟩ := packAt_packed p hj
    obtain ⟨r, d', hrest, hpacked'⟩ := ih q (s := s.afterCalls d (readCalls s.tables [j])) hjs
    refine ⟨r, d', ?_, hpacked.append hpacked'⟩
    rw [packChain, hfirst]
    dsimp only
    rw [hrest, State.afterCalls_afterCalls]
    exact congrArg (fun calls => (r, s.afterCalls d' calls)) (readCalls_append s.tables [j] js).symm

/-! ## SEND_SWEEP -/

/-- A frame that the sweep may send for an entry: bits in the fields of the entry's chain only, and the frame of the known
integers where they are known (R184, R189). -/
def FrameFits (c : Cfg) (cells : List Word) (t : Tables) (e : Entry) (p : Payload) : Prop :=
  (∀ k, k < 64 → p.value.getLsbD k = true → Reachable t (chain t e.head) k) ∧
    (IntegersKnown c cells t (chain t e.head) → p = sentFrame c cells t (chain t e.head))

/-- The sweep at a used entry: a frame that fits, after the reads of the store for its chain, and then the other entries. -/
theorem sweepEntries_used {e : Entry} (es : List Entry) (s : State) (hu : entryUsed e = true) :
    ∃ d p, sweepEntries (e :: es) s = sweepEntries es (s.afterCalls d (sweepCalls s.tables e p)) ∧
      FrameFits s.cfg s.store s.tables e p ∧ (IntegersKnown s.cfg s.store s.tables (chain s.tables e.head) → d = s.draws) := by
  obtain ⟨p, d, h, hpacked⟩ :=
    packChain_packed (js := chain s.tables e.head) ⟨0, 0⟩ (s := s) fun j hj => (chain_visits j hj).2
  refine ⟨d, p, ?_, ⟨fun k hk hbit => (hpacked.bits k hk hbit).resolve_left ?_, fun hk => ?_⟩,
    fun hk => (hpacked.known hk).2⟩
  · rw [sweepEntries, if_pos hu, h]
    dsimp only
    rw [btSend_eq]
    exact congrArg _ (State.afterCalls_afterCalls s d d _ [.btSend e.id p.lo p.hi])
  · simp [Payload.value]
  · rw [sentFrame_eq_foldl, (hpacked.known hk).1]

/-- The sweep of a list of entries sends one fitting frame for each used one, in order, after the reads of the store for its
chain, and takes no draw where all integers are known (R189). -/
theorem sweepEntries_frames (es : List Entry) (s : State) :
    ∃ d frames, sweepEntries es s =
        s.afterCalls d (List.zipWith (sweepCalls s.tables) (es.filter entryUsed) frames).flatten ∧
      List.Forall₂ (FrameFits s.cfg s.store s.tables) (es.filter entryUsed) frames ∧
      ((∀ e ∈ es.filter entryUsed, IntegersKnown s.cfg s.store s.tables (chain s.tables e.head)) → d = s.draws) := by
  induction es generalizing s with
  | nil => exact ⟨s.draws, [], by simp [sweepEntries, State.afterCalls], .nil, fun _ => rfl⟩
  | cons e es ih =>
    cases hu : entryUsed e with
    | false =>
      rw [sweepEntries, hu, List.filter_cons_of_neg (by simp [hu])]
      exact ih s
    | true =>
      obtain ⟨d, p, hfirst, hfit, hdraws⟩ := sweepEntries_used es s hu
      obtain ⟨d', frames, hrest, hfits, hdraws'⟩ := ih (s.afterCalls d (sweepCalls s.tables e p))
      rw [List.filter_cons_of_pos hu]
      refine ⟨d', p :: frames, ?_, .cons hfit hfits, fun hk => ?_⟩
      · rw [hfirst, hrest, State.afterCalls_afterCalls]
        rfl
      · obtain ⟨he, hes⟩ := List.forall_mem_cons.mp hk
        exact (hdraws' hes).trans (hdraws he)

/-- SEND_SWEEP sweeps the send table while the gate is open (R189). -/
theorem exec_sendSweep_eq {s : State} (hs : Sound s) (hb : s.busy = false) :
    exec .sendSweep s = .next { sweepEntries s.tables.send s with result := .none } := by
  refine (whenSound_of_sound hs).trans ?_
  rw [hb]
  rfl

/-- Settles O38: the sweep of the send table, entry by entry. -/
theorem sweepSendsEachEntryOnce : Obligations.SweepSendsEachEntryOnce := by
  intro s hs hb
  obtain ⟨d, frames, h, hfit, hdraws⟩ := sweepEntries_frames s.tables.send s
  refine ⟨_, frames, exec_sendSweep_eq hs hb, ?_⟩
  rw [h]
  exact ⟨rfl, hfit, hdraws⟩

end Sys2Proof.Machine
end

section
/-! PROOFS. Rounding of a magnitude to binary32 (R180): the magnitudes as an increasing list of values, and the one that
`f32RoundMag` picks as the nearest of them, the even one of two that are equally near. -/

namespace Sys2Proof.Machine

/-! ## The values of the magnitudes -/

/-- The value that a number of magnitude bits stands for, with no upper end to the exponents: the infinity's bits stand for
`2 ^ 128`, the first number above the finite ones. -/
def gridValue (mag : Nat) : ℚ :=
  ((mag - (mag / 2 ^ 23 - 1) * 2 ^ 23 : Nat) : ℚ) * 2 ^ (((mag / 2 ^ 23 - 1 : Nat) : Int) - 149)

/-- A significand at its scale: a normal one up to the next power of two, or any one at the lowest scale. -/
theorem gridValue_eq {n Q : Nat} (hn : n ≤ 2 ^ 24) (hQ : Q = 0 ∨ 2 ^ 23 ≤ n) :
    gridValue (n + Q * 2 ^ 23) = n * 2 ^ ((Q : Int) - 149) := by
  rcases Nat.eq_or_lt_of_le hn with rfl | hlt
  · have hexp : (2 ^ 24 + Q * 2 ^ 23) / 2 ^ 23 - 1 = Q + 1 := by omega
    have hsig : 2 ^ 24 + Q * 2 ^ 23 - (Q + 1) * 2 ^ 23 = 2 ^ 23 := by omega
    rw [gridValue, hexp, hsig, show ((Q + 1 : Nat) : Int) - 149 = 1 + ((Q : Int) - 149) by omega,
      zpow_add₀ two_ne_zero, zpow_one, ← mul_assoc]
    norm_num
  · have hexp : (n + Q * 2 ^ 23) / 2 ^ 23 - 1 = Q := by omega
    rw [gridValue, hexp, Nat.add_sub_cancel]

/-- Every magnitude is a significand at a scale. -/
theorem exists_significand (mag : Nat) : ∃ n Q, mag = n + Q * 2 ^ 23 ∧ n < 2 ^ 24 ∧ (Q = 0 ∨ 2 ^ 23 ≤ n) :=
  ⟨mag - (mag / 2 ^ 23 - 1) * 2 ^ 23, mag / 2 ^ 23 - 1, by omega, by omega, by omega⟩

/-- The next magnitude is one unit of the scale further on. -/
theorem gridValue_succ {n Q : Nat} (hn : n < 2 ^ 24) (hQ : Q = 0 ∨ 2 ^ 23 ≤ n) :
    gridValue (n + Q * 2 ^ 23 + 1) = gridValue (n + Q * 2 ^ 23) + 2 ^ ((Q : Int) - 149) := by
  rw [Nat.add_right_comm, gridValue_eq (n := n + 1) hn (by omega), gridValue_eq hn.le hQ, Nat.cast_succ, add_mul, one_mul]

/-- The gap above a magnitude is at least a unit of its scale. -/
theorem unit_le_gap_above {n Q : Nat} (hn : n ≤ 2 ^ 24) (hQ : Q = 0 ∨ 2 ^ 23 ≤ n) :
    2 ^ ((Q : Int) - 149) ≤ gridValue (n + Q * 2 ^ 23 + 1) - gridValue (n + Q * 2 ^ 23) := by
  rcases Nat.eq_or_lt_of_le hn with rfl | hlt
  · rw [show 2 ^ 24 + Q * 2 ^ 23 = 2 ^ 23 + (Q + 1) * 2 ^ 23 by omega, gridValue_succ (by decide) (.inr le_rfl),
      add_sub_cancel_left]
    exact zpow_le_zpow_right₀ one_le_two (by omega)
  · rw [gridValue_succ hlt hQ, add_sub_cancel_left]

/-- Larger magnitudes have larger values. -/
theorem gridValue_strictMono : StrictMono gridValue := by
  refine strictMono_nat_of_lt_succ fun mag => ?_
  obtain ⟨n, Q, rfl, hn, hQ⟩ := exists_significand mag
  rw [gridValue_succ hn hQ]
  exact lt_add_of_pos_right _ (by positivity)

/-- No magnitude is negative. -/
theorem gridValue_nonneg (mag : Nat) : 0 ≤ gridValue mag := by
  rw [gridValue]
  positivity

/-- Zero is a magnitude. -/
theorem gridValue_zero : gridValue 0 = 0 := by
  rw [gridValue, Nat.zero_sub, Nat.cast_zero, zero_mul]

/-! ## The nearest of an increasing list of values -/

/-- `R` is the magnitude nearest to `v`, and an even one if another is equally near (R180). -/
structure NearestMag (v : ℚ) (R : Nat) : Prop where
  closest : ∀ x, |gridValue R - v| ≤ |gridValue x - v|
  even : ∀ x, x ≠ R → |gridValue R - v| = |gridValue x - v| → R % 2 = 0

/-- A magnitude is the nearest one if `v` is not beyond the middle of the gap above it, nor of the gap below it, and the
magnitude is even where `v` is in such a middle. -/
theorem nearestMag_of_gaps {v : ℚ} {R : Nat} (hup : 2 * (v - gridValue R) ≤ gridValue (R + 1) - gridValue R)
    (hdown : ∀ P, P + 1 = R → 2 * (gridValue R - v) ≤ gridValue R - gridValue P)
    (hupEven : 2 * (v - gridValue R) = gridValue (R + 1) - gridValue R → R % 2 = 0)
    (hdownEven : ∀ P, P + 1 = R → 2 * (gridValue R - v) = gridValue R - gridValue P → R % 2 = 0) :
    NearestMag v R := by
  have key (x : Nat) (hx : x ≠ R) :
      |gridValue R - v| ≤ |gridValue x - v| ∧ (|gridValue R - v| = |gridValue x - v| → R % 2 = 0) := by
    rcases Nat.lt_or_gt_of_ne hx with hlt | hgt
    · obtain ⟨P, rfl⟩ : ∃ P, R = P + 1 := ⟨R - 1, by omega⟩
      have hxP : gridValue x ≤ gridValue P := gridValue_strictMono.monotone (by omega)
      have hPR : gridValue P < gridValue (P + 1) := gridValue_strictMono (Nat.lt_succ_self P)
      have h := hdown P rfl
      have hdist : |gridValue x - v| = v - gridValue x := by
        rw [abs_sub_comm, abs_of_nonneg]
        linarith
      rw [hdist]
      refine ⟨abs_le.mpr ⟨by linarith, by linarith⟩, fun heq => hdownEven P rfl ?_⟩
      rcases abs_cases (gridValue (P + 1) - v) with ⟨habs, -⟩ | ⟨habs, -⟩ <;> linarith
    · have hxR : gridValue (R + 1) ≤ gridValue x := gridValue_strictMono.monotone hgt
      have hRR : gridValue R < gridValue (R + 1) := gridValue_strictMono (Nat.lt_succ_self R)
      have hdist : |gridValue x - v| = gridValue x - v := abs_of_nonneg (by linarith)
      rw [hdist]
      refine ⟨abs_le.mpr ⟨by linarith, by linarith⟩, fun heq => hupEven ?_⟩
      rcases abs_cases (gridValue R - v) with ⟨habs, -⟩ | ⟨habs, -⟩ <;> linarith
  refine ⟨fun x => ?_, fun x hx => (key x hx).2⟩
  by_cases hx : x = R
  · rw [hx]
  · exact (key x hx).1

/-- Zero is nearest to zero. -/
theorem nearestMag_zero : NearestMag 0 0 where
  closest x := by simp [gridValue_zero]
  even _ _ _ := rfl

/-! ## Rounding to an integer -/

/-- `n` is the natural number nearest to `t`, the even one of two that are equally near. -/
structure RoundsHalfEven (t : ℚ) (n : Nat) : Prop where
  above : 2 * (t - n) ≤ 1
  below : 2 * (n - t) ≤ 1
  aboveEven : 2 * (t - n) = 1 → n % 2 = 0
  belowEven : 2 * (n - t) = 1 → n % 2 = 0

/-- A natural number is its own rounding. -/
theorem roundsHalfEven_natCast (n : Nat) : RoundsHalfEven n n := by
  constructor <;> norm_num

/-- The rounding of a quotient in natural numbers: twice the distance to the dividend is at most the divisor, and a tie has
gone to the even number. -/
theorem roundNearestEven_mul (m s : Nat) :
    2 * m ≤ 2 * (roundNearestEven m s * 2 ^ s) + 2 ^ s ∧ 2 * (roundNearestEven m s * 2 ^ s) ≤ 2 * m + 2 ^ s ∧
      (2 * m = 2 * (roundNearestEven m s * 2 ^ s) + 2 ^ s ∨ 2 * (roundNearestEven m s * 2 ^ s) = 2 * m + 2 ^ s →
        roundNearestEven m s % 2 = 0) := by
  have hdiv : m / 2 ^ s * 2 ^ s + m % 2 ^ s = m := Nat.div_add_mod' m (2 ^ s)
  have hmod : m % 2 ^ s < 2 ^ s := Nat.mod_lt _ (Nat.two_pow_pos s)
  simp only [roundNearestEven, Bool.or_eq_true, Bool.and_eq_true, decide_eq_true_eq]
  generalize 2 ^ s = N at *
  generalize m % N = r at *
  generalize m / N = k at *
  split
  · rw [Nat.add_mul, Nat.one_mul]
    generalize k * N = p at *
    omega
  · generalize k * N = p at *
    omega

/-- `roundNearestEven` rounds a quotient to nearest even. -/
theorem roundsHalfEven_roundNearestEven (m s : Nat) : RoundsHalfEven ((m : ℚ) / 2 ^ s) (roundNearestEven m s) := by
  obtain ⟨habove, hbelow, heven⟩ := roundNearestEven_mul m s
  generalize roundNearestEven m s = n at *
  have hpos : (0 : ℚ) < 2 ^ s := by positivity
  have hm : (m : ℚ) = m / 2 ^ s * 2 ^ s := (div_mul_cancel₀ _ hpos.ne').symm
  generalize (m : ℚ) / 2 ^ s = t at *
  have scaled {x : ℚ} : x * 2 ^ s ≤ 1 * 2 ^ s ↔ x ≤ 1 := mul_le_mul_iff_left₀ hpos
  refine ⟨scaled.mp ?_, scaled.mp ?_, fun h => heven (.inl ?_), fun h => heven (.inr ?_)⟩
  · have : (2 : ℚ) * m ≤ 2 * (n * 2 ^ s) + 2 ^ s := by exact_mod_cast habove
    linarith
  · have : (2 : ℚ) * (n * 2 ^ s) ≤ 2 * m + 2 ^ s := by exact_mod_cast hbelow
    linarith
  · have : (2 : ℚ) * m = 2 * (n * 2 ^ s) + 2 ^ s := by
      linear_combination 2 * hm + 2 ^ s * h
    exact_mod_cast this
  · have : (2 : ℚ) * (n * 2 ^ s) = 2 * m + 2 ^ s := by
      linear_combination -2 * hm + 2 ^ s * h
    exact_mod_cast this

/-! ## Rounding to a magnitude -/

/-- A significand rounded to an integer gives the nearest magnitude: the gaps around it are those of its scale, but for the
gap below a power of two, where nothing is rounded up. -/
theorem nearestMag_of_significand {t : ℚ} {n Q : Nat} (h : RoundsHalfEven t n) (ht0 : 0 ≤ t) (ht : t < 2 ^ 24)
    (hQ : Q = 0 ∨ 2 ^ 23 ≤ t) : NearestMag (t * 2 ^ ((Q : Int) - 149)) (n + Q * 2 ^ 23) := by
  obtain ⟨habove, hbelow, haboveEven, hbelowEven⟩ := h
  have hu : (0 : ℚ) < 2 ^ ((Q : Int) - 149) := by positivity
  have hn : n ≤ 2 ^ 24 := by
    have : (n : ℚ) < (2 ^ 24 + 1 : Nat) := by
      push_cast
      linarith
    exact Nat.lt_succ_iff.mp (by exact_mod_cast this)
  have hQn : Q = 0 ∨ 2 ^ 23 ≤ n := hQ.imp_right fun hlo => by
    have : ((2 ^ 23 : Nat) : ℚ) < (n + 1 : Nat) := by
      push_cast
      linarith
    exact Nat.lt_succ_iff.mp (by exact_mod_cast this)
  have hparity : (n + Q * 2 ^ 23) % 2 = n % 2 := by omega
  have hvalue := gridValue_eq hn hQn
  have hgapUp := unit_le_gap_above hn hQn
  have hdown : ∀ P, P + 1 = n + Q * 2 ^ 23 → t < n →
      gridValue (n + Q * 2 ^ 23) - gridValue P = 2 ^ ((Q : Int) - 149) := fun P hP htn => by
    have hQP : Q = 0 ∨ 2 ^ 23 < n := hQ.imp_right fun hlo => by exact_mod_cast hlo.trans_lt htn
    have hn0 : 0 < n := by exact_mod_cast (ht0.trans_lt htn)
    rw [← hP, show P = (n - 1) + Q * 2 ^ 23 by omega, gridValue_succ (by omega) (by omega)]
    ring
  have hbelowGap {P : Nat} (hP : P + 1 = n + Q * 2 ^ 23) : gridValue P < gridValue (n + Q * 2 ^ 23) :=
    gridValue_strictMono (by omega)
  generalize (2 : ℚ) ^ ((Q : Int) - 149) = u at *
  refine nearestMag_of_gaps ?_ (fun P hP => ?_) (fun h => hparity.trans (haboveEven ?_))
    fun P hP h => hparity.trans (hbelowEven ?_)
  · nlinarith
  · by_cases htn : t < n
    · rw [hdown P hP htn]
      nlinarith
    · have := hbelowGap hP
      nlinarith
  · refine le_antisymm habove (le_of_mul_le_mul_right ?_ hu)
    linarith
  · by_cases htn : t < n
    · rw [hdown P hP htn, hvalue] at h
      exact mul_right_cancel₀ hu.ne' (by linarith)
    · have := hbelowGap hP
      nlinarith

end Sys2Proof.Machine
end

section
/-! PROOFS. A rounded magnitude as a binary32 number (R180): where it overflows, which sign it has, and that no finite number
of either sign is nearer. -/

namespace Sys2Proof.Machine

/-! ## `f32RoundMag` picks the nearest magnitude -/

/-- The magnitude that `f32RoundMag` rounds to before it cuts it at the infinity. -/
def roundGrid (m : Nat) (e : Int) : Nat :=
  if m = 0 then 0
  else
    let q := max ((Nat.log2 m : Int) + e - 23) (-149)
    (if q ≤ e then m * 2 ^ (e - q).toNat else roundNearestEven m (q - e).toNat) + (q + 149).toNat * 2 ^ 23

/-- `f32RoundMag` cuts the rounded magnitude at the infinity. -/
theorem f32RoundMag_eq_min (m : Nat) (e : Int) : f32RoundMag m e = min (roundGrid m e) 0x7F800000 := by
  unfold f32RoundMag roundGrid
  split <;> rfl

/-- The significand of `m * 2 ^ e` at the scale `q`, rounded to an integer. -/
theorem roundsHalfEven_significand (m : Nat) (e q : Int) :
    RoundsHalfEven ((m : ℚ) * 2 ^ (e - q)) (if q ≤ e then m * 2 ^ (e - q).toNat else roundNearestEven m (q - e).toNat) := by
  split
  · rename_i h
    obtain ⟨s, hs⟩ := Int.eq_ofNat_of_zero_le (sub_nonneg.mpr h)
    rw [hs, Int.toNat_natCast, zpow_natCast]
    exact_mod_cast roundsHalfEven_natCast (m * 2 ^ s)
  · rename_i h
    obtain ⟨s, hs⟩ := Int.eq_ofNat_of_zero_le (sub_nonneg.mpr (le_of_not_ge h))
    rw [hs, Int.toNat_natCast, ← neg_sub, hs, zpow_neg, zpow_natCast, ← div_eq_mul_inv]
    exact roundsHalfEven_roundNearestEven m s

/-- A significand is below the power of two after its leading bit. -/
theorem significand_lt {m : Nat} {e q : Int} {k : Nat} (h : (m.log2 : Int) + e + 1 - q ≤ k) :
    (m : ℚ) * 2 ^ (e - q) < 2 ^ k := by
  have hm : (m : ℚ) < 2 ^ (m.log2 + 1 : Int) := by exact_mod_cast Nat.lt_log2_self
  calc (m : ℚ) * 2 ^ (e - q) < 2 ^ (m.log2 + 1 : Int) * 2 ^ (e - q) := mul_lt_mul_of_pos_right hm (by positivity)
    _ = 2 ^ ((m.log2 : Int) + 1 + (e - q)) := (zpow_add₀ two_ne_zero _ _).symm
    _ ≤ 2 ^ (k : Int) := zpow_le_zpow_right₀ one_le_two (by omega)
    _ = 2 ^ k := zpow_natCast 2 k

/-- A significand is at least the power of two of its leading bit. -/
theorem le_significand {m : Nat} {e q : Int} {k : Nat} (hm : m ≠ 0) (h : (m.log2 : Int) + e - q = k) :
    2 ^ k ≤ (m : ℚ) * 2 ^ (e - q) := by
  have hm : (2 : ℚ) ^ (m.log2 : Int) ≤ m := by exact_mod_cast Nat.log2_self_le hm
  calc (2 : ℚ) ^ k = 2 ^ ((m.log2 : Int) + (e - q)) := by rw [← zpow_natCast, ← h, add_sub_assoc]
    _ = 2 ^ (m.log2 : Int) * 2 ^ (e - q) := zpow_add₀ two_ne_zero _ _
    _ ≤ m * 2 ^ (e - q) := mul_le_mul_of_nonneg_right hm (by positivity)

/-- The magnitude picked is the nearest one to `m * 2 ^ e`. -/
theorem nearestMag_roundGrid (m : Nat) (e : Int) : NearestMag ((m : ℚ) * 2 ^ e) (roundGrid m e) := by
  by_cases hm : m = 0
  · rw [roundGrid, if_pos hm, hm, Nat.cast_zero, zero_mul]
    exact nearestMag_zero
  rw [roundGrid, if_neg hm]
  dsimp only
  generalize hq : max ((m.log2 : Int) + e - 23) (-149) = q
  have hQ : ((q + 149).toNat : Int) - 149 = q := by omega
  have hsplit : (m : ℚ) * 2 ^ e = m * 2 ^ (e - q) * 2 ^ (((q + 149).toNat : Int) - 149) := by
    rw [hQ, mul_assoc, ← zpow_add₀ two_ne_zero, sub_add_cancel]
  rw [hsplit]
  refine nearestMag_of_significand (roundsHalfEven_significand m e q) (by positivity) (significand_lt (by omega)) ?_
  rcases max_choice ((m.log2 : Int) + e - 23) (-149) with hnormal | hlowest
  · exact .inr (le_significand hm (by omega))
  · exact .inl (by omega)

/-! ## A binary32 number as a sign and a magnitude -/

/-- The 31 magnitude bits. -/
def f32Mag (a : F32) : Nat := a.toNat % 2 ^ 31

/-- A sign as a factor. -/
def signOf (neg : Bool) : ℚ := if neg then -1 else 1

/-- There are 31 magnitude bits. -/
theorem f32Mag_lt (a : F32) : f32Mag a < 2 ^ 31 := Nat.mod_lt _ (by decide)

/-- A number is its sign and its magnitude. -/
theorem f32OfMag_f32Mag (a : F32) : f32OfMag (f32Neg a) (f32Mag a) = a := by
  have hneg : f32Neg a = decide (2 ^ 31 ≤ a.toNat) := by
    rw [f32Neg, ← BitVec.msb_eq_getLsbD_last a, BitVec.msb_eq_decide]
  have := a.isLt
  refine BitVec.eq_of_toNat_eq ?_
  rw [f32OfMag_toNat (f32Mag_lt a), hneg, f32Mag]
  simp only [decide_eq_true_iff]
  split <;> omega

section
variable (neg : Bool) {mag : Nat} (h : mag < 2 ^ 31)
include h

/-- The magnitude of a number made of sign and magnitude. -/
theorem f32Mag_f32OfMag : f32Mag (f32OfMag neg mag) = mag := by
  rw [f32Mag, f32OfMag_toNat h]
  split <;> omega

/-- The NaNs are the magnitudes above the infinity. -/
theorem f32IsNaN_f32OfMag : f32IsNaN (f32OfMag neg mag) = decide (0x7F800000 < mag) := by
  rw [f32IsNaN, f32Exp_f32OfMag neg h, f32Frac_f32OfMag neg h, ← Bool.decide_and]
  exact decide_eq_decide.mpr (by omega)

/-- The magnitude of an infinity. -/
theorem f32IsInf_f32OfMag : f32IsInf (f32OfMag neg mag) = decide (mag = 0x7F800000) := by
  rw [f32IsInf, f32Exp_f32OfMag neg h, f32Frac_f32OfMag neg h, ← Bool.decide_and]
  exact decide_eq_decide.mpr (by omega)

/-- The value of a number made of sign and magnitude. -/
theorem f32Value_f32OfMag : f32Value (f32OfMag neg mag) = signOf neg * gridValue mag := by
  rw [f32Value, f32Neg_f32OfMag neg h, f32Sig, f32Scale, f32Exp_f32OfMag neg h, f32Frac_f32OfMag neg h, signOf, mul_assoc]
  congr 1
  split
  · rename_i hexp
    rw [← Nat.add_zero mag, ← Nat.zero_mul (2 ^ 23), gridValue_eq (by omega) (.inl rfl), Nat.zero_mul, Nat.add_zero,
      Nat.mod_eq_of_lt (by omega), Nat.cast_zero, zero_sub]
  · rename_i hexp
    have hmag : mag = (mag % 2 ^ 23 + 2 ^ 23) + (mag / 2 ^ 23 - 1) * 2 ^ 23 := by omega
    conv_rhs => rw [hmag, gridValue_eq (by omega) (by omega)]
    congr 2
    omega

/-- The last bit of a number made of sign and magnitude. -/
theorem f32OfMag_getLsbD_zero : (f32OfMag neg mag).getLsbD 0 = decide (mag % 2 = 1) := by
  rw [BitVec.getLsbD, f32OfMag_toNat h, Nat.testBit_zero]
  split <;> exact decide_eq_decide.mpr (by omega)

end

/-- The value of a number from its sign and its magnitude. -/
theorem f32Value_eq (a : F32) : f32Value a = signOf (f32Neg a) * gridValue (f32Mag a) := by
  rw [← f32Value_f32OfMag _ (f32Mag_lt a), f32OfMag_f32Mag]

/-- A number is finite exactly if its magnitude is below the infinity's. -/
theorem finite_iff (a : F32) : (f32IsNaN a = false ∧ f32IsInf a = false) ↔ f32Mag a < 0x7F800000 := by
  rw [← f32OfMag_f32Mag a, f32IsNaN_f32OfMag _ (f32Mag_lt a), f32IsInf_f32OfMag _ (f32Mag_lt a),
    f32Mag_f32OfMag _ (f32Mag_lt a), decide_eq_false_iff_not, decide_eq_false_iff_not]
  omega

/-- A sign does not change a magnitude. -/
theorem abs_signOf_mul (neg : Bool) (x : ℚ) : |signOf neg * x| = |x| := by
  cases neg <;> simp [signOf]

/-! ## Overflow -/

/-- The infinity's magnitude. -/
theorem gridValue_inf : gridValue 0x7F800000 = 2 ^ 128 := by
  refine (gridValue_eq (n := 2 ^ 23) (Q := 254) (by decide) (by decide)).trans ?_
  norm_num

/-- The largest finite magnitude. -/
theorem gridValue_maxFinite : gridValue 0x7F7FFFFF = 2 ^ 128 - 2 ^ 104 := by
  refine (gridValue_eq (n := 2 ^ 24 - 1) (Q := 253) (by decide) (by decide)).trans ?_
  norm_num

/-- The nearest magnitude is beyond the finite ones exactly from half a unit above the largest of them on: the tie there goes
up, to the even one. -/
theorem NearestMag.overflow_iff {v : ℚ} {R : Nat} (h : NearestMag v R) :
    0x7F800000 ≤ R ↔ (2 : ℚ) ^ 128 - 2 ^ 103 ≤ v := by
  have hmax := h.closest 0x7F7FFFFF
  have hinf := h.closest 0x7F800000
  rw [gridValue_maxFinite] at hmax
  rw [gridValue_inf] at hinf
  constructor
  · intro hR
    by_contra hv
    have hge : (2 : ℚ) ^ 128 ≤ gridValue R := gridValue_inf ▸ gridValue_strictMono.monotone hR
    rw [abs_of_pos (by linarith)] at hmax
    rcases abs_cases ((2 : ℚ) ^ 128 - 2 ^ 104 - v) with ⟨habs, -⟩ | ⟨habs, -⟩ <;> linarith
  · intro hv
    by_contra hR
    have hle : gridValue R ≤ 2 ^ 128 - 2 ^ 104 := gridValue_maxFinite ▸ gridValue_strictMono.monotone (by omega)
    rw [abs_sub_comm, abs_of_pos (by linarith)] at hinf
    rcases abs_cases ((2 : ℚ) ^ 128 - v) with ⟨habs, -⟩ | ⟨habs, -⟩
    · have hR' : gridValue R = gridValue 0x7F7FFFFF := by
        rw [gridValue_maxFinite]
        linarith
      obtain rfl := gridValue_strictMono.injective hR'
      have heven := h.even 0x7F800000 (by decide)
      rw [gridValue_maxFinite, gridValue_inf, abs_sub_comm, abs_of_pos (by linarith), habs] at heven
      exact absurd (heven (by linarith)) (by decide)
    · linarith

/-! ## Rounding with a sign -/

/-- The distance of the magnitudes is at most that of the numbers with their signs. -/
theorem abs_sub_le_of_signs (neg neg' : Bool) {x v : ℚ} (hx : 0 ≤ x) (hv : 0 ≤ v) :
    |x - v| ≤ |signOf neg' * x - signOf neg * v| := by
  have hsame : |-x + v| = |x - v| := by rw [← abs_neg, neg_add, neg_neg, sub_eq_add_neg]
  have hother : |-x - v| = |x + v| := by rw [← abs_neg, neg_sub, sub_neg_eq_add, add_comm]
  have hsum : |x - v| ≤ |x + v| := by
    rw [abs_of_nonneg (add_nonneg hx hv)]
    exact abs_le.mpr ⟨by linarith, by linarith⟩
  cases neg <;> cases neg' <;> simp [signOf, hsame, hother, hsum]

/-- Where the two distances are the same, the signs agree, or one of the numbers is zero. -/
theorem signs_agree_of_abs_sub_eq {neg neg' : Bool} {x v : ℚ} (hx : 0 ≤ x) (hv : 0 ≤ v)
    (h : |x - v| = |signOf neg' * x - signOf neg * v|) : neg' = neg ∨ x = 0 ∨ v = 0 := by
  by_cases hsign : neg' = neg
  · exact .inl hsign
  have hsum : |signOf neg' * x - signOf neg * v| = x + v := by
    rw [← abs_of_nonneg (add_nonneg hx hv), ← abs_signOf_mul neg' (x + v)]
    cases neg <;> cases neg' <;> simp_all [signOf, sub_eq_add_neg, add_comm]
  rw [hsum] at h
  rcases abs_cases (x - v) with ⟨habs, -⟩ | ⟨habs, -⟩
  · exact .inr (.inr (by linarith))
  · exact .inr (.inl (by linarith))

/-- The nearest magnitude, cut at the infinity, with the sign of the exact value is what the value rounds to. -/
theorem roundsTo_of_nearest (neg : Bool) {v : ℚ} {R : Nat} (hv : 0 ≤ v) (h : NearestMag v R) :
    RoundsTo (signOf neg * v) (f32OfMag neg (min R 0x7F800000)) := by
  have hmag : min R 0x7F800000 < 2 ^ 31 := by omega
  rw [RoundsTo, f32IsNaN_f32OfMag neg hmag, f32IsInf_f32OfMag neg hmag, f32Neg_f32OfMag neg hmag, abs_signOf_mul,
    abs_of_nonneg hv, ← h.overflow_iff, decide_eq_false_iff_not, decide_eq_true_iff, decide_eq_false_iff_not]
  refine ⟨by omega, by omega, fun hq => ?_, fun hfinite x hnan hinf => ?_⟩
  · have hpos : 0 < v := lt_of_le_of_ne hv fun h0 => hq (by rw [← h0, mul_zero])
    cases neg <;> simp [signOf, hpos, hv]
  · have hR : min R 0x7F800000 = R := by omega
    rw [hR] at hmag ⊢
    rw [f32Value_f32OfMag neg hmag, f32Value_eq x, f32OfMag_getLsbD_zero neg hmag, ← mul_sub, abs_signOf_mul]
    have hle := abs_sub_le_of_signs neg (f32Neg x) (gridValue_nonneg (f32Mag x)) hv
    refine ⟨(h.closest _).trans hle, fun heq hne => decide_eq_false ?_⟩
    by_cases hx : f32Mag x = R
    · rw [hx] at heq hne
      rcases signs_agree_of_abs_sub_eq (gridValue_nonneg R) hv heq with hsign | hzero | hzero
      · exact absurd (by rw [hsign]) hne
      · exact absurd (by rw [hzero, mul_zero, mul_zero]) hne
      · have := h.closest 0
        rw [hzero, gridValue_zero, sub_zero, sub_zero, abs_zero, abs_nonpos_iff] at this
        exact absurd (by rw [this, mul_zero, mul_zero]) hne
    · have := h.even _ hx (le_antisymm (h.closest _) (heq ▸ hle))
      omega

/-- A magnitude rounded by `f32RoundMag`, with the sign of the exact value. -/
theorem roundsTo_f32RoundMag (neg : Bool) (m : Nat) (e : Int) :
    RoundsTo (signOf neg * (m * 2 ^ e)) (f32OfMag neg (f32RoundMag m e)) := by
  rw [f32RoundMag_eq_min]
  exact roundsTo_of_nearest neg (by positivity) (nearestMag_roundGrid m e)

/-- A zero of either sign is what zero rounds to. -/
theorem roundsTo_zero (neg : Bool) : RoundsTo 0 (f32OfMag neg 0) := by
  have h := roundsTo_of_nearest neg le_rfl nearestMag_zero
  rwa [mul_zero] at h

end Sys2Proof.Machine
end

section
/-! PROOFS. The operations of binary32 compute exactly and round once (R180), and truncation drops the fraction (R181). -/

namespace Sys2Proof.Machine

/-! ## Conversion, sum and product -/

/-- An integer is its sign and its magnitude. -/
theorem signOf_mul_natAbs (k : Int) : signOf (decide (k < 0)) * (k.natAbs : ℚ) = k := by
  rw [Nat.cast_natAbs]
  rcases lt_or_ge k 0 with h | h
  · simp [signOf, h, abs_of_neg h]
  · simp [signOf, Int.not_lt.mpr h, abs_of_nonneg h]

/-- The conversion of a scaled integer rounds it (R180). -/
theorem roundsTo_f32OfScaled (k e : Int) : RoundsTo ((k : ℚ) * 2 ^ e) (f32OfScaled k e) := by
  rw [← signOf_mul_natAbs k, mul_assoc]
  exact roundsTo_f32RoundMag _ _ _

/-- The value of a number as its signed significand at a scale not above its own. -/
theorem f32IntAt_mul {a : F32} {e : Int} (h : e ≤ f32Scale a) : (f32IntAt a e : ℚ) * 2 ^ e = f32Value a := by
  obtain ⟨s, hs⟩ := Int.eq_ofNat_of_zero_le (sub_nonneg.mpr h)
  have hscale : (2 : ℚ) ^ f32Scale a = 2 ^ s * 2 ^ e := by
    rw [← zpow_natCast, ← zpow_add₀ two_ne_zero, ← hs, sub_add_cancel]
  rw [f32IntAt, f32Value, hs, Int.toNat_natCast, hscale]
  cases f32Neg a
  · push_cast
    simp [mul_assoc]
  · push_cast
    simp [mul_assoc]

/-- The product of two signs. -/
theorem signOf_mul_signOf (neg neg' : Bool) : signOf neg * signOf neg' = signOf (neg != neg') := by
  cases neg <;> cases neg' <;> simp [signOf]

/-- The product of two values in terms of signs, significands and scales. -/
theorem f32Value_mul (a b : F32) :
    f32Value a * f32Value b =
      signOf (f32Neg a != f32Neg b) * ((f32Sig a * f32Sig b : Nat) * 2 ^ (f32Scale a + f32Scale b)) := by
  rw [← signOf_mul_signOf, zpow_add₀ two_ne_zero, Nat.cast_mul, f32Value, f32Value, signOf, signOf]
  ring

section
variable {a b : F32} (hna : f32IsNaN a = false) (hia : f32IsInf a = false) (hnb : f32IsNaN b = false)
  (hib : f32IsInf b = false)
include hna hia hnb hib

/-- The sum of two finite numbers rounds once; a zero sum is negative only if both are (R180). -/
theorem f32Add_finite : RoundsTo (f32Value a + f32Value b) (f32Add a b) ∧
    (f32Value a + f32Value b = 0 → f32Neg (f32Add a b) = (f32Neg a && f32Neg b)) := by
  have hsum := congrArg₂ (· + ·) (f32IntAt_mul (min_le_left (f32Scale a) (f32Scale b)))
    (f32IntAt_mul (min_le_right (f32Scale a) (f32Scale b)))
  rw [← add_mul, ← Int.cast_add] at hsum
  simp only [f32Add, hna, hia, hnb, hib, Bool.or_self, Bool.false_eq_true, if_false]
  rw [← hsum]
  split
  · rename_i hk
    rw [hk, Int.cast_zero, zero_mul]
    exact ⟨roundsTo_zero _, fun _ => f32Neg_f32OfMag _ (by decide)⟩
  · rename_i hk
    refine ⟨roundsTo_f32OfScaled _ _, fun h => absurd ?_ hk⟩
    exact_mod_cast (mul_eq_zero.mp h).resolve_right (by positivity)

/-- The product of two finite numbers rounds once, with the sign of the two signs (R180). -/
theorem f32Mul_finite :
    RoundsTo (f32Value a * f32Value b) (f32Mul a b) ∧ f32Neg (f32Mul a b) = (f32Neg a != f32Neg b) := by
  have hlt : f32RoundMag (f32Sig a * f32Sig b) (f32Scale a + f32Scale b) < 2 ^ 31 := by
    rw [f32RoundMag_eq_min]
    omega
  simp only [f32Mul, hna, hia, hnb, hib, Bool.or_self, Bool.false_eq_true, if_false]
  rw [f32Value_mul]
  exact ⟨roundsTo_f32RoundMag _ _ _, f32Neg_f32OfMag _ hlt⟩

end

/-- The value of a magnitude below the infinity's. -/
theorem magValue_eq {mag : Nat} (h : mag < 2 ^ 31) : magValue mag = gridValue mag := by
  rw [magValue, f32Value_f32OfMag false h, signOf, if_neg (by decide), one_mul]

/-- Settles O40: each operation rounds the exact value to the nearest magnitude. -/
theorem roundingIsNearest : Obligations.RoundingIsNearest := by
  refine ⟨fun m e x hr hx => ?_, roundsTo_f32OfScaled, fun a b hna hia hnb hib => ?_⟩
  · have hround := f32RoundMag_eq_min m e
    rw [show f32RoundMag m e = roundGrid m e by omega] at hr ⊢
    rw [magValue_eq (by omega), magValue_eq (by omega)]
    exact (nearestMag_roundGrid m e).closest x
  · obtain ⟨hsum, hzero⟩ := f32Add_finite hna hia hnb hib
    obtain ⟨hprod, hsign⟩ := f32Mul_finite hna hia hnb hib
    exact ⟨hsum, hzero, hprod, hsign⟩

/-! ## Truncation -/

/-- Dropping the fraction does not look at the sign. -/
theorem truncRat_neg (q : ℚ) : truncRat (-q) = -truncRat q := by
  rcases lt_trichotomy q 0 with h | rfl | h
  · rw [truncRat, truncRat, if_pos (by linarith), if_neg (by linarith), Int.floor_neg]
  · simp [truncRat]
  · rw [truncRat, truncRat, if_neg (by linarith), if_pos h.le, Int.ceil_neg]

/-- An integer has no fraction to drop. -/
theorem truncRat_intCast (k : Int) : truncRat k = k := by
  rw [truncRat, Int.floor_intCast, Int.ceil_intCast, ite_self]

/-- The truncation of a finite number drops the fraction of its value (R181). -/
theorem f32TruncScaled_zero (a : F32) : f32TruncScaled a 0 = truncRat (f32Value a) := by
  have hmag : (if 0 ≤ f32Scale a then (f32Sig a : Int) * 2 ^ (f32Scale a).toNat
      else (f32Sig a / 2 ^ (-f32Scale a).toNat : Nat)) = truncRat (f32Sig a * 2 ^ f32Scale a) := by
    have hnonneg : 0 ≤ (f32Sig a : ℚ) * 2 ^ f32Scale a := mul_nonneg (Nat.cast_nonneg _) (by positivity)
    rw [truncRat, if_pos hnonneg]
    split
    · rename_i h
      obtain ⟨s, hs⟩ := Int.eq_ofNat_of_zero_le h
      rw [hs, Int.toNat_natCast, zpow_natCast]
      exact_mod_cast (Int.floor_natCast (f32Sig a * 2 ^ s)).symm
    · rename_i h
      obtain ⟨s, hs⟩ := Int.eq_ofNat_of_zero_le (neg_nonneg.mpr (le_of_not_ge h))
      rw [hs, Int.toNat_natCast, ← neg_neg (f32Scale a), hs, zpow_neg, zpow_natCast, ← div_eq_mul_inv]
      have hfloor := Rat.floor_intCast_div_natCast (f32Sig a) (2 ^ s)
      push_cast at hfloor ⊢
      exact hfloor.symm
  rw [f32TruncScaled, f32Value]
  simp only [add_zero, hmag]
  cases f32Neg a
  · simp
  · simp [truncRat_neg]

/-- Truncation of a finite number gives its integer part where that is an i32, and nothing elsewhere (R181). -/
theorem f32TruncI32_finite {a : F32} (h : f32Exp a ≠ 255) :
    f32TruncI32 a = if -2 ^ 31 ≤ truncRat (f32Value a) ∧ truncRat (f32Value a) ≤ 2 ^ 31 - 1
      then some (BitVec.ofInt 32 (truncRat (f32Value a))) else none := by
  rw [f32TruncI32, f32TruncI32Scaled, if_neg h, f32TruncScaled_zero]

/-- The numbers that are not finite are those with the top exponent. -/
theorem f32Exp_ne_iff (a : F32) : f32Exp a ≠ 255 ↔ f32IsNaN a = false ∧ f32IsInf a = false := by
  simp only [f32IsNaN, f32IsInf, Bool.and_eq_false_iff, decide_eq_false_iff_not]
  tauto

/-- Settles O39: a finite number truncates to its integer part where that is an i32, and no other number truncates. -/
theorem truncationDropsFraction : Obligations.TruncationDropsFraction := by
  refine fun a => ⟨fun hnan hinf hlo hhi => ?_, fun h => ?_⟩
  · rw [f32TruncI32_finite ((f32Exp_ne_iff a).mpr ⟨hnan, hinf⟩), if_pos ⟨hlo, hhi⟩]
  · by_cases hexp : f32Exp a = 255
    · exact if_pos hexp
    · obtain ⟨hnan, hinf⟩ := (f32Exp_ne_iff a).mp hexp
      rw [f32TruncI32_finite hexp, if_neg]
      rw [hnan, hinf] at h
      rintro ⟨hlo, hhi⟩
      rcases h with h | h | h | h
      · exact absurd h (by decide)
      · exact absurd h (by decide)
      · omega
      · omega

end Sys2Proof.Machine
end

section
/-! PROOFS. Where rounding changes nothing (R180): small integers, and an integer that is packed and unpacked with gain 1 and
offset 0 (R185). -/

namespace Sys2Proof.Machine

/-! ## Exact results -/

/-- A number is finite where it is neither a NaN nor an infinity. -/
def F32Finite (a : F32) : Prop := f32IsNaN a = false ∧ f32IsInf a = false

/-- A finite number is smaller than what rounds to an infinity. -/
theorem F32Finite.abs_lt {a : F32} (ha : F32Finite a) : |f32Value a| < 2 ^ 128 - 2 ^ 103 := by
  rw [f32Value_eq, abs_signOf_mul, abs_of_nonneg (gridValue_nonneg _)]
  have hmag := (finite_iff a).mp ha
  calc gridValue (f32Mag a) ≤ gridValue 0x7F7FFFFF := gridValue_strictMono.monotone (by omega)
    _ = 2 ^ 128 - 2 ^ 104 := gridValue_maxFinite
    _ < 2 ^ 128 - 2 ^ 103 := by norm_num

/-- What is small enough is rounded to a finite number. -/
theorem RoundsTo.finite {q : ℚ} {r : F32} (h : RoundsTo q r) (hsmall : |q| < 2 ^ 128 - 2 ^ 103) : F32Finite r :=
  have ⟨hnan, hinf, _⟩ := h
  ⟨hnan, Bool.eq_false_iff.mpr fun hr => absurd (hinf.mp hr) (not_le.mpr hsmall)⟩

/-- What is not zero keeps its sign. -/
theorem RoundsTo.sign {q : ℚ} {r : F32} (h : RoundsTo q r) (hq : q ≠ 0) : f32Neg r = decide (q < 0) :=
  have ⟨_, _, hsign, _⟩ := h
  hsign hq

/-- The value of a finite number is rounded to a finite number with that value. -/
theorem RoundsTo.exact {x r : F32} (h : RoundsTo (f32Value x) r) (hx : F32Finite x) :
    F32Finite r ∧ f32Value r = f32Value x := by
  have hr := h.finite hx.abs_lt
  obtain ⟨-, -, -, hnear⟩ := h
  obtain ⟨hclose, -⟩ := hnear hr.2 x hx.1 hx.2
  rw [sub_self, abs_zero, abs_nonpos_iff, sub_eq_zero] at hclose
  exact ⟨hr, hclose⟩

/-- An integer of at most 24 bits, doubled at most once, is the value of a finite number. -/
theorem f32OfScaled_exact {k e : Int} (hk : k.natAbs < 2 ^ 24) (hlo : 0 ≤ e) (hhi : e ≤ 1) :
    F32Finite (f32OfScaled k e) ∧ f32Value (f32OfScaled k e) = k * 2 ^ e := by
  refine ⟨(roundsTo_f32OfScaled k e).finite ?_, f32Value_f32OfScaled hk (by omega) (by omega)⟩
  have habs : |(k : ℚ)| < 2 ^ 24 := by
    rw [← Int.cast_abs, Int.abs_eq_natAbs]
    exact_mod_cast hk
  have hpow : (2 : ℚ) ^ e ≤ 2 ^ (1 : Int) := zpow_le_zpow_right₀ one_le_two hhi
  calc |(k : ℚ) * 2 ^ e| = |(k : ℚ)| * 2 ^ e := by rw [abs_mul, abs_of_pos (by positivity : (0 : ℚ) < 2 ^ e)]
    _ ≤ 2 ^ 24 * 2 ^ (1 : Int) := by gcongr
    _ < 2 ^ 128 - 2 ^ 103 := by norm_num

/-- Integers up to `2 ^ 24` in magnitude convert exactly (R180). -/
theorem f32OfInt_exact {k : Int} (hlo : -2 ^ 24 ≤ k) (hhi : k ≤ 2 ^ 24) : F32Finite (f32OfInt k) ∧ f32Value (f32OfInt k) = k := by
  by_cases hk : k.natAbs < 2 ^ 24
  · have h := f32OfScaled_exact (e := 0) hk le_rfl zero_le_one
    rwa [zpow_zero, mul_one] at h
  · obtain ⟨hhalf, hvalue⟩ := f32OfScaled_exact (k := k / 2) (e := 1) (by omega) zero_le_one le_rfl
    have hdouble : ((k / 2 : Int) : ℚ) * 2 = k := by exact_mod_cast (show k / 2 * 2 = k by omega)
    rw [zpow_one, hdouble] at hvalue
    have hround := roundsTo_f32OfScaled k 0
    rw [zpow_zero, mul_one, ← hvalue] at hround
    rw [← hvalue]
    exact hround.exact hhalf

/-- The sign of a converted integer. -/
theorem f32Neg_f32OfInt (k : Int) : f32Neg (f32OfInt k) = decide (k < 0) := by
  refine f32Neg_f32OfMag _ ?_
  rw [f32RoundMag_eq_min]
  omega

/-- A number whose value is an integer in the i32 range truncates to it (R181). -/
theorem f32TruncI32_of_value {a : F32} {k : Int} (ha : F32Finite a) (hk : f32Value a = k) (hlo : -2 ^ 31 ≤ k)
    (hhi : k ≤ 2 ^ 31 - 1) : f32TruncI32 a = some (BitVec.ofInt 32 k) := by
  rw [f32TruncI32_finite ((f32Exp_ne_iff a).mpr ha), hk, truncRat_intCast, if_pos ⟨hlo, hhi⟩]

/-- Settles O41: the conversion is exact, and an integer has no fraction to drop. -/
theorem smallIntegersExact : Obligations.SmallIntegersExact := by
  intro k hlo hhi
  obtain ⟨hfinite, hvalue⟩ := f32OfInt_exact hlo hhi
  exact ⟨hvalue, f32TruncI32_of_value hfinite hvalue (by omega) (by omega)⟩

/-! ## PACK and UNPACK with gain 1 and offset 0 -/

/-- Two numbers of the same sign with the same value are the same. -/
theorem eq_of_f32Value_eq {a b : F32} (hneg : f32Neg a = f32Neg b) (hvalue : f32Value a = f32Value b) : a = b := by
  have hsign : signOf (f32Neg b) ≠ 0 := by cases f32Neg b <;> simp [signOf]
  rw [f32Value_eq, f32Value_eq, hneg] at hvalue
  have hmag : f32Mag a = f32Mag b := gridValue_strictMono.injective (mul_left_cancel₀ hsign hvalue)
  rw [← f32OfMag_f32Mag a, hneg, hmag, f32OfMag_f32Mag]

/-- Adding zero changes no number of positive sign. -/
theorem f32Add_f32OfInt_zero {a : F32} (ha : F32Finite a) (hneg : f32Neg a = false) : f32Add a (f32OfInt 0) = a := by
  obtain ⟨hzero, hvalue⟩ := f32OfInt_exact (k := 0) (by decide) (by decide)
  obtain ⟨hround, hsign⟩ := f32Add_finite ha.1 ha.2 hzero.1 hzero.2
  rw [hvalue, Int.cast_zero, add_zero] at hround hsign
  refine eq_of_f32Value_eq ?_ (hround.exact ha).2
  rw [hneg]
  by_cases h : f32Value a = 0
  · rw [hsign h, hneg, Bool.false_and]
  · have hnonneg : 0 ≤ f32Value a := by
      rw [f32Value_eq, hneg, signOf, if_neg (by decide), one_mul]
      exact gridValue_nonneg _
    rw [hround.sign h, decide_eq_false (not_lt.mpr hnonneg)]

/-- Multiplying by one changes no finite number. -/
theorem f32Mul_f32OfInt_one {a : F32} (ha : F32Finite a) : f32Mul a (f32OfInt 1) = a := by
  obtain ⟨hone, hvalue⟩ := f32OfInt_exact (k := 1) (by decide) (by decide)
  obtain ⟨hround, hsign⟩ := f32Mul_finite ha.1 ha.2 hone.1 hone.2
  rw [hvalue, Int.cast_one, mul_one] at hround
  refine eq_of_f32Value_eq ?_ (hround.exact ha).2
  rw [hsign, f32Neg_f32OfInt, decide_eq_false (by decide), Bool.bne_false]

/-- A field of an all-zero frame holds exactly the low bits of the integer that was inserted. -/
theorem payloadSlice_insertInto_zero (n : Word) {b : Slot} (hb : straddling b = false) :
    payloadSlice (insertInto ⟨0, 0⟩ b n) b = n.toNat % 2 ^ b.bitW.toNat := by
  have hend : b.bitOff.toNat + b.bitW.toNat ≤ 64 := by
    cases hlow : inLow b with
    | true => exact (inLow_iff.mp hlow).trans (by decide)
    | false => exact (high_of_not_straddling hb hlow).2
  refine Nat.eq_of_testBit_eq fun i => ?_
  rw [payloadSlice, Nat.testBit_mod_two_pow, Nat.testBit_mod_two_pow, Nat.testBit_div_two_pow]
  by_cases hi : i < b.bitW.toNat
  · have hbit := insertInto_getLsbD ⟨0, 0⟩ n hb (k := b.bitOff.toNat + i) (by omega)
    rw [Nat.add_sub_cancel_left, decide_eq_true (by omega), Bool.true_and] at hbit
    rw [Nat.add_comm i]
    exact congrArg _ (hbit.trans (by simp [Payload.value, BitVec.getLsbD]))
  · rw [decide_eq_false hi, Bool.false_and, Bool.false_and]

/-- Settles O43: the scaling is the identity on the integer, which the field then holds whole. -/
theorem unitRoundTripLossless : Obligations.UnitRoundTripLossless := by
  intro b x hb hgain hoffset hfield hx
  obtain ⟨hfinite, hvalue⟩ := f32OfInt_exact (k := x) (by omega) (by omega)
  have hneg : f32Neg (f32OfInt x) = false := by rw [f32Neg_f32OfInt, decide_eq_false (by omega)]
  have hzero : b.offset.toInt = 0 := hoffset ▸ rfl
  have hunit : f32Mul (f32Add (f32OfNat x) (f32OfInt b.offset.toInt)) b.gain = f32OfNat x := by
    rw [hzero, hgain, f32OfNat, f32Add_f32OfInt_zero hfinite hneg, f32Mul_f32OfInt_one hfinite]
  refine ⟨BitVec.ofInt 32 x, ?_, ?_⟩
  · rw [packScaled, hunit]
    exact f32TruncI32_of_value hfinite hvalue (by omega) (by omega)
  · have hslice : payloadSlice (insertInto ⟨0, 0⟩ b (BitVec.ofInt 32 x)) b = x := by
      rw [payloadSlice_insertInto_zero _ hb, BitVec.ofInt_natCast, BitVec.toNat_ofNat,
        Nat.mod_eq_of_lt (by omega : x < 2 ^ 32), Nat.mod_eq_of_lt hfield]
    rw [unpackValue, extractField_eq_payloadSlice _ hb, hslice, hunit]

end Sys2Proof.Machine
end

section
/-! PROOFS. The requests of the Remote Configuration Protocol that read and write parameters, the echo and the abort of an
invalid index: what each class's action answers and calls, and the one reply after it (R200 to R209, R251). -/

namespace Sys2Proof.Machine

/-! ## What each class's action answers, by the fields of the request -/

/-- A read-reply is the request's index and sub-index with the word read (R202). -/
theorem sdoReadReply_eq (b : Payload) (w : Word) : sdoReadReply b w = sdoPayload 0x43 b.index b.sub w := by
  have hcmd := memWrite_cmd (sdoPayload b.cmd b.index b.sub w) 0x43
  rw [sdoPayload_index, sdoPayload_sub, sdoPayload_data] at hcmd
  rw [sdoReadReply, memWrite_data]
  exact hcmd

/-- The abort of a rejected value (R203, R251). -/
theorem sdoAbort_valueRange (b : Payload) : sdoAbort .valueRange b = sdoPayload 0x80 b.index b.sub 0x06090030 :=
  sdoAbort_eq b rfl

/-- The abort of an invalid index (R209, R251). -/
theorem sdoAbort_invalidIndex (b : Payload) : sdoAbort .invalidIndex b = sdoPayload 0x80 b.index b.sub 0x06020000 :=
  sdoAbort_eq b rfl

/-- SDO_PRM_RD reads the raw word of the sub-index (R202). -/
theorem sdoPrmRd_eq (b : Payload) (s : State) :
    sdoPrmRd b s = (sdoPayload 0x43 b.index b.sub (storeGetRaw s.cfg s.store b.sub.toNat),
      { s with out := s.out ++ [.psGetRaw b.sub.toNat] }) := by
  simp only [sdoPrmRd, psGetRaw_eq, memRead_sub, sdoReadReply_eq]

/-- A validated raw write answers by the store's verdict (R203, R205). -/
theorem sdoWriteRaw_eq (p : Nat) (b : Payload) (s : State) :
    sdoWriteRaw p b s =
      (if storeAcceptsRaw s.cfg s.store p b.data then sdoPayload 0x23 b.index b.sub b.data
        else sdoPayload 0x80 b.index b.sub 0x06090030,
      { s with store := if storeAcceptsRaw s.cfg s.store p b.data then storeSetRaw s.cfg s.store p b.data else s.store
               out := s.out ++ [.psSetRaw p b.data] }) := by
  simp only [sdoWriteRaw, psSetRaw_eq, memRead_data, BitVec.ofNat_toNat, BitVec.setWidth_eq, sdoWriteReply_eq,
    sdoAbort_valueRange]

/-- SDO_PRM_WR writes the parameter of the sub-index (R203). -/
theorem sdoPrmWr_eq (b : Payload) (s : State) : sdoPrmWr b s = sdoWriteRaw b.sub.toNat b s := by
  rw [sdoPrmWr, memRead_sub]

section
variable {b : Payload} {s : State}

/-- SDO_PID_RD of a known identifier reads the parameter found (R204). -/
theorem sdoPidRd_of_lt (h : storeNumFromId s.cfg b.sub.toNat < s.cfg.paramCount) :
    sdoPidRd b s =
      (sdoPayload 0x43 b.index b.sub (storeGetRaw s.cfg s.store (storeNumFromId s.cfg b.sub.toNat)),
        { s with out := s.out ++ [.psNumFromId b.sub.toNat, .psGetRaw (storeNumFromId s.cfg b.sub.toNat)] }) := by
  rw [← memRead_sub] at h
  simp only [sdoPidRd_found h, memRead_sub, sdoReadReply_eq, List.append_assoc, List.cons_append, List.nil_append]

/-- SDO_PID_RD of an unknown identifier aborts (R204). -/
theorem sdoPidRd_of_le (h : s.cfg.paramCount ≤ storeNumFromId s.cfg b.sub.toNat) :
    sdoPidRd b s =
      (sdoPayload 0x80 b.index b.sub 0x06020000, { s with out := s.out ++ [.psNumFromId b.sub.toNat] }) := by
  rw [← memRead_sub] at h
  rw [sdoPidRd_missing (Nat.not_lt.mpr h), memRead_sub, sdoAbort_invalidIndex]

/-- SDO_PID_WR of a known identifier writes the parameter found (R205). -/
theorem sdoPidWr_of_lt (h : storeNumFromId s.cfg b.sub.toNat < s.cfg.paramCount) :
    sdoPidWr b s = sdoWriteRaw (storeNumFromId s.cfg b.sub.toNat) b
      { s with out := s.out ++ [.psNumFromId b.sub.toNat] } := by
  rw [← memRead_sub] at h
  rw [sdoPidWr_found h, memRead_sub]

/-- SDO_PID_WR of an unknown identifier aborts (R205). -/
theorem sdoPidWr_of_le (h : s.cfg.paramCount ≤ storeNumFromId s.cfg b.sub.toNat) :
    sdoPidWr b s =
      (sdoPayload 0x80 b.index b.sub 0x06020000, { s with out := s.out ++ [.psNumFromId b.sub.toNat] }) := by
  rw [← memRead_sub] at h
  rw [sdoPidWr_missing (Nat.not_lt.mpr h), memRead_sub, sdoAbort_invalidIndex]

end

/-! ## The action and the one reply -/

section
variable {k : SdoClass} {b r : Payload} {s : State} {cells : List Word} {calls : List PortCall}

/-- A request of a class that is no mapping class is served, during a save too: what its action leaves of the store, the
action's calls, and the one reply after them (R200, R201, R211). -/
theorem sdoRun_of_act (hs : Sound s) (htx : k ≠ .mapTx) (hrx : k ≠ .mapRx)
    (h : sdoAct k b s = (r, { s with store := cells, out := s.out ++ calls })) :
    sdoRun k b s = .next
      { s with store := cells, out := s.out ++ (calls ++ [.btSend (BitVec.ofNat 32 s.cfg.replyId) r.lo r.hi]),
               result := .buffer r } := by
  rw [sdoRun_of_not_blocked b hs (sdoBlocked_of_not_map s htx hrx), sdoServe, h, ← List.append_assoc]
  rfl

/-- The operation that a request decodes to serves it, where its class is no mapping class. -/
theorem exec_of_act {i : Instr} (hs : Sound s) (hfits : k.Fits s.cfg b) (hdecode : decodeSdo s.cfg b = i)
    (htx : k ≠ .mapTx) (hrx : k ≠ .mapRx)
    (h : sdoAct k b s = (r, { s with store := cells, out := s.out ++ calls })) :
    exec i s = .next
      { s with store := cells, out := s.out ++ (calls ++ [.btSend (BitVec.ofNat 32 s.cfg.replyId) r.lo r.hi]),
               result := .buffer r } := by
  rw [← hdecode, exec_decodeSdo, sdoClass_of_fits hfits, sdoRun_of_act hs htx hrx h]

end

/-! ## Parameter requests -/

/-- Settles O44: the read's action, and the reply with the word read. -/
theorem sdoPrmRdAnswersRawWord : Obligations.SdoPrmRdAnswersRawWord := by
  intro b s hs hcmd hindex hsub
  have hfits : SdoClass.prmRd.Fits s.cfg b := ⟨decide_eq_true hsub, hindex, hcmd⟩
  have hdecode := decodeSdo_prmRd hfits
  exact ⟨hdecode, exec_of_act hs hfits hdecode (by decide) (by decide) (sdoPrmRd_eq b s)⟩

/-- Settles O45: the write's action, and the reply by the store's verdict. -/
theorem sdoPrmWrValidates : Obligations.SdoPrmWrValidates := by
  intro b s hs hcmd hindex hsub
  have hfits : SdoClass.prmWr.Fits s.cfg b := ⟨decide_eq_true hsub, hindex, hcmd⟩
  have hdecode := decodeSdo_prmWr hfits
  exact ⟨hdecode, exec_of_act hs hfits hdecode (by decide) (by decide) ((sdoPrmWr_eq b s).trans (sdoWriteRaw_eq _ b s))⟩

/-- Settles O46: the translation, then the read or the abort. -/
theorem sdoPidRdTranslates : Obligations.SdoPidRdTranslates := by
  intro b s hs hcmd hindex hsub
  have hfits : SdoClass.pidRd.Fits s.cfg b := ⟨decide_eq_true hsub, hindex, hcmd⟩
  have hdecode := decodeSdo_pidRd hfits
  exact ⟨hdecode, fun hfound => exec_of_act hs hfits hdecode (by decide) (by decide) (sdoPidRd_of_lt hfound),
    fun hmissing => exec_of_act hs hfits hdecode (by decide) (by decide) (sdoPidRd_of_le hmissing)⟩

/-- Settles O47: the translation, then the write with its verdict or the abort. -/
theorem sdoPidWrTranslates : Obligations.SdoPidWrTranslates := by
  intro b s hs hcmd hindex hsub
  have hfits : SdoClass.pidWr.Fits s.cfg b := ⟨decide_eq_true hsub, hindex, hcmd⟩
  have hdecode := decodeSdo_pidWr hfits
  refine ⟨hdecode, fun hfound => exec_of_act hs hfits hdecode (by decide) (by decide)
      (calls := [.psNumFromId b.sub.toNat, .psSetRaw (storeNumFromId s.cfg b.sub.toNat) b.data]) ?_,
    fun hmissing => exec_of_act hs hfits hdecode (by decide) (by decide) (sdoPidWr_of_le hmissing)⟩
  rw [sdoAct, sdoPidWr_of_lt hfound, sdoWriteRaw_eq, List.append_assoc]
  rfl

/-! ## Requests that nothing acts on -/

/-- Settles O49: the echo's action changes nothing, and the three row patterns are told apart by the index. -/
theorem echoSendsRequestBack : Obligations.EchoSendsRequestBack := by
  intro s i b hs hencode
  have hpayload : requestPayload i = b := by rw [requestPayload, hencode]
  refine ⟨fun hecho => ?_, fun hsub hindex => ?_⟩
  · have hrun : exec i s = sdoRun .echo (requestPayload i) s := by
      rcases hecho with ⟨q, c, u, w, rfl⟩ | ⟨q, c, u, w, rfl⟩ | ⟨q, c, u, w, rfl⟩ <;> rfl
    rw [hrun, hpayload]
    exact sdoRun_of_act (calls := []) hs (by decide) (by decide) (by rw [List.append_nil]; rfl)
  · have hok : subOk s.cfg b.sub = true := decide_eq_true hsub
    rcases hindex with ⟨hprm, hwr, hrd⟩ | ⟨hmap, hwr⟩
    · have hlt : b.index.toNat < 0x3000 := by rcases hprm with h | h <;> rw [h] <;> decide
      exact .inl ⟨_, _, _, _, decodeSdo_echoPrm ⟨hok, hwr, .inl ⟨hprm, hrd⟩⟩ hlt⟩
    · have hfits : SdoClass.echo.Fits s.cfg b := ⟨hok, hwr, .inr hmap⟩
      rcases Nat.lt_or_ge b.index.toNat 0x4000 with hsend | hrecv
      · exact .inr (.inl ⟨_, _, _, _, decodeSdo_echoMapTx hfits (by omega)⟩)
      · exact .inr (.inr ⟨_, _, _, _, decodeSdo_echoMapRx hfits hrecv⟩)

/-- Settles O50: such a request is of the last class, whose action is the abort. -/
theorem invalidIndexAborts : Obligations.InvalidIndexAborts := by
  intro b s hs hinvalid
  have hfits : SdoClass.invIdx.Fits s.cfg b := by
    refine Bool.and_eq_false_iff.mpr ?_
    rcases hinvalid with hsub | ⟨hprm, hpid, hmap⟩
    · exact .inr (decide_eq_false (Nat.not_lt.mpr hsub))
    · refine .inl (Bool.eq_false_iff.mpr fun hobject => ?_)
      rcases objectIndex_iff.mp hobject with (h | h) | h
      · exact hprm h
      · exact hpid h
      · omega
  have hdecode := decodeSdo_invIdx hfits
  refine ⟨hdecode, exec_of_act (calls := []) hs hfits hdecode (by decide) (by decide) ?_⟩
  rw [sdoAct, sdoInvIdx, sdoAbort_invalidIndex, List.append_nil]

end Sys2Proof.Machine
end

section
/-! PROOFS. Every served request, of any class, gets one reply (R100, R102, R201), and the mapping consumer serves and claims
every request that it is offered (R186, R213). -/

namespace Sys2Proof.Machine

/-! ## What a reply may be -/

/-- The replies that a request `b` may get from a store with these cells (R102): the request itself, or its index and sub-index
under a write-reply, a read-reply or an abort. -/
def ReplyTo (c : Cfg) (cells : List Word) (b r : Payload) : Prop :=
  r.index = b.index ∧ r.sub = b.sub ∧
    (r = b ∨ (r.cmd = 0x23 ∧ r.data = b.data) ∨
      (r.cmd = 0x43 ∧ ∃ p, p < c.paramCount ∧ r.data = storeGetRaw c cells p) ∨
      (r.cmd = 0x80 ∧ (r.data = 0x06020000 ∨ r.data = 0x06090030)))

section
variable {c : Cfg} {cells : List Word}

/-- An echo is a reply (R208). -/
theorem replyTo_self (b : Payload) : ReplyTo c cells b b := ⟨rfl, rfl, .inl rfl⟩

/-- A write-reply is a reply (R203). -/
theorem replyTo_write (b : Payload) : ReplyTo c cells b (sdoPayload 0x23 b.index b.sub b.data) :=
  ⟨sdoPayload_index .., sdoPayload_sub .., .inr (.inl ⟨sdoPayload_cmd .., rfl⟩)⟩

/-- A read-reply with a parameter's raw word is a reply (R202). -/
theorem replyTo_read (b : Payload) {p : Nat} (h : p < c.paramCount) :
    ReplyTo c cells b (sdoPayload 0x43 b.index b.sub (storeGetRaw c cells p)) :=
  ⟨sdoPayload_index .., sdoPayload_sub .., .inr (.inr (.inl ⟨sdoPayload_cmd .., p, h, rfl⟩))⟩

/-- An abort with one of the two codes is a reply (R251). -/
theorem replyTo_abort (b : Payload) {w : Word} (h : w = 0x06020000 ∨ w = 0x06090030) :
    ReplyTo c cells b (sdoPayload 0x80 b.index b.sub w) :=
  ⟨sdoPayload_index .., sdoPayload_sub .., .inr (.inr (.inr ⟨sdoPayload_cmd .., h⟩))⟩

/-- The abort of any condition is a reply: there are two codes (R251). -/
theorem replyTo_sdoAbort (e : ErrCode) (b : Payload) : ReplyTo c cells b (sdoAbort e b) := by
  have hcode : abortCode e = (0x06020000 : Word).toNat ∨ abortCode e = (0x06090030 : Word).toNat := by
    cases e <;> decide
  rcases hcode with h | h
  · rw [sdoAbort_eq b h]
    exact replyTo_abort b (.inl rfl)
  · rw [sdoAbort_eq b h]
    exact replyTo_abort b (.inr rfl)

end

/-! ## The action leaves a reply and sends no frame -/

/-- Port calls that are no sends add no frame. -/
theorem framesOf_append_silent {calls more : List PortCall} (h : framesOf more = []) :
    framesOf (calls ++ more) = framesOf calls := by
  rw [framesOf_append, h, List.append_nil]

/-- A validated raw write leaves a reply and sends no frame (R203, R205). -/
theorem sdoWriteRaw_replies (p : Nat) (b : Payload) (s : State) :
    ReplyTo s.cfg s.store b (sdoWriteRaw p b s).1 ∧ framesOf (sdoWriteRaw p b s).2.out = framesOf s.out := by
  rw [sdoWriteRaw_eq]
  refine ⟨?_, framesOf_append_silent rfl⟩
  dsimp only
  split
  · exact replyTo_write b
  · exact replyTo_abort b (.inr rfl)

/-- ADD's transition sends no frame. -/
theorem framesOf_addBinding {d : Dir} {p : Nat} {id : Ident} {o w : Byte} {g : F32} {k : Word} {s : State}
    {r : Nat × State} (h : addBinding d p id o w g k s = .ok r) : framesOf r.2.out = framesOf s.out := by
  obtain ⟨-, -, -, t, -, -, hr⟩ := addBinding_ok h
  rw [hr]
  split
  · rw [addIdent_eq]
    split
    · exact framesOf_append_silent rfl
    · rfl
  · rfl

/-- A mapping request leaves a reply and sends no frame (R206, R207). -/
theorem sdoMap_replies (d : Dir) (b : Payload) (s : State) :
    ReplyTo s.cfg s.store b (sdoMap d b s).1 ∧ framesOf (sdoMap d b s).2.out = framesOf s.out := by
  unfold sdoMap
  split
  · rename_i r hr
    rw [sdoWriteReply_eq]
    exact ⟨replyTo_write b, framesOf_addBinding hr⟩
  · exact ⟨replyTo_sdoAbort _ b, rfl⟩

/-- The action of a request's class leaves a reply and sends no frame (R201). -/
theorem sdoAct_replies {k : SdoClass} {b : Payload} {s : State} (hfits : k.Fits s.cfg b) :
    ReplyTo s.cfg s.store b (sdoAct k b s).1 ∧ framesOf (sdoAct k b s).2.out = framesOf s.out := by
  cases k with
  | prmWr =>
    rw [sdoAct, sdoPrmWr_eq]
    exact sdoWriteRaw_replies _ b s
  | prmRd =>
    obtain ⟨hsub, -, -⟩ := hfits
    rw [sdoAct, sdoPrmRd_eq]
    exact ⟨replyTo_read b (of_decide_eq_true hsub), framesOf_append_silent rfl⟩
  | pidWr =>
    rw [sdoAct]
    rcases Nat.lt_or_ge (storeNumFromId s.cfg b.sub.toNat) s.cfg.paramCount with h | h
    · rw [sdoPidWr_of_lt h]
      obtain ⟨hreply, hframes⟩ := sdoWriteRaw_replies (storeNumFromId s.cfg b.sub.toNat) b
        { s with out := s.out ++ [.psNumFromId b.sub.toNat] }
      exact ⟨hreply, hframes.trans (framesOf_append_silent rfl)⟩
    · rw [sdoPidWr_of_le h]
      exact ⟨replyTo_abort b (.inl rfl), framesOf_append_silent rfl⟩
  | pidRd =>
    rw [sdoAct]
    rcases Nat.lt_or_ge (storeNumFromId s.cfg b.sub.toNat) s.cfg.paramCount with h | h
    · rw [sdoPidRd_of_lt h]
      exact ⟨replyTo_read b h, framesOf_append_silent rfl⟩
    · rw [sdoPidRd_of_le h]
      exact ⟨replyTo_abort b (.inl rfl), framesOf_append_silent rfl⟩
  | mapTx => exact sdoMap_replies .send b s
  | mapRx => exact sdoMap_replies .recv b s
  | echo => exact ⟨replyTo_self b, rfl⟩
  | invIdx => exact ⟨replyTo_sdoAbort .invalidIndex b, rfl⟩

/-- Settles O51: the class's action sends no frame, and its reply goes out after it. -/
theorem exactlyOneReply : Obligations.ExactlyOneReply := by
  intro b s t h
  rw [exec_decodeSdo, sdoRun_next] at h
  obtain ⟨-, -, rfl⟩ := h
  obtain ⟨⟨hindex, hsub, hkind⟩, hframes⟩ := sdoAct_replies (sdoClass_fits s.cfg b)
  refine ⟨_, rfl, hindex, hsub, hkind, ?_, List.getLast?_concat⟩
  exact (framesOf_append _ _).trans (congrArg (· ++ _) hframes)

/-! ## MAP_RX and DISPATCH of a request -/

/-- MAP_RX of an SDO request is SDO_PROCESS, and its answer is a claim (R186, R213). -/
theorem mapRx_of_requestId {id : Ident} {s : State} (b : Payload) (hid : id.toNat = s.cfg.requestId) :
    mapRx id b s = (sdoProcess b s).map fun r => (true, r.1, r.2) := by
  rw [mapRx, if_pos hid]
  cases sdoProcess b s <;> rfl

/-- DISPATCH of an SDO request with the mapping consumer first is the request itself, refusals included (R134, R213). -/
theorem exec_dispatch_request {id : Ident} {s : State} {rest : List Consumer} (b : Payload)
    (hid : id.toNat = s.cfg.requestId) (hcons : s.cons = .mapping :: rest) :
    exec (.dispatch id b) s = exec (decodeSdo s.cfg b) s := by
  rw [exec_decodeSdo]
  by_cases hs : Sound s
  · cases hk : sdoBlocked (sdoClass s.cfg b) s with
    | false =>
      rw [sdoRun_of_not_blocked b hs hk]
      refine exec_dispatch_ok hs ?_
      rw [hcons, offerFrame_mapping (mapRx_request hid hk), if_pos rfl]
    | true =>
      have hrefused : mapRx id b s = .error .tableBusy := by
        rw [mapRx_of_requestId b hid, sdoProcess, if_pos hk]
        rfl
      rw [exec_dispatch_error hs (hcons ▸ offerFrame_mapping_error hrefused)]
      exact ((whenSound_of_sound hs).trans (if_pos hk)).symm
  · exact (whenSound_of_not_sound hs).trans (whenSound_of_not_sound hs).symm

/-- Settles O52: MAP_RX of a request runs the request's class, and the claim ends DISPATCH's loop. -/
theorem sdoRequestAlwaysClaimed : Obligations.SdoRequestAlwaysClaimed := by
  intro id b s hid
  refine ⟨fun t h => ?_, fun t r h hresult => ?_, fun rest hcons => exec_dispatch_request b hid hcons⟩
  · obtain ⟨-, q, hq, rfl⟩ := execMapRx_next h
    rcases mapRx_ok hq with ⟨-, -, rfl⟩ | ⟨hne, -⟩ | ⟨hne, -⟩
    · exact ⟨_, rfl⟩
    · exact absurd hid hne
    · exact absurd hid hne
  · rw [exec_decodeSdo, sdoRun_next] at h
    obtain ⟨hs, hk, rfl⟩ := h
    obtain rfl := Result.buffer.inj hresult
    exact exec_mapRx_request hs hid hk

end Sys2Proof.Machine
end

section
/-! PROOFS. What a save in progress shuts out (R235, U3, U4), and the persistence operations one by one: SAVE_BEGIN, the
writing phase, SAVE_END, and LOAD where the checksum does not match (R231 to R234). -/

namespace Sys2Proof.Machine

/-! ## The gate -/

/-- A mapping request is refused while a save is in progress (U3, R211). -/
theorem sdoRun_of_blocked {k : SdoClass} (b : Payload) {s : State} (hs : Sound s) (hk : sdoBlocked k s = true) :
    sdoRun k b s = .refused .tableBusy := (whenSound_of_sound hs).trans (if_pos hk)

/-- Settles O13: the table operations stand behind `whenIdle`, the mapping requests behind `sdoBlocked`, and the three
operations of the persistence port behind tests of their own. -/
theorem saveExcludesTableOperations : Obligations.SaveExcludesTableOperations := by
  intro s hs
  refine ⟨fun hbusy => ?_, fun hidle => ⟨?_, fun hused => ?_⟩⟩
  · have shut {k : Host.Outcome State Fault Refusal} : whenSound s (whenIdle s k) = .refused .tableBusy :=
      (whenSound_of_sound hs).trans (whenIdle_of_busy hbusy)
    exact ⟨fun _ _ _ _ _ _ _ => shut, fun _ => shut, fun _ => shut, fun _ => shut, shut, shut,
      fun _ _ _ _ _ _ => sdoRun_of_blocked _ hs (by simp [sdoBlocked, hbusy]),
      fun _ _ _ _ _ => sdoRun_of_blocked _ hs (by simp [sdoBlocked, hbusy]),
      (whenSound_of_sound hs).trans (if_pos hbusy)⟩
  · exact (whenSound_of_sound hs).trans (if_neg (by simp [hidle]))
  · exact (whenSound_of_sound hs).trans ((whenIdle_of_idle hidle).trans (if_neg (by simp [hused])))

/-! ## SAVE_BEGIN and SAVE_END -/

/-- Settles O53: SAVE_BEGIN's equation, and what an erase leaves of each byte. -/
theorem saveBeginRemaps : Obligations.SaveBeginRemaps := by
  intro s hs hidle
  refine ⟨_, exec_saveBegin_eq hs hidle, rfl, fun herased => if_pos herased, fun hdirty a => ?_, rfl⟩
  dsimp only
  rw [if_neg (by simp [hdirty])]
  exact Memory.read_erase s.flash s.cfg.eraseUnitBytes a

/-- Settles O54: SAVE_END's equation. -/
theorem saveEndRemapsBack : Obligations.SaveEndRemapsBack := fun _ hs hbusy => exec_saveEnd_eq hs hbusy

/-! ## The writing phase -/

/-- A byte above the words written reads as before. -/
theorem Memory.read_writeWords_above {m : List Host.Cell} (k : Nat) (ws : List Word) {a : Nat} (h : Memory.wf m = true)
    (ha : 4 * (k + ws.length) ≤ a) : Memory.read (Memory.writeWords m k ws) a = Memory.read m a := by
  induction ws generalizing m k with
  | nil => rfl
  | cons w ws ih =>
    rw [List.length_cons] at ha
    calc Memory.read (Memory.writeWords (Memory.writeWord m k w) (k + 1) ws) a
        = Memory.read (Memory.writeWord m k w) a := ih (k + 1) (Memory.writeWord_wf k w h) (by omega)
      _ = Memory.read m a := by rw [Memory.read_writeWord k w a h, if_neg (by omega)]

/-- The calls of the writing phase number the words in order. -/
theorem programCalls_eq_mapIdx (k : Nat) (ws : List Word) :
    programCalls k ws = ws.mapIdx fun i w => .flProgram (k + i) w := by
  induction ws generalizing k with
  | nil => rfl
  | cons w ws ih =>
    rw [programCalls, ih, List.mapIdx_cons]
    simp [Nat.add_assoc, Nat.add_comm 1]

/-- Settles O56: the writing phase's equation, and what consecutive word writes leave in the flash. -/
theorem saveWriteStoresImage : Obligations.SaveWriteStoresImage := by
  intro s hs hm hbusy hfit ws
  have hlen : ws.length = imageWords s.cfg := imageSer_length_of_sound s.draws hs
  refine ⟨_, runEnv_saveWrite_eq hs hbusy hfit, rfl, storedWords_writeWords _ hm hlen, storedCksum_writeWords _ hm hlen,
    fun a ha => ?_, ?_⟩
  · refine Memory.read_writeWords_above 0 _ hm ?_
    rwa [Nat.zero_add, List.length_append, List.length_singleton, hlen]
  · simp only [programCalls_eq_mapIdx, Nat.zero_add]
    rfl

/-! ## LOAD -/

/-- Settles O57: with a mismatch LOAD has only its reads behind its tests. -/
theorem loadMismatchChangesNothing : Obligations.LoadMismatchChangesNothing := by
  intro s hs hidle hempty hfit hck
  have e : exec .load s = .next ((readImage s).setResult (.bool false)) :=
    (whenSound_of_sound hs).trans ((whenIdle_of_idle hidle).trans ((if_pos hempty).trans ((if_pos hfit).trans
      (congrArg Host.Outcome.next (if_neg hck)))))
  exact e

end Sys2Proof.Machine
end

section
/-! PROOFS. The wrapping sum of the plain image as a checksum (R237): a blank region does not load (L1), and one flipped bit
is detected (L2). -/

namespace Sys2Proof.Machine

/-- The plain checksum is the sum of the words. -/
theorem cksumOf_plain {c : Cfg} (hc : c.image = .plain) (ws : List Word) : cksumOf c ws = ws.sum := by
  have hinit : cksumInit c = 0 := by rw [cksumInit, hc]
  have hstep : cksumStep c = fun a w => a + w := by
    funext a w
    rw [cksumStep, hc]
  rw [cksumOf, hinit, hstep, List.sum_eq_foldl]

/-! ## A blank region -/

/-- An erased word is -1, so the sum of as many as the image has words is -1 for one word only. -/
theorem sum_blank_ne {n : Nat} (h : n < 2 ^ 32) (h1 : n ≠ 1) : (List.replicate n (0xFFFFFFFF : Word)).sum ≠ 0xFFFFFFFF := by
  rw [List.sum_replicate, show (0xFFFFFFFF : Word) = -1 from rfl, smul_neg, nsmul_one, Ne, neg_inj]
  intro e
  have hn : n % 2 ^ 32 = 1 := by simpa [BitVec.natCast_eq_ofNat] using congrArg BitVec.toNat e
  exact h1 (by rwa [Nat.mod_eq_of_lt h] at hn)

/-- The plain image is not one word: the two tables have the same number of words, and a slot has more than two. -/
theorem imageWords_plain_ne_one {c : Cfg} (hc : c.image = .plain) : imageWords c ≠ 1 := by
  have hpool : c.maxItems * slotWords c = 0 ∨ 3 ≤ c.maxItems * slotWords c := by
    rcases Nat.eq_zero_or_pos c.maxItems with h | h
    · simp [h]
    · exact .inr (le_mul_of_one_le_of_le h (by unfold slotWords slotDraws; omega))
  simp only [imageWords, tableWords, poolWords, hc]
  omega

/-! ## One flipped bit -/

/-- A flipped bit changes the word. -/
theorem xor_bit_ne (w : Word) {b : Nat} (hb : b < 32) : w ^^^ (1#32 <<< b) ≠ w := by
  intro e
  have hbit := congrArg (fun v : Word => v.getLsbD b) e
  simp [hb] at hbit

/-- A sum changes with one of its words. -/
theorem sum_modify_ne {ws : List Word} {k : Nat} {f : Word → Word} (hk : k < ws.length) (hf : f ws[k] ≠ ws[k]) :
    (ws.modify k f).sum ≠ ws.sum := by
  rw [List.modify_eq_set_get f hk, List.sum_set', dif_pos hk, Ne, add_eq_left, neg_add_eq_zero]
  exact fun e => hf e.symm

/-- A wrapping sum after the words detects a change of one of them, or of itself. -/
theorem sum_detects_modify {ws : List Word} {k : Nat} {f : Word → Word} (hk : k ≤ ws.length) (hf : ∀ w, f w ≠ w) :
    (((ws ++ [ws.sum]).modify k f).take ws.length).sum ≠ ((ws ++ [ws.sum]).modify k f).getD ws.length 0 := by
  have hlast : ((ws ++ [ws.sum]).modify k f).getD ws.length 0 = if k = ws.length then f ws.sum else ws.sum := by
    rw [List.getD_eq_getElem _ _ (by simp), List.getElem_modify]
    simp
  rw [hlast, List.take_modify, List.take_left]
  rcases hk.lt_or_eq with hk | rfl
  · rw [if_neg hk.ne]
    exact sum_modify_ne hk (hf _)
  · have hsame : ws.modify ws.length f = ws := List.modify_eq_self (le_refl _)
    rw [if_pos rfl, hsame]
    exact (hf _).symm

/-- L1 of the plain image. -/
theorem lawBlank_plain {c : Cfg} (hc : c.image = .plain) (hwords : imageWords c < 2 ^ 32) : LawBlank c := by
  rw [LawBlank, cksumOf_plain hc]
  exact sum_blank_ne hwords (imageWords_plain_ne_one hc)

/-- L2 of the plain image. -/
theorem lawSingleBit_plain {c : Cfg} (hc : c.image = .plain) : LawSingleBit c := by
  intro ws k b hlen hk hb
  dsimp only
  rw [cksumOf_plain hc, cksumOf_plain hc, ← hlen]
  exact sum_detects_modify (hlen ▸ hk) fun w => xor_bit_ne w hb

end Sys2Proof.Machine
end

section
/-! PROOFS. The plain layout gives the tables back from their words (R237 L3): item by item, then region by region. -/

namespace Sys2Proof.Machine

/-! ## Links of sound tables name slots of the pool -/

/-- A way that reaches END starts at a slot of the pool, if at any. -/
theorem Leads.start_lt {t : Tables} {l : Link} {js : List Nat} (h : Leads t l js .endMark) {k : Nat} (hl : l = .slot k) :
    k < t.pool.length := by
  subst hl
  cases js with
  | nil => cases h
  | cons j js =>
    obtain ⟨hkj, hj, -⟩ := h
    cases hkj
    exact hj

/-- The rest of a way to END, from any of its slots on. -/
theorem Leads.rest {t : Tables} {l : Link} {js : List Nat} (h : Leads t l js .endMark) {j : Nat} (hj : j ∈ js) :
    ∃ ks, Leads t (slotAt t j).next ks .endMark := by
  obtain ⟨as, bs, rfl⟩ := List.append_of_mem hj
  obtain ⟨x, -, -, -, hbs⟩ := leads_append.mp h
  exact ⟨bs, hbs⟩

/-- In sound tables a head names a slot of the pool, if any (INV3). -/
theorem head_lt_of_sound {c : Cfg} {t : Tables} (hs : tablesSound c t = true) {d : Dir} {e : Entry}
    (he : e ∈ entriesOf t d) {k : Nat} (hk : e.head = .slot k) : k < c.maxItems := by
  obtain ⟨⟨-, -, hpool, -⟩, -⟩ := tablesSound_iff.mp hs
  obtain ⟨js, hwalk⟩ := Option.isSome_iff_exists.mp (walk_isSome_of_sound hs he)
  exact hpool ▸ (leads_of_walk hwalk).start_lt hk

/-- In sound tables the link of a used slot names a slot of the pool, if any (INV2, INV3). -/
theorem next_lt_of_sound {c : Cfg} {t : Tables} (hs : tablesSound c t = true) {b : Slot} (hb : b ∈ t.pool)
    (hu : slotUsed b = true) {k : Nat} (hk : b.next = .slot k) : k < c.maxItems := by
  obtain ⟨⟨-, -, hpool, -⟩, -⟩ := tablesSound_iff.mp hs
  obtain ⟨j, hj, rfl⟩ := List.getElem_of_mem hb
  rw [← List.getD_eq_getElem _ default hj, ← slotAt] at hu hk
  obtain ⟨d, i, hi, hmem⟩ := (chainsAre_of_sound hs).used j hj hu
  obtain ⟨ks, hrest⟩ := ((chainsAre_of_sound hs).leads d i hi).rest hmem
  exact hpool ▸ hrest.start_lt hk

/-! ## One item -/

/-- An entry's view comes back from its words: the whole of a used one, and that a free one is free. -/
theorem plainView_plainDeEntry {c : Cfg} {e : Entry} (n : Nat) (h : ∀ k, e.head = .slot k → k < c.maxItems) :
    plainView (plainDeEntry c (plainEntry c n e)) = plainView e := by
  cases hu : entryUsed e with
  | true => rw [plainDeEntry_plainEntry n hu h]
  | false =>
    have hhead : (plainDeEntry c (plainEntry c n e)).head = e.head := by
      simp [plainDeEntry, plainEntry, linkOfNum_digits32 h]
    have hfree : entryUsed (plainDeEntry c (plainEntry c n e)) = false := by rw [entryUsed, hhead, ← hu, entryUsed]
    rw [plainView, plainView, hfree, hu]
    rfl

/-- The link comes back from a slot's words, used or free. -/
theorem plainDeSlot_next {c : Cfg} {b : Slot} (n : Nat) (h : ∀ k, b.next = .slot k → k < c.maxItems) :
    (plainDeSlot c (plainSlot c n b)).next = b.next := by
  have hdrop : (plainSlot c n b).drop (slotDraws c) = digits32 (linkWords c) (linkNum c b.next) := by
    rw [plainSlot]
    refine List.drop_left' ?_
    split <;> simp [slotDraws]
  simp only [plainDeSlot, hdrop, linkOfNum_digits32 h]

/-- The fields of a slot by its words in the plain layout. -/
theorem plainDeSlot_words {c : Cfg} {ref : List Word} (o g w : Word) (link : List Word) (h : ref.length = refWords c) :
    plainDeSlot c (ref ++ o :: g :: w :: link) =
      { param := ofDigits32 ref, offset := o, gain := g, bitOff := w.extractLsb' 0 8, bitW := w.extractLsb' 8 8,
        next := linkOfNum c (ofDigits32 link) } := by
  simp [plainDeSlot, slotDraws, ← h]

/-- A used slot comes back from its words in the plain layout. -/
theorem plainDeSlot_plainSlot {c : Cfg} {b : Slot} (n : Nat) (hu : slotUsed b = true)
    (hfit : b.param < 2 ^ c.paramRefBits) (h : ∀ k, b.next = .slot k → k < c.maxItems) :
    plainDeSlot c (plainSlot c n b) = b := by
  have hwords : plainSlot c n b = digits32 (refWords c) b.param ++ b.offset :: b.gain :: (0#16 ++ b.bitW ++ b.bitOff) ::
      digits32 (linkWords c) (linkNum c b.next) := by rw [plainSlot, if_pos hu]; simp
  have hparam : ofDigits32 (digits32 (refWords c) b.param) = b.param := ofDigits32_wordsFor hfit
  have hoff : (0#16 ++ b.bitW ++ b.bitOff).extractLsb' 0 8 = b.bitOff := BitVec.extractLsb'_append_eq_right
  have hwidth : (0#16 ++ b.bitW ++ b.bitOff).extractLsb' 8 8 = b.bitW :=
    (BitVec.extractLsb'_append_eq_of_le le_rfl).trans BitVec.extractLsb'_append_eq_right
  rw [hwords, plainDeSlot_words _ _ _ _ (digits32_length _ _), hparam, hoff, hwidth, linkOfNum_digits32 h]

/-- A slot's view comes back from its words in a region: the whole of a used one, and that a free one is free. -/
theorem slotView_deSlot {c : Cfg} {t : Tables} {b : Slot} {ws : List Word} {j n : Nat} (hc : c.image = .plain)
    (hs : tablesSound c t = true) (hb : b ∈ t.pool) (hitem : itemWords ws (slotWords c) j = plainSlot c n b) :
    slotView (deSlot c ws j) = slotView b := by
  cases hu : slotUsed b with
  | true =>
    obtain ⟨⟨-, -, -, hfit⟩, -⟩ := tablesSound_iff.mp hs
    have hparam := refsFit_iff.mp hfit b hb
    have hde : deSlot c ws j = { b with param := c.cutRef b.param } := by
      simp only [deSlot, hc, hitem, plainDeSlot_plainSlot n hu hparam fun _ => next_lt_of_sound hs hb hu]
    rw [hde, cutRef_of_lt hparam]
  | false =>
    have hlink : b.next = .freeMark := by simpa [slotUsed] using hu
    have hnext : (deSlot c ws j).next = .freeMark := by
      simp only [deSlot, hc, hitem, plainDeSlot_next (b := b) n (by simp [hlink]), hlink]
    simp [slotView, slotUsed, hnext, hlink]

/-! ## One region -/

/-- The items of a region, written one after another with words of equal number, are found again at their places. -/
theorem itemWords_flatten_mapIdx {α : Type} {f : Nat → α → List Word} {size : Nat} (hf : ∀ i a, (f i a).length = size)
    {l : List α} {i : Nat} (hi : i < l.length) : itemWords (l.mapIdx f).flatten size i = f i l[i] := by
  induction l generalizing f i with
  | nil => simp at hi
  | cons a l ih =>
    rw [List.mapIdx_cons, List.flatten_cons]
    cases i with
    | zero => exact List.take_left' (hf 0 a)
    | succ i =>
      have hskip : (f 0 a).length + size * i = size * (i + 1) := by rw [hf, Nat.mul_succ, Nat.add_comm]
      rw [itemWords, ← hskip, List.drop_length_add_append]
      exact ih (fun i a => hf (i + 1) a) (by simpa using hi)

/-- A direction's region gives back the view of its entries. -/
theorem map_deEntry_serTable {c : Cfg} {t : Tables} (hc : c.image = .plain) (hs : tablesSound c t = true) (d : Dir) (n : Nat) :
    ((List.range c.maxMessages).map (deEntry c d (serTable c d n (entriesOf t d)))).map plainView =
      (entriesOf t d).map plainView := by
  have hlen := entriesOf_length_of_sound hs d
  refine List.ext_getElem (by simp [hlen]) fun i _ hi => ?_
  have hi' : i < (entriesOf t d).length := by simpa using hi
  simp only [List.getElem_map, List.getElem_range, deEntry, serTable, hc]
  rw [itemWords_flatten_mapIdx (fun _ _ => plainEntry_length _ _ _) hi']
  exact plainView_plainDeEntry _ fun _ => head_lt_of_sound hs (List.getElem_mem hi')

/-- The pool's region gives back the view of the slots. -/
theorem map_deSlot_serPool {c : Cfg} {t : Tables} (hc : c.image = .plain) (hs : tablesSound c t = true) (n : Nat) :
    ((List.range c.maxItems).map (deSlot c (serPool c n t.pool))).map slotView = t.pool.map slotView := by
  obtain ⟨⟨-, -, hlen, -⟩, -⟩ := tablesSound_iff.mp hs
  refine List.ext_getElem (by simp [hlen]) fun j _ hj => ?_
  have hj' : j < t.pool.length := by simpa using hj
  simp only [List.getElem_map, List.getElem_range, serPool, hc]
  exact slotView_deSlot hc hs (List.getElem_mem hj')
    (itemWords_flatten_mapIdx (fun _ _ => plainSlot_length _ _ _) hj')

/-! ## The image -/

/-- The three regions are found again in the image, whatever their layout (R111). -/
theorem imageDe_imageSer {c : Cfg} {t : Tables} (n : Nat) (hs : tablesSound c t = true) :
    imageDe c (imageSer c t n) =
      { send := (List.range c.maxMessages).map (deEntry c .send (serTable c .send n t.send))
        recv := (List.range c.maxMessages).map (deEntry c .recv (serTable c .recv (n + c.maxMessages) t.recv))
        pool := (List.range c.maxItems).map (deSlot c (serPool c (n + 2 * c.maxMessages) t.pool)) } := by
  obtain ⟨⟨hsend, hrecv, -, -⟩, -⟩ := tablesSound_iff.mp hs
  have hsendWords := serTable_length .send n hsend
  have hrecvWords := serTable_length .recv (n + c.maxMessages) hrecv
  simp only [imageDe, imageSer, List.take_left' hsendWords, List.drop_left' hsendWords, List.take_left' hrecvWords,
    List.drop_left' hrecvWords]

/-- L3 of the plain image, for sound tables. -/
theorem lawRoundTripAt_plain {c : Cfg} {t : Tables} (hc : c.image = .plain) (n : Nat) (hs : tablesSound c t = true) :
    LawRoundTripAt c t n := by
  rw [LawRoundTripAt, imageDe_imageSer n hs, tablesView, tablesView]
  exact congrArg₂ Prod.mk (map_deEntry_serTable hc hs .send n)
    (congrArg₂ Prod.mk (map_deEntry_serTable hc hs .recv _) (map_deSlot_serPool hc hs _))

/-- Settles O59: the sum gives L1 and L2, the layout L3. -/
theorem plainImageMeetsLaws : Obligations.PlainImageMeetsLaws := fun _ hc hwords =>
  ⟨lawBlank_plain hc hwords, lawSingleBit_plain hc, fun _ n hs => lawRoundTripAt_plain hc n hs⟩

end Sys2Proof.Machine
end

section
/-! PROOFS. From broken tables no operation has a transition (U5): each one tests the tables before anything else, the
gate's test included. -/

namespace Sys2Proof.Machine

/-- From broken tables no SDO request is served, blocked by a save or not. -/
theorem sdoRun_of_not_sound (k : SdoClass) (b : Payload) {s : State} (h : ¬ Sound s) :
    sdoRun k b s = .refused .brokenTables := whenSound_of_not_sound h

/-- Settles O10: an operation stands behind the test of the tables by itself, or runs as an SDO request, which does. -/
theorem brokenTablesRefused : Obligations.BrokenTablesRefused := by
  intro i s h
  cases i with
  | register | addIoi | clearIoi | dispatch | add | remove | findFirst | forEach | clear | sendSweep | unpack | pack
  | mapRx | mapCleared | saveBegin | saveEnd | load => exact whenSound_of_not_sound h
  | sdoPrmWr | sdoPrmRd | sdoPidWr | sdoPidRd | sdoMapTx | sdoMapRx | sdoEchoPrm | sdoEchoMapTx | sdoEchoMapRx
  | sdoInvIdx => exact sdoRun_of_not_sound _ _ h

end Sys2Proof.Machine
end
